-- ==== Sys2Proof/Word.lean ====
section
/-! DEFINITION. Sys2Proof/Word.lean: the widths of the ECCU (rules R7, R8): the 32-bit bus and command word, the
256-bit register value, and the two ranges of register numbers. Nothing else: word slicing and byte order stand in
Machine/Window.lean, command fields in Decode.lean. -/

namespace Sys2Proof

/-- A 32-bit bus word, and a command word (R8: bus data width 32, command word width 32). -/
abbrev Word := BitVec 32

/-- The contents of a 256-bit operand or curve register (R7: W = 256). -/
abbrev Val := BitVec 256

/-- The number of an operand register X0..X15 (R8: NX = 16; R122 kind `x`). -/
abbrev XIdx := Fin 16

/-- The number of a point view P0..P7 (R8: NP = 8; R122 kind `p`). -/
abbrev PIdx := Fin 8

end Sys2Proof
end

