-- ==== Sys2Proof/Syntax.lean ====
section
/-! DEFINITION. Sys2Proof/Syntax.lean: the commands of the ECCU (30_encoding.md R126, R127), one constructor of `Instr`
for each row of spec/opcode_table.json; the fields of format C (R121); and the opcode names. -/

namespace Sys2Proof

/-- A command of the ECCU command set, version 1 (R126, R127). `ms` is the modulus select bit (R123: false selects P,
true selects N), `se` the signed-exponent bit of FPOW (R124). An operand of type `XIdx` is an X index and one of type
`PIdx` a point index (R122). -/
inductive Instr where
  | nop
  | fadd (ms : Bool) (rd ra rb : XIdx)
  | fsub (ms : Bool) (rd ra rb : XIdx)
  | fmul (ms : Bool) (rd ra rb : XIdx)
  | fdiv (ms : Bool) (rd ra rb : XIdx)
  | fpow (ms se : Bool) (rd ra rb : XIdx)
  | fneg (ms : Bool) (rd ra : XIdx)
  | finv (ms : Bool) (rd ra : XIdx)
  | fsqrt (ms : Bool) (rd ra : XIdx)
  | mmul (ms : Bool) (rd ra rb : XIdx)
  | bred (ms : Bool) (rd rhi rlo : XIdx)
  | padd (rd ra rb : PIdx)
  | pdbl (rd ra : PIdx)
  | pneg (rd ra : PIdx)
  | psub (rd ra rb : PIdx)
  | peq (ra rb : PIdx)
  | pchk (ra : PIdx)
  | smul (rd ra : PIdx) (rb : XIdx)
  | pubk (rd : PIdx) (rb : XIdx)
  deriving DecidableEq, Repr

/-- The mnemonics of the opcode map (R126). -/
inductive Op where
  | nop | fadd | fsub | fmul | fdiv | fpow | fneg | finv | fsqrt | mmul | bred
  | padd | pdbl | pneg | psub | peq | pchk | smul | pubk
  deriving DecidableEq, Repr

/-- The fields of format C, cut out of a command word and not yet judged (R121). -/
structure Fields where
  op : BitVec 6
  ms : Bool
  se : Bool
  rd : BitVec 4
  ra : BitVec 4
  rb : BitVec 4
  rsv : BitVec 12
  deriving DecidableEq, Repr

/-- Why a command word is ILLEGAL: the four causes (a) to (d) of R128. -/
inductive Illegal where
  /-- (a) OP is reserved. -/
  | reservedOpcode
  /-- (b) RSV is not 0. -/
  | reservedBits
  /-- (c) a field the opcode does not use is not 0. -/
  | unusedField
  /-- (d) bit 3 of a point index is 1. -/
  | pointIndex
  deriving DecidableEq, Repr

end Sys2Proof
end

