-- ==== Sys2Proof/WellFormed.lean ====
section
/-! DEFINITION. Sys2Proof/WellFormed.lean: when the fields of a command word make a command (30_encoding.md R122, R126,
R127, R128, R129). The check is written from the field-use columns of R127 and the tests of R129; the decoder in
Decode.lean is written from R127's match and mask columns, so each can be held against the other. An `Instr` carries
its operands in types that admit only legal numbers, so every `Instr` is well-formed (Laws/PerInstr.lean). -/

namespace Sys2Proof

/-- How an opcode uses a register field (R122): not at all (the field must be 0), as an X index, or as a point index
(bit 3 must be 0). -/
inductive FieldUse where
  | unused | x | p
  deriving DecidableEq, Repr

/-- One row of R127's field-use columns. -/
structure Usage where
  ms : Bool
  se : Bool
  rd : FieldUse
  ra : FieldUse
  rb : FieldUse
  deriving DecidableEq, Repr

/-- R126: the opcode named by OP, `none` where OP is reserved (0x0B..0x0F and 0x18..0x3F). -/
def Op.ofCode (op : BitVec 6) : Option Op :=
  match op.toNat with
  | 0x00 => some .nop
  | 0x01 => some .fadd
  | 0x02 => some .fsub
  | 0x03 => some .fmul
  | 0x04 => some .fdiv
  | 0x05 => some .fpow
  | 0x06 => some .fneg
  | 0x07 => some .finv
  | 0x08 => some .fsqrt
  | 0x09 => some .mmul
  | 0x0A => some .bred
  | 0x10 => some .padd
  | 0x11 => some .pdbl
  | 0x12 => some .pneg
  | 0x13 => some .psub
  | 0x14 => some .peq
  | 0x15 => some .pchk
  | 0x16 => some .smul
  | 0x17 => some .pubk
  | _ => none

/-- R127: which fields each opcode uses. -/
def Op.usage : Op → Usage
  | .nop => ⟨false, false, .unused, .unused, .unused⟩
  | .fadd => ⟨true, false, .x, .x, .x⟩
  | .fsub => ⟨true, false, .x, .x, .x⟩
  | .fmul => ⟨true, false, .x, .x, .x⟩
  | .fdiv => ⟨true, false, .x, .x, .x⟩
  | .fpow => ⟨true, true, .x, .x, .x⟩
  | .fneg => ⟨true, false, .x, .x, .unused⟩
  | .finv => ⟨true, false, .x, .x, .unused⟩
  | .fsqrt => ⟨true, false, .x, .x, .unused⟩
  | .mmul => ⟨true, false, .x, .x, .x⟩
  | .bred => ⟨true, false, .x, .x, .x⟩
  | .padd => ⟨false, false, .p, .p, .p⟩
  | .pdbl => ⟨false, false, .p, .p, .unused⟩
  | .pneg => ⟨false, false, .p, .p, .unused⟩
  | .psub => ⟨false, false, .p, .p, .p⟩
  | .peq => ⟨false, false, .unused, .p, .p⟩
  | .pchk => ⟨false, false, .unused, .p, .unused⟩
  | .smul => ⟨false, false, .p, .p, .x⟩
  | .pubk => ⟨false, false, .p, .unused, .x⟩

/-- R129's two tests of one register field `v` under its use `u`. -/
def FieldUse.defect (u : FieldUse) (v : BitVec 4) : Option Illegal :=
  match u with
  | .unused => if v = 0 then none else some .unusedField
  | .x => none
  | .p => if v.getLsbD 3 then some .pointIndex else none

/-- R129's tests of a field list whose opcode is known, in R129's order: MS, SE, RD, RA, RB. -/
def Usage.defect (u : Usage) (f : Fields) : Option Illegal :=
  if f.ms && !u.ms then some .unusedField
  else if f.se && !u.se then some .unusedField
  else ((u.rd.defect f.rd).or (u.ra.defect f.ra)).or (u.rb.defect f.rb)

/-- R128, R129: the first test of R129 that the fields fail, `none` where they pass them all. -/
def Fields.defect (f : Fields) : Option Illegal :=
  if f.rsv ≠ 0 then some .reservedBits
  else
    match Op.ofCode f.op with
    | none => some .reservedOpcode
    | some o => o.usage.defect f

/-- The fields make a command: none of R128's causes holds. -/
abbrev Fields.WellFormed (f : Fields) : Prop := f.defect = none

end Sys2Proof
end

