-- ==== Sys2Proof/Decode.lean ====
section
/-! DEFINITION. Sys2Proof/Decode.lean: the decoder of command words (30_encoding.md R120 to R130), total over every
32-bit word and rejecting by name; after it the encoder, from the same columns; and the host's `decodeTableWord`. -/

namespace Sys2Proof

/-! ### Fields of format C (R121) -/

/-- R121: the fields of a command word. -/
def Fields.ofWord (w : Word) : Fields where
  op := w.extractLsb' 0 6
  ms := w.getLsbD 6
  se := w.getLsbD 7
  rd := w.extractLsb' 8 4
  ra := w.extractLsb' 12 4
  rb := w.extractLsb' 16 4
  rsv := w.extractLsb' 20 12

/-- R121: the command word with the given fields, RSV in the high bits down to OP in the low ones. -/
def Fields.toWord (f : Fields) : Word :=
  f.rsv ++ f.rb ++ f.ra ++ f.rd ++ BitVec.ofBool f.se ++ BitVec.ofBool f.ms ++ f.op

/-- R122: a field read as an X index. -/
def xIndex (v : BitVec 4) : XIdx := Fin.ofNat 16 v.toNat

/-- R122: a field read as a point index; its bit 3 is 0 in every command. -/
def pIndex (v : BitVec 4) : PIdx := Fin.ofNat 8 v.toNat

/-- R122: the field that names an X register. -/
def xField (i : XIdx) : BitVec 4 := BitVec.ofNat 4 i.val

/-- R122: the field that names a point view. -/
def pField (i : PIdx) : BitVec 4 := BitVec.ofNat 4 i.val

/-! ### The opcode table (R127) -/

/-- The opcodes in the order of R127's table. -/
def Op.all : List Op :=
  [.nop, .fadd, .fsub, .fmul, .fdiv, .fpow, .fneg, .finv, .fsqrt, .mmul, .bred,
   .padd, .pdbl, .pneg, .psub, .peq, .pchk, .smul, .pubk]

/-- R127, column `match`: the fixed bits of the opcode's words. -/
def Op.fixed : Op → Word
  | .nop => 0x00000000
  | .fadd => 0x00000001
  | .fsub => 0x00000002
  | .fmul => 0x00000003
  | .fdiv => 0x00000004
  | .fpow => 0x00000005
  | .fneg => 0x00000006
  | .finv => 0x00000007
  | .fsqrt => 0x00000008
  | .mmul => 0x00000009
  | .bred => 0x0000000A
  | .padd => 0x00000010
  | .pdbl => 0x00000011
  | .pneg => 0x00000012
  | .psub => 0x00000013
  | .peq => 0x00000014
  | .pchk => 0x00000015
  | .smul => 0x00000016
  | .pubk => 0x00000017

/-- R127, column `mask`: which bits of a word the opcode fixes. -/
def Op.mask : Op → Word
  | .nop => 0xFFFFFFFF
  | .fadd => 0xFFF000BF
  | .fsub => 0xFFF000BF
  | .fmul => 0xFFF000BF
  | .fdiv => 0xFFF000BF
  | .fpow => 0xFFF0003F
  | .fneg => 0xFFFF00BF
  | .finv => 0xFFFF00BF
  | .fsqrt => 0xFFFF00BF
  | .mmul => 0xFFF000BF
  | .bred => 0xFFF000BF
  | .padd => 0xFFF888FF
  | .pdbl => 0xFFFF88FF
  | .pneg => 0xFFFF88FF
  | .psub => 0xFFF888FF
  | .peq => 0xFFF88FFF
  | .pchk => 0xFFFF8FFF
  | .smul => 0xFFF088FF
  | .pubk => 0xFFF0F8FF

/-- R127: "A word w encodes a given mnemonic exactly when `w AND mask = match`". -/
abbrev Op.Matches (o : Op) (w : Word) : Prop := w &&& o.mask = o.fixed

/-- The opcode whose row the word matches, if there is one (R127). -/
def findOp (w : Word) : Option Op := Op.all.find? fun o => decide (o.Matches w)

/-! ### Decode (R129) -/

/-- The command an opcode makes of the fields of a matching word (R122, R127). -/
def Op.build (o : Op) (f : Fields) : Instr :=
  match o with
  | .nop => .nop
  | .fadd => .fadd f.ms (xIndex f.rd) (xIndex f.ra) (xIndex f.rb)
  | .fsub => .fsub f.ms (xIndex f.rd) (xIndex f.ra) (xIndex f.rb)
  | .fmul => .fmul f.ms (xIndex f.rd) (xIndex f.ra) (xIndex f.rb)
  | .fdiv => .fdiv f.ms (xIndex f.rd) (xIndex f.ra) (xIndex f.rb)
  | .fpow => .fpow f.ms f.se (xIndex f.rd) (xIndex f.ra) (xIndex f.rb)
  | .fneg => .fneg f.ms (xIndex f.rd) (xIndex f.ra)
  | .finv => .finv f.ms (xIndex f.rd) (xIndex f.ra)
  | .fsqrt => .fsqrt f.ms (xIndex f.rd) (xIndex f.ra)
  | .mmul => .mmul f.ms (xIndex f.rd) (xIndex f.ra) (xIndex f.rb)
  | .bred => .bred f.ms (xIndex f.rd) (xIndex f.ra) (xIndex f.rb)
  | .padd => .padd (pIndex f.rd) (pIndex f.ra) (pIndex f.rb)
  | .pdbl => .pdbl (pIndex f.rd) (pIndex f.ra)
  | .pneg => .pneg (pIndex f.rd) (pIndex f.ra)
  | .psub => .psub (pIndex f.rd) (pIndex f.ra) (pIndex f.rb)
  | .peq => .peq (pIndex f.ra) (pIndex f.rb)
  | .pchk => .pchk (pIndex f.ra)
  | .smul => .smul (pIndex f.rd) (pIndex f.ra) (xIndex f.rb)
  | .pubk => .pubk (pIndex f.rd) (xIndex f.rb)

/-- R129: the command of a word, or the name of the R128 cause that makes it ILLEGAL. -/
def decode (w : Word) : Except Illegal Instr :=
  match findOp w with
  | some o => .ok (o.build (Fields.ofWord w))
  | none => .error ((Fields.ofWord w).defect.getD .reservedOpcode)

/-! ### Encode -/

/-- The opcode of a command (R126). -/
def Instr.op : Instr → Op
  | .nop => .nop
  | .fadd .. => .fadd
  | .fsub .. => .fsub
  | .fmul .. => .fmul
  | .fdiv .. => .fdiv
  | .fpow .. => .fpow
  | .fneg .. => .fneg
  | .finv .. => .finv
  | .fsqrt .. => .fsqrt
  | .mmul .. => .mmul
  | .bred .. => .bred
  | .padd .. => .padd
  | .pdbl .. => .pdbl
  | .pneg .. => .pneg
  | .psub .. => .psub
  | .peq .. => .peq
  | .pchk .. => .pchk
  | .smul .. => .smul
  | .pubk .. => .pubk

/-- The OP field of an opcode: bits 5:0 of its fixed bits (R121, R126). -/
def Op.code (o : Op) : BitVec 6 := o.fixed.extractLsb' 0 6

/-- Fields with the given opcode and operands and RSV = 0 (R121). -/
def mkFields (o : Op) (ms se : Bool) (rd ra rb : BitVec 4) : Fields := ⟨o.code, ms, se, rd, ra, rb, 0⟩

/-- R127: the fields of a command; every field the opcode does not use is 0. -/
def Instr.fields : Instr → Fields
  | .nop => mkFields .nop false false 0 0 0
  | .fadd ms rd ra rb => mkFields .fadd ms false (xField rd) (xField ra) (xField rb)
  | .fsub ms rd ra rb => mkFields .fsub ms false (xField rd) (xField ra) (xField rb)
  | .fmul ms rd ra rb => mkFields .fmul ms false (xField rd) (xField ra) (xField rb)
  | .fdiv ms rd ra rb => mkFields .fdiv ms false (xField rd) (xField ra) (xField rb)
  | .fpow ms se rd ra rb => mkFields .fpow ms se (xField rd) (xField ra) (xField rb)
  | .fneg ms rd ra => mkFields .fneg ms false (xField rd) (xField ra) 0
  | .finv ms rd ra => mkFields .finv ms false (xField rd) (xField ra) 0
  | .fsqrt ms rd ra => mkFields .fsqrt ms false (xField rd) (xField ra) 0
  | .mmul ms rd ra rb => mkFields .mmul ms false (xField rd) (xField ra) (xField rb)
  | .bred ms rd rhi rlo => mkFields .bred ms false (xField rd) (xField rhi) (xField rlo)
  | .padd rd ra rb => mkFields .padd false false (pField rd) (pField ra) (pField rb)
  | .pdbl rd ra => mkFields .pdbl false false (pField rd) (pField ra) 0
  | .pneg rd ra => mkFields .pneg false false (pField rd) (pField ra) 0
  | .psub rd ra rb => mkFields .psub false false (pField rd) (pField ra) (pField rb)
  | .peq ra rb => mkFields .peq false false 0 (pField ra) (pField rb)
  | .pchk ra => mkFields .pchk false false 0 (pField ra) 0
  | .smul rd ra rb => mkFields .smul false false (pField rd) (pField ra) (xField rb)
  | .pubk rd rb => mkFields .pubk false false (pField rd) 0 (xField rb)

/-- The command word of a command (R121, R127). -/
def encode (i : Instr) : Word := i.fields.toWord

/-- The well-formedness of a command: its fields pass the check of R128. -/
abbrev Instr.WellFormed (i : Instr) : Prop := i.fields.WellFormed

/-! ### The host's reading of the opcode table -/

/-- The command the decoder reads from the table word `w` of `nbits` bits: a command is one 32-bit bus word (R120), so a
row's bits are the word's bits and the bits above `nbits` are 0. -/
def decodeTableWord (nbits w : Nat) : Option Instr :=
  if nbits ≤ 32 then (decode (BitVec.ofNat 32 (w % 2 ^ nbits))).toOption else none

end Sys2Proof
end

