-- ==== Sys2Proof/Config.lean ====
section
/-! DEFINITION. Sys2Proof/Config.lean: what the platform brings to the ECCU and the spec leaves open
(92_eei_decisions.md, "Open parameters"): the words of the host port, and the one parameter a step needs a value of,
OUTSIDE_WINDOW. The other open parameters need no constant: LAT is the place of the sequencer's turns in the schedule
that State holds (log entry 2); ECCU_BASE drops out because accesses carry offsets (log entry 7); BUSERR_ACTION,
IRQ_ROUTE and WINDOW_PROT are reactions of the platform (log entries 8, 14 and 20). -/

namespace Sys2Proof

/-- The width of a host access (R84: only `bits32` is served; the others get a bus error). -/
inductive Width where
  | bits8 | bits16 | bits32 | bits64 | burst
  deriving DecidableEq, Repr, Inhabited

/-- Whether a host access reads or writes, and the word a write carries (R11 MemRead, MemWrite). -/
inductive BusOp where
  | read
  | write (v : Word)
  deriving DecidableEq, Repr, Inhabited

/-- One host bus access at a byte offset from ECCU_BASE (R80, R84). -/
structure Access where
  op : BusOp
  width : Width
  offset : Nat
  deriving DecidableEq, Repr, Inhabited

/-- What the host port answers to one access (R84, R86, R87). -/
inductive Reply where
  /-- The word a read returned. -/
  | data (v : Word)
  /-- A write was taken (it may still have been ignored or dropped by the register it names). -/
  | written
  /-- The bus error response of R84 and R307. -/
  | busError
  deriving DecidableEq, Repr, Inhabited

/-- OUTSIDE_WINDOW (R84, 92_eei_decisions.md D27): the platform's answer to the `n`-th host access when its offset is
0x1000 or more. A free value: nothing in the model evaluates it (log entry 6). -/
opaque Config.outsideWindow (n : Nat) (a : Access) : Reply

end Sys2Proof
end

