-- ==== Sys2Proof/Machine/State.lean ====
section
/-! DEFINITION. Sys2Proof/Machine/State.lean: the state of the ECCU as plain data (10_state.md R30 to R52), the host
port and the schedule beside it (R15), the reasons a step can stop, and the reset state (R52). -/

namespace Sys2Proof.Machine

/-- Why the MODEL stops with a fault. There is no constructor: the spec makes no behaviour a stop ("No item of this spec
is `stuck`", 93_implementation_defined.md), and what the ECCU calls a fault is a completion (R301), a next state that
carries a `FaultCode`. Safe: nothing is stopped that the spec lets go on. -/
inductive Fault where
  deriving DecidableEq, Repr

/-- Why the model refuses. -/
inductive Refusal where
  /-- Raised by an arm of `exec` whose command has no meaning yet; no arm is left in that state. Safe. -/
  | notModelled (mnemonic : String)
  deriving DecidableEq, Repr

/-- The error codes a faulting completion reports (R303, codes 1 to 7). Code 0 is `none` in `Status.errcode`; the codes 8
to 15 are never reported, so they have no constructor. -/
inductive FaultCode where
  | illegal | badmod | range | noinv | nosqrt | notonc | scalar
  deriving DecidableEq, Repr

/-- A point (R12): the point at infinity, or an affine pair of coordinates. -/
inductive Point where
  | inf
  | aff (x y : Nat)
  deriving DecidableEq, Repr

/-- The names of the six curve parameter registers (R37). -/
inductive CurveReg where
  | p | n | a | b | gx | gy
  deriving DecidableEq, Repr

/-- The registers a command reads as operands (R38): X0..X15 (R32), PINF (R33) and the curve registers (R37). -/
structure Regs where
  x : Vector Val 16
  pinf : BitVec 8
  p : Val
  n : Val
  a : Val
  b : Val
  gx : Val
  gy : Val
  deriving DecidableEq, Repr

/-- STATUS (R41). The bits 7:4 and 31:12 read 0 and ignore writes, so they are not stored. -/
structure Status where
  busy : Bool
  done : Bool
  err : Bool
  werr : Bool
  /-- ERRCODE; `none` is code 0. -/
  errcode : Option FaultCode
  deriving DecidableEq, Repr

/-- IE (R42). The bits 31:3 read 0 and ignore writes, so they are not stored. -/
structure IntEnable where
  doneIe : Bool
  errIe : Bool
  werrIe : Bool
  deriving DecidableEq, Repr

/-- FLAGS (R39). The bits 31:5 read 0, so they are not stored. -/
structure Flags where
  z : Bool
  odd : Bool
  qr : Bool
  eq : Bool
  onc : Bool
  deriving DecidableEq, Repr

/-- The pending command (R51): none, or the accepted word with the snapshot of the registers it reads. -/
inductive Pending where
  | idle
  | pending (w : Word) (s0 : Regs)
  deriving DecidableEq, Repr

/-- Who moves next (R15; log entry 2): the host with one bus access, the sequencer with its *complete* step, or the
platform with the hardware reset input `rst` (R350). -/
inductive Turn where
  | host (a : Access)
  | sequencer
  | rst
  deriving DecidableEq, Repr

/-- The host port: the schedule of turns still to come, oldest first (log entry 2); how many accesses it has served; and
its answer to the last one (log entry 5). The model's own fields: the ECCU holds none of them. -/
structure Port where
  turns : List Turn
  served : Nat
  reply : Option Reply
  deriving DecidableEq, Repr

/-- The state of the ECCU (R30), with the host port beside it. ID and CTRL hold nothing: ID reads a constant (R44) and
CTRL reads 0 (R45). The interrupt output is a function of this state (R309). -/
structure State where
  regs : Regs
  cmd : Word
  status : Status
  ie : IntEnable
  flags : Flags
  errcmd : Word
  pending : Pending
  port : Port
  deriving DecidableEq, Repr

/-- R52: X0..X15, PINF, P, N, A, B, GX and GY after reset. -/
def Regs.reset : Regs where
  x := Vector.replicate 16 0
  pinf := 0
  p := 0
  n := 0
  a := 0
  b := 0
  gx := 0
  gy := 0

/-- R52: the ECCU after a hardware or soft reset, with an empty schedule and an unused port (log entry 5). -/
def State.reset : State where
  regs := Regs.reset
  cmd := 0
  status := ⟨false, false, false, false, none⟩
  ie := ⟨false, false, false⟩
  flags := ⟨false, false, false, false, false⟩
  errcmd := 0
  pending := .idle
  port := ⟨[], 0, none⟩

/-- What a window offset names (R81): a register, one 32-bit word of a 256-bit register (R82), or nothing. -/
inductive Slot where
  | id | ctrl | cmd | status | ie | flags | errcmd | pinf
  | x (i : XIdx) (j : Fin 8)
  | curve (c : CurveReg) (j : Fin 8)
  | reserved
  deriving DecidableEq, Repr

end Sys2Proof.Machine
end

