-- ==== Sys2Proof/Machine/Flags.lean ====
section
/-! DEFINITION. Sys2Proof/Machine/Flags.lean: the flags a command writes (10_state.md R39; 40_field.md R152; 42_point.md
R225) and the words the host reads from STATUS, IE and FLAGS (R39, R41, R42), with the writes it may make to them. -/

namespace Sys2Proof.Machine

/-! ### Flags written by commands -/

/-- R152: `Z <- (r = 0)`, `ODD <- r[0]`. -/
def Flags.ofField (f : Flags) (r : Nat) : Flags := { f with z := r == 0, odd := r % 2 == 1 }

/-- R160: FSQRT also writes QR. -/
def Flags.ofSqrt (f : Flags) (r : Nat) (qr : Bool) : Flags := { f.ofField r with qr := qr }

/-- R225: `Z <- (res = INF)`, `ODD <- y[0]`, or 0 for INF. -/
def Flags.ofPoint (f : Flags) (res : Point) : Flags :=
  match res with
  | .inf => { f with z := true, odd := false }
  | .aff _ y => { f with z := false, odd := y % 2 == 1 }

/-- R230: PEQ writes EQ. -/
def Flags.ofEq (f : Flags) (eq : Bool) : Flags := { f with eq := eq }

/-- R231: PCHK writes ONC. -/
def Flags.ofOnc (f : Flags) (onc : Bool) : Flags := { f with onc := onc }

/-! ### The words the host reads and writes -/

/-- R39: FLAGS as a word; bits 31:5 read 0. -/
def Flags.toWord (f : Flags) : Word :=
  0#27 ++ BitVec.ofBool f.onc ++ BitVec.ofBool f.eq ++ BitVec.ofBool f.qr ++ BitVec.ofBool f.odd ++ BitVec.ofBool f.z

/-- R303: the number of an error code. -/
def FaultCode.code : FaultCode → BitVec 4
  | .illegal => 1
  | .badmod => 2
  | .range => 3
  | .noinv => 4
  | .nosqrt => 5
  | .notonc => 6
  | .scalar => 7

/-- R303: STATUS.ERRCODE; code 0 is NONE. -/
def Status.codeBits (s : Status) : BitVec 4 :=
  match s.errcode with
  | none => 0
  | some c => c.code

/-- R41: STATUS as a word; bits 7:4 and 31:12 read 0. -/
def Status.toWord (s : Status) : Word :=
  0#20 ++ s.codeBits ++ 0#4 ++ BitVec.ofBool s.werr ++ BitVec.ofBool s.err ++ BitVec.ofBool s.done ++
    BitVec.ofBool s.busy

/-- R41, R87: a host write of `v` to STATUS clears DONE, ERR with ERRCODE, and WERR where `v` has a 1. -/
def Status.clear (s : Status) (v : Word) : Status where
  busy := s.busy
  done := s.done && !v.getLsbD 1
  err := s.err && !v.getLsbD 2
  werr := s.werr && !v.getLsbD 3
  errcode := if v.getLsbD 2 then none else s.errcode

/-- R42: IE as a word; bits 31:3 read 0. -/
def IntEnable.toWord (e : IntEnable) : Word :=
  0#29 ++ BitVec.ofBool e.werrIe ++ BitVec.ofBool e.errIe ++ BitVec.ofBool e.doneIe

/-- R42, R87: a host write of `v` to IE stores `v[2:0]`. -/
def IntEnable.ofWord (v : Word) : IntEnable := ⟨v.getLsbD 0, v.getLsbD 1, v.getLsbD 2⟩

end Sys2Proof.Machine
end

