-- ==== Sys2Proof/Machine/Ops.lean ====
section
/-! DEFINITION. Sys2Proof/Machine/Ops.lean: the named operations over the registers (10_state.md R32 to R38), accepting a
command (60_exceptions.md R300), its two completions (R301, R302), the acknowledgment that stands for a return (R312),
reset (70_reset_and_hazards.md R351) and the interrupt output (R309). -/

namespace Sys2Proof.Machine

/-! ### Operand registers and point views -/

/-- R11, R32: `x[i]` as a number. -/
def Regs.xNat (r : Regs) (i : XIdx) : Nat := (r.x[i.val]).toNat

/-- R11, R32: `x[i] <- v`. -/
def Regs.setX (r : Regs) (i : XIdx) (v : Val) : Regs := { r with x := r.x.set i.val v }

/-- R36: the X register that holds the x coordinate of view k. -/
def xOfView (k : PIdx) : XIdx := ⟨2 * k.val, by omega⟩

/-- R36: the X register that holds the y coordinate of view k. -/
def yOfView (k : PIdx) : XIdx := ⟨2 * k.val + 1, by omega⟩

/-- R34: `pt(k)`. -/
def Regs.view (r : Regs) (k : PIdx) : Point :=
  if r.pinf.getLsbD k.val then .inf else .aff (r.xNat (xOfView k)) (r.xNat (yOfView k))

/-- R35: sets or clears PINF[k] and no other bit. -/
def setTag (pinf : BitVec 8) (k : PIdx) (inf : Bool) : BitVec 8 :=
  if inf then pinf ||| (1#8 <<< k.val) else pinf &&& ~~~(1#8 <<< k.val)

/-- R35: `pt(k) <- res`. -/
def Regs.setView (r : Regs) (k : PIdx) (res : Point) : Regs :=
  match res with
  | .inf => { (r.setX (xOfView k) 0).setX (yOfView k) 0 with pinf := setTag r.pinf k true }
  | .aff u v =>
    { (r.setX (xOfView k) (BitVec.ofNat 256 u)).setX (yOfView k) (BitVec.ofNat 256 v) with
      pinf := setTag r.pinf k false }

/-- R37: a curve parameter register. -/
def Regs.curve (r : Regs) (c : CurveReg) : Val :=
  match c with
  | .p => r.p
  | .n => r.n
  | .a => r.a
  | .b => r.b
  | .gx => r.gx
  | .gy => r.gy

/-- R37: a host write of a curve parameter register. -/
def Regs.setCurve (r : Regs) (c : CurveReg) (v : Val) : Regs :=
  match c with
  | .p => { r with p := v }
  | .n => { r with n := v }
  | .a => { r with a := v }
  | .b => { r with b := v }
  | .gx => { r with gx := v }
  | .gy => { r with gy := v }

/-! ### The pending command -/

/-- R38, R51: the registers a command reads: the snapshot taken at acceptance. Where no command is pending (no run
completes a command there) the live registers stand in for it (log entry 9). -/
def State.operands (s : State) : Regs :=
  match s.pending with
  | .pending _ s0 => s0
  | .idle => s.regs

/-- R51: the word of the command being completed; CMD stands in for it where none is pending (log entry 9). -/
def State.word (s : State) : Word :=
  match s.pending with
  | .pending w _ => w
  | .idle => s.cmd

/-- R300: `Accept(w)`. -/
def accept (w : Word) (s : State) : State :=
  { s with
    cmd := w
    status := { s.status with done := false, err := false, errcode := none, busy := true }
    pending := .pending w s.regs }

/-! ### Completion -/

/-- R301: the completion of a command that raises Fault(c): the one way the ECCU takes an exception (R311). It saves the
command word in ERRCMD and the code in STATUS, and writes no X register, no PINF bit and no flag. -/
def completeFault (c : FaultCode) (s : State) : State :=
  { s with
    status := { s.status with errcode := some c, err := true, done := true, busy := false }
    errcmd := s.word
    pending := .idle }

/-- R302: the completion of a command whose writes are already committed. -/
def completeOk (s : State) : State :=
  { s with status := { s.status with done := true, busy := false }, pending := .idle }

/-- R301, R302, R38: completes with the result `r` of a command's computation: a fault, or the value whose writes
`commit` makes. -/
def finish {α : Type} (r : Except FaultCode α) (commit : α → State → State) (s : State) :
    Host.Outcome State Fault Refusal :=
  match r with
  | .error c => .next (completeFault c s)
  | .ok v => .next (completeOk (commit v s))

/-- R152: the writes of a field result. -/
def commitField (rd : XIdx) (r : Nat) (s : State) : State :=
  { s with regs := s.regs.setX rd (BitVec.ofNat 256 r), flags := s.flags.ofField r }

/-- R152, R160: the writes of a square root and its QR flag. -/
def commitSqrt (rd : XIdx) (r : Nat × Bool) (s : State) : State :=
  { s with regs := s.regs.setX rd (BitVec.ofNat 256 r.1), flags := s.flags.ofSqrt r.1 r.2 }

/-- R225: the writes of a point result. -/
def commitPoint (rd : PIdx) (res : Point) (s : State) : State :=
  { s with regs := s.regs.setView rd res, flags := s.flags.ofPoint res }

/-- R230: the one write of PEQ. -/
def commitEq (eq : Bool) (s : State) : State := { s with flags := s.flags.ofEq eq }

/-- R231: the one write of PCHK. -/
def commitOnc (onc : Bool) (s : State) : State := { s with flags := s.flags.ofOnc onc }

/-- R280: NOP commits nothing. -/
def commitNothing (_ : Unit) (s : State) : State := s

/-! ### Acknowledgment, reset and the interrupt -/

/-- R312, R41: the host acknowledges a completion by a write of `v` to STATUS; there is no return instruction. -/
def acknowledge (v : Word) (s : State) : State := { s with status := s.status.clear v }

/-- R351: what both reset sources do: every register at its reset value, the pending command discarded. The schedule and
the port's record are outside the ECCU and stay (log entry 5). -/
def resetEccu (s : State) : State := { State.reset with port := s.port }

/-- R309: the level of the interrupt output. -/
def irq (s : State) : Bool :=
  (s.status.done && s.ie.doneIe) || (s.status.err && s.ie.errIe) || (s.status.werr && s.ie.werrIe)

end Sys2Proof.Machine
end

