-- ==== Sys2Proof/Machine/Control.lean ====
section
/-! DEFINITION. Sys2Proof/Machine/Control.lean: the control command (44_control.md R280). -/

namespace Sys2Proof.Machine

/-- R280 NOP: completes and writes no register, PINF bit or flag. -/
def execNop (s : State) : Host.Outcome State Fault Refusal := finish (.ok ()) commitNothing s

end Sys2Proof.Machine
end

