-- ==== Sys2Proof/Machine/Arith.lean ====
section
/-! DEFINITION. Sys2Proof/Machine/Arith.lean: the integer arithmetic the commands are written over (00_scope.md R9, R10;
40_field.md R161, R163; 41_reduction.md R200, R204, R205), on natural numbers and integers that never wrap. Loops recurse
on a bound that their docstrings justify (log entry 12). -/

namespace Sys2Proof.Machine

/-- R9: `z mod m` for an integer z and m > 0, the Euclidean remainder in [0, m-1]. -/
def emod (z : Int) (m : Nat) : Nat := (z % (m : Int)).toNat

/-- R10: the number of bits in the binary expansion of k, with bitlen(0) = 0. -/
def bitlen (k : Nat) : Nat := if k = 0 then 0 else Nat.log2 k + 1

/-- Square-and-multiply over the `n` low bits of `e`: multiplies `acc` by the powers of `base` that `e` selects. -/
def powLoop (m : Nat) : Nat → Nat → Nat → Nat → Nat
  | 0, acc, _, _ => acc
  | n + 1, acc, base, e => powLoop m n (if e % 2 = 1 then acc * base % m else acc) (base * base % m) (e / 2)

/-- `a^e mod m`, with `a^0 = 1` (R9). R157 and R161 use it. -/
def powMod (a e m : Nat) : Nat := powLoop m (bitlen e) (1 % m) (a % m) e

/-- The loop of R163: `(r0, r1)` are the remainders and `(s0, s1)` the cofactors; answers `r0` and `s0` when `r1 = 0`. -/
def euclidLoop : Nat → Nat → Nat → Int → Int → Nat × Int
  | 0, r0, _, s0, _ => (r0, s0)
  | n + 1, r0, r1, s0, s1 =>
    if r1 = 0 then (r0, s0) else euclidLoop n r1 (r0 - r0 / r1 * r1) s1 (s0 - (r0 / r1 : Nat) * s1)

/-- R163: `Inv(a, m)` for gcd(a, m) = 1. Each round more than halves `r0 * r1`, which starts below `m * m`, so twice the
bit length of m rounds always reach `r1 = 0`. -/
def invMod (a m : Nat) : Nat := emod (euclidLoop (2 * bitlen m) m a 0 1).2 m

/-- The least of the `n` numbers from `lo` on that passes the test. -/
def leastFrom (test : Nat → Bool) : Nat → Nat → Option Nat
  | 0, _ => none
  | n + 1, lo => if test lo then some lo else leastFrom test n (lo + 1)

/-- R161: "the least z in [2, m-1] with z^((m-1) div 2) mod m = m - 1". -/
def leastNonResidue (m : Nat) : Option Nat := leastFrom (fun z => powMod z ((m - 1) / 2) m == m - 1) (m - 2) 2

/-- R161: `(Q, S)` with `q * 2^s = Q * 2^S` and Q odd, found in `n` halvings. -/
def splitTwos : Nat → Nat → Nat → Nat × Nat
  | 0, q, s => (q, s)
  | n + 1, q, s => if q % 2 = 0 then splitTwos n (q / 2) (s + 1) else (q, s)

/-- R161: the loop of Tonelli–Shanks on `(k, c, t, r)`. Each round lowers k, which starts at S, so `S + 1` rounds always
reach an answer. -/
def tsLoop (m : Nat) : Nat → Nat → Nat → Nat → Nat → Option Nat
  | 0, _, _, _, _ => none
  | n + 1, k, c, t, r =>
    if t = 1 then some r
    else
      match leastFrom (fun i => powMod t (2 ^ i) m == 1) (k - 1) 1 with
      | none => none
      | some i =>
        let b := powMod c (2 ^ (k - i - 1)) m
        tsLoop m n i (b * b % m) (t * b * b % m) (r * b % m)

/-- R161: `TS(a, m)`; `none` is Fault(NOSQRT). -/
def tonelliShanks (a m : Nat) : Option Nat :=
  if a = 0 then some 0
  else if powMod a ((m - 1) / 2) m ≠ 1 then none
  else
    match leastNonResidue m with
    | none => none
    | some z =>
      let qs := splitTwos (bitlen (m - 1)) (m - 1) 0
      tsLoop m (qs.2 + 1) qs.2 (powMod z qs.1 m) (powMod a qs.1 m) (powMod a ((qs.1 + 1) / 2) m)

/-- R200: the Montgomery radix R = 2^256. -/
def montR : Nat := 2 ^ 256

/-- R200: `Rinv(m) = Inv(R mod m, m)`. -/
def montRinv (m : Nat) : Nat := invMod (montR % m) m

/-- R200: `m' = (-Inv(m, 2^256)) mod 2^256`. -/
def montMPrime (m : Nat) : Nat := emod (-(invMod m montR : Int)) montR

/-- R205, informative: Montgomery REDC of `t0 < m * R`. No command's meaning rests on it. -/
def montRedc (t0 m : Nat) : Nat :=
  let u := t0 % montR * montMPrime m % montR
  let t := (t0 + u * m) / montR
  if m ≤ t then t - m else t

/-- R204, informative: the Barrett reduction of `v < 2^512`. No command's meaning rests on it. -/
def barrettReduce (v m : Nat) : Nat :=
  let mu := 2 ^ 512 / m
  let q := v * mu / 2 ^ 512
  let r := v - q * m
  if m ≤ r then r - m else r

end Sys2Proof.Machine
end

