-- ==== Sys2Proof/Machine/Operands.lean ====
section
/-! DEFINITION. Sys2Proof/Machine/Operands.lean: how commands read their operands and what they check before they compute
(30_encoding.md R122 to R124; 40_field.md R150, R151; 42_point.md R220 to R222; 60_exceptions.md R304). Checks are
written in continuation form, in the order in which the rules test them: the first that fails gives the code. -/

namespace Sys2Proof.Machine

/-- R11: "if not c then raise Fault(code)", then go on with `k`. -/
def require {α : Type} (c : Prop) [Decidable c] (code : FaultCode) (k : Except FaultCode α) : Except FaultCode α :=
  if c then k else .error code

/-! ### Field operands -/

/-- R11, R123: `Mod(ms)`: the P register for MS = 0 and the N register for MS = 1. -/
def Regs.modulus (r : Regs) (ms : Bool) : Nat := if ms then r.n.toNat else r.p.toNat

/-- R150: `ModValid(m)`: m is odd and at least 3. -/
abbrev ModValid (m : Nat) : Prop := 3 ≤ m ∧ m % 2 = 1

/-- R150, R151: the checks of a command with one field operand. -/
def guardField1 {α : Type} (m a : Nat) (k : Except FaultCode α) : Except FaultCode α :=
  require (ModValid m) .badmod <| require (a < m) .range k

/-- R150, R151: the checks of a command with two field operands, RA's before RB's. -/
def guardField2 {α : Type} (m a b : Nat) (k : Except FaultCode α) : Except FaultCode α :=
  require (ModValid m) .badmod <| require (a < m) .range <| require (b < m) .range k

/-- R124, R157: the exponent X[RB], unsigned for SE = 0 and two's complement for SE = 1. -/
def Regs.exponent (r : Regs) (se : Bool) (rb : XIdx) : Int :=
  if se then (r.x[rb.val]).toInt else (r.xNat rb : Int)

/-- R202: the 512-bit value `{X[RA], X[RB]}`. -/
def Regs.double (r : Regs) (hi lo : XIdx) : Nat := r.xNat hi * 2 ^ 256 + r.xNat lo

/-! ### Curve context and point operands -/

/-- R37: P as a number. -/
abbrev Regs.pNat (r : Regs) : Nat := r.p.toNat

/-- R37: A as a number. -/
abbrev Regs.aNat (r : Regs) : Nat := r.a.toNat

/-- R37: B as a number. -/
abbrev Regs.bNat (r : Regs) : Nat := r.b.toNat

/-- R37, R263: the generator `Aff(GX, GY)`. -/
def Regs.generator (r : Regs) : Point := .aff r.gx.toNat r.gy.toNat

/-- R220 for a command other than PUBK: P, then A, then B. -/
def guardCurve {α : Type} (r : Regs) (k : Except FaultCode α) : Except FaultCode α :=
  require (ModValid r.pNat) .badmod <| require (r.aNat < r.pNat) .range <| require (r.bNat < r.pNat) .range k

/-- R220 for PUBK: P, then N, then A, then B. -/
def guardCurveN {α : Type} (r : Regs) (k : Except FaultCode α) : Except FaultCode α :=
  require (ModValid r.pNat) .badmod <| require (ModValid r.n.toNat) .badmod <|
    require (r.aNat < r.pNat) .range <| require (r.bNat < r.pNat) .range k

/-- R221: the range check of a point operand; INF passes. -/
def inRange (p : Nat) : Point → Bool
  | .inf => true
  | .aff x y => decide (x < p) && decide (y < p)

/-- R222: `OnCurve`. -/
def onCurve (p a b : Nat) : Point → Bool
  | .inf => true
  | .aff x y =>
    decide (x < p) && decide (y < p) &&
      emod ((y * y : Int) - ((x * x * x : Int) + (a * x : Int) + (b : Int))) p == 0

/-- R222 over the curve registers. -/
def Regs.onCurve (r : Regs) (u : Point) : Bool := Machine.onCurve r.pNat r.aNat r.bNat u

/-- R221 for one point operand. -/
def guardPoint1 {α : Type} (r : Regs) (u : Point) (k : Except FaultCode α) : Except FaultCode α :=
  require (inRange r.pNat u = true) .range <| require (r.onCurve u = true) .notonc k

/-- R221 for two point operands: all range checks come before all curve checks, RA's before RB's. -/
def guardPoint2 {α : Type} (r : Regs) (u v : Point) (k : Except FaultCode α) : Except FaultCode α :=
  require (inRange r.pNat u = true) .range <| require (inRange r.pNat v = true) .range <|
    require (r.onCurve u = true) .notonc <| require (r.onCurve v = true) .notonc k

end Sys2Proof.Machine
end

