-- ==== Sys2Proof/Machine/Field.lean ====
section
/-! DEFINITION. Sys2Proof/Machine/Field.lean: the field commands (40_field.md R153 to R160). Each command is its
computation over the registers it reads (`eval…`, a value or a fault code) and its meaning (`exec…`, the completion with
the writes of R152). -/

namespace Sys2Proof.Machine

/-- R153: `(a + b) mod m`. -/
def evalFadd (r : Regs) (ms : Bool) (ra rb : XIdx) : Except FaultCode Nat :=
  let m := r.modulus ms
  let a := r.xNat ra
  let b := r.xNat rb
  guardField2 m a b <| .ok ((a + b) % m)

/-- R153 FADD. -/
def execFadd (ms : Bool) (rd ra rb : XIdx) (s : State) : Host.Outcome State Fault Refusal :=
  finish (evalFadd s.operands ms ra rb) (commitField rd) s

/-- R154: `(a - b) mod m`, Euclidean. -/
def evalFsub (r : Regs) (ms : Bool) (ra rb : XIdx) : Except FaultCode Nat :=
  let m := r.modulus ms
  let a := r.xNat ra
  let b := r.xNat rb
  guardField2 m a b <| .ok (emod ((a : Int) - (b : Int)) m)

/-- R154 FSUB. -/
def execFsub (ms : Bool) (rd ra rb : XIdx) (s : State) : Host.Outcome State Fault Refusal :=
  finish (evalFsub s.operands ms ra rb) (commitField rd) s

/-- R155: `(a * b) mod m`. -/
def evalFmul (r : Regs) (ms : Bool) (ra rb : XIdx) : Except FaultCode Nat :=
  let m := r.modulus ms
  let a := r.xNat ra
  let b := r.xNat rb
  guardField2 m a b <| .ok (a * b % m)

/-- R155 FMUL. -/
def execFmul (ms : Bool) (rd ra rb : XIdx) (s : State) : Host.Outcome State Fault Refusal :=
  finish (evalFmul s.operands ms ra rb) (commitField rd) s

/-- R156: `(a * Inv(b, m)) mod m`; NOINV where b has no inverse. -/
def evalFdiv (r : Regs) (ms : Bool) (ra rb : XIdx) : Except FaultCode Nat :=
  let m := r.modulus ms
  let a := r.xNat ra
  let b := r.xNat rb
  guardField2 m a b <| require (Nat.gcd b m = 1) .noinv <| .ok (a * invMod b m % m)

/-- R156 FDIV. -/
def execFdiv (ms : Bool) (rd ra rb : XIdx) (s : State) : Host.Outcome State Fault Refusal :=
  finish (evalFdiv s.operands ms ra rb) (commitField rd) s

/-- R157: `a^(e mod (m-1)) mod m`, the base checked and the exponent not. -/
def evalFpow (r : Regs) (ms se : Bool) (ra rb : XIdx) : Except FaultCode Nat :=
  let m := r.modulus ms
  let a := r.xNat ra
  guardField1 m a <| .ok (powMod a (emod (r.exponent se rb) (m - 1)) m)

/-- R157 FPOW. -/
def execFpow (ms se : Bool) (rd ra rb : XIdx) (s : State) : Host.Outcome State Fault Refusal :=
  finish (evalFpow s.operands ms se ra rb) (commitField rd) s

/-- R158: `(m - a) mod m`. -/
def evalFneg (r : Regs) (ms : Bool) (ra : XIdx) : Except FaultCode Nat :=
  let m := r.modulus ms
  let a := r.xNat ra
  guardField1 m a <| .ok ((m - a) % m)

/-- R158 FNEG. -/
def execFneg (ms : Bool) (rd ra : XIdx) (s : State) : Host.Outcome State Fault Refusal :=
  finish (evalFneg s.operands ms ra) (commitField rd) s

/-- R159: `Inv(a, m)`; NOINV where a has no inverse. -/
def evalFinv (r : Regs) (ms : Bool) (ra : XIdx) : Except FaultCode Nat :=
  let m := r.modulus ms
  let a := r.xNat ra
  guardField1 m a <| require (Nat.gcd a m = 1) .noinv <| .ok (invMod a m)

/-- R159 FINV. -/
def execFinv (ms : Bool) (rd ra : XIdx) (s : State) : Host.Outcome State Fault Refusal :=
  finish (evalFinv s.operands ms ra) (commitField rd) s

/-- R160: the root and the QR flag: `a^((m+1)/4)` for m ≡ 3 (mod 4), with no residue test; Tonelli–Shanks otherwise. -/
def sqrtMod (a m : Nat) : Except FaultCode (Nat × Bool) :=
  if m % 4 = 3 then
    let r := powMod a ((m + 1) / 4) m
    .ok (r, r * r % m == a)
  else
    match tonelliShanks a m with
    | none => .error .nosqrt
    | some r => .ok (r, true)

/-- R160, with its checks. -/
def evalFsqrt (r : Regs) (ms : Bool) (ra : XIdx) : Except FaultCode (Nat × Bool) :=
  let m := r.modulus ms
  let a := r.xNat ra
  guardField1 m a <| sqrtMod a m

/-- R160 FSQRT. -/
def execFsqrt (ms : Bool) (rd ra : XIdx) (s : State) : Host.Outcome State Fault Refusal :=
  finish (evalFsqrt s.operands ms ra) (commitSqrt rd) s

end Sys2Proof.Machine
end

