-- ==== Sys2Proof/Machine/Group.lean ====
section
/-! DEFINITION. Sys2Proof/Machine/Group.lean: the group law and double-and-add (42_point.md R223, R224; 43_scalar.md
R260), shared by the point and scalar commands. -/

namespace Sys2Proof.Machine

/-- R223: the affine sum with slope `s`: `x3 = s*s - ux - vx`, `y3 = s*(ux - x3) - uy`, modulo p. -/
def chordPoint (p s ux uy vx : Nat) : Point :=
  let x3 := emod ((s : Int) * s - ux - vx) p
  .aff x3 (emod ((s : Int) * (ux - x3) - uy) p)

/-- R223: the slope `num / den` modulo p, or Fault(NOINV) where den has no inverse. -/
def slopeOf (p num den : Nat) : Except FaultCode Nat :=
  require (Nat.gcd den p = 1) .noinv <| .ok (num * invMod den p % p)

/-- R223: `Add(U, V)` over (P, A), the five cases in the rule's order. -/
def addPoints (p a : Nat) (u v : Point) : Except FaultCode Point :=
  match u, v with
  | .inf, v => .ok v
  | .aff ux uy, .inf => .ok (.aff ux uy)
  | .aff ux uy, .aff vx vy =>
    if ux = vx ∧ uy ≠ vy then .ok .inf
    else if ux ≠ vx then
      match slopeOf p (emod ((vy : Int) - uy) p) (emod ((vx : Int) - ux) p) with
      | .error c => .error c
      | .ok s => .ok (chordPoint p s ux uy vx)
    else if uy = 0 then .ok .inf
    else
      match slopeOf p ((3 * ux * ux + a) % p) (2 * uy % p) with
      | .error c => .error c
      | .ok s => .ok (chordPoint p s ux uy vx)

/-- R224: `Neg(U)`. -/
def negPoint (p : Nat) : Point → Point
  | .inf => .inf
  | .aff x y => .aff x ((p - y) % p)

/-- R260: the loop over the `n` low bits of k, least significant first; `run` is doubled after every bit. -/
def smulLoop (p a : Nat) : Nat → Nat → Point → Point → Except FaultCode Point
  | 0, _, acc, _ => .ok acc
  | n + 1, k, acc, run =>
    match (if k % 2 = 1 then addPoints p a acc run else .ok acc) with
    | .error c => .error c
    | .ok acc' =>
      match addPoints p a run run with
      | .error c => .error c
      | .ok run' => smulLoop p a n (k / 2) acc' run'

/-- R260: `SMul(U, k)`, over the bitlen(k) bits of k. -/
def smul (p a : Nat) (u : Point) (k : Nat) : Except FaultCode Point := smulLoop p a (bitlen k) k .inf u

end Sys2Proof.Machine
end

