-- ==== Sys2Proof/Machine/PointOps.lean ====
section
/-! DEFINITION. Sys2Proof/Machine/PointOps.lean: the point commands (42_point.md R226 to R231). -/

namespace Sys2Proof.Machine

/-- R226: `Add(U, V)`. -/
def evalPadd (r : Regs) (ra rb : PIdx) : Except FaultCode Point :=
  guardCurve r <| guardPoint2 r (r.view ra) (r.view rb) <| addPoints r.pNat r.aNat (r.view ra) (r.view rb)

/-- R226 PADD. -/
def execPadd (rd ra rb : PIdx) (s : State) : Host.Outcome State Fault Refusal :=
  finish (evalPadd s.operands ra rb) (commitPoint rd) s

/-- R227: `Add(U, U)`. -/
def evalPdbl (r : Regs) (ra : PIdx) : Except FaultCode Point :=
  guardCurve r <| guardPoint1 r (r.view ra) <| addPoints r.pNat r.aNat (r.view ra) (r.view ra)

/-- R227 PDBL. -/
def execPdbl (rd ra : PIdx) (s : State) : Host.Outcome State Fault Refusal :=
  finish (evalPdbl s.operands ra) (commitPoint rd) s

/-- R228: `Neg(U)`. -/
def evalPneg (r : Regs) (ra : PIdx) : Except FaultCode Point :=
  guardCurve r <| guardPoint1 r (r.view ra) <| .ok (negPoint r.pNat (r.view ra))

/-- R228 PNEG. -/
def execPneg (rd ra : PIdx) (s : State) : Host.Outcome State Fault Refusal :=
  finish (evalPneg s.operands ra) (commitPoint rd) s

/-- R229: `Add(U, Neg(V))`. -/
def evalPsub (r : Regs) (ra rb : PIdx) : Except FaultCode Point :=
  guardCurve r <| guardPoint2 r (r.view ra) (r.view rb) <|
    addPoints r.pNat r.aNat (r.view ra) (negPoint r.pNat (r.view rb))

/-- R229 PSUB. -/
def execPsub (rd ra rb : PIdx) (s : State) : Host.Outcome State Fault Refusal :=
  finish (evalPsub s.operands ra rb) (commitPoint rd) s

/-- R230: equality of the stored points (R12), with no check. -/
def evalPeq (r : Regs) (ra rb : PIdx) : Except FaultCode Bool := .ok (decide (r.view ra = r.view rb))

/-- R230 PEQ. -/
def execPeq (ra rb : PIdx) (s : State) : Host.Outcome State Fault Refusal :=
  finish (evalPeq s.operands ra rb) commitEq s

/-- R231: `OnCurve(pt(RA))` after the curve checks. -/
def evalPchk (r : Regs) (ra : PIdx) : Except FaultCode Bool := guardCurve r <| .ok (r.onCurve (r.view ra))

/-- R231 PCHK. -/
def execPchk (ra : PIdx) (s : State) : Host.Outcome State Fault Refusal :=
  finish (evalPchk s.operands ra) commitOnc s

end Sys2Proof.Machine
end

