-- ==== Sys2Proof/Machine/Reduction.lean ====
section
/-! DEFINITION. Sys2Proof/Machine/Reduction.lean: the Montgomery multiplier and Barrett reducer commands
(41_reduction.md R201, R202). The engines' algorithms (R204, R205) stand in Arith.lean; only results are architectural. -/

namespace Sys2Proof.Machine

/-- R201: `(a * b * Rinv(m)) mod m`. -/
def evalMmul (r : Regs) (ms : Bool) (ra rb : XIdx) : Except FaultCode Nat :=
  let m := r.modulus ms
  let a := r.xNat ra
  let b := r.xNat rb
  guardField2 m a b <| .ok (a * b * montRinv m % m)

/-- R201 MMUL. -/
def execMmul (ms : Bool) (rd ra rb : XIdx) (s : State) : Host.Outcome State Fault Refusal :=
  finish (evalMmul s.operands ms ra rb) (commitField rd) s

/-- R202: the 512-bit value modulo m; its halves are not range-checked. -/
def evalBred (r : Regs) (ms : Bool) (rhi rlo : XIdx) : Except FaultCode Nat :=
  let m := r.modulus ms
  require (ModValid m) .badmod <| .ok (r.double rhi rlo % m)

/-- R202 BRED. -/
def execBred (ms : Bool) (rd rhi rlo : XIdx) (s : State) : Host.Outcome State Fault Refusal :=
  finish (evalBred s.operands ms rhi rlo) (commitField rd) s

end Sys2Proof.Machine
end

