-- ==== Sys2Proof/Machine/ScalarOps.lean ====
section
/-! DEFINITION. Sys2Proof/Machine/ScalarOps.lean: the scalar-multiplication commands (43_scalar.md R262, R263). -/

namespace Sys2Proof.Machine

/-- R262: `SMul(U, k)`; k is neither reduced nor range-checked. -/
def evalSmul (r : Regs) (ra : PIdx) (rb : XIdx) : Except FaultCode Point :=
  guardCurve r <| guardPoint1 r (r.view ra) <| smul r.pNat r.aNat (r.view ra) (r.xNat rb)

/-- R262 SMUL. -/
def execSmul (rd ra : PIdx) (rb : XIdx) (s : State) : Host.Outcome State Fault Refusal :=
  finish (evalSmul s.operands ra rb) (commitPoint rd) s

/-- R263: `SMul(G, k)` for 0 < k < N; SCALAR otherwise. -/
def evalPubk (r : Regs) (rb : XIdx) : Except FaultCode Point :=
  guardCurveN r <| guardPoint1 r r.generator <|
    require (0 < r.xNat rb ∧ r.xNat rb < r.n.toNat) .scalar <| smul r.pNat r.aNat r.generator (r.xNat rb)

/-- R263 PUBK. -/
def execPubk (rd : PIdx) (rb : XIdx) (s : State) : Host.Outcome State Fault Refusal :=
  finish (evalPubk s.operands rb) (commitPoint rd) s

end Sys2Proof.Machine
end

