-- ==== Sys2Proof/Machine/Dispatch.lean ====
section
/-! DEFINITION. Sys2Proof/Machine/Dispatch.lean: the meaning of each command: what its *complete* step does (60_exceptions.md
R304), one arm per constructor of `Instr`. -/

namespace Sys2Proof.Machine

/-- R304: completes the pending command, which decoded to `i`. -/
def exec (i : Instr) (s : State) : Host.Outcome State Fault Refusal :=
  match i with
  | .nop => Sys2Proof.Machine.execNop s
  | .fadd ms rd ra rb => Sys2Proof.Machine.execFadd ms rd ra rb s
  | .fsub ms rd ra rb => Sys2Proof.Machine.execFsub ms rd ra rb s
  | .fmul ms rd ra rb => Sys2Proof.Machine.execFmul ms rd ra rb s
  | .fdiv ms rd ra rb => Sys2Proof.Machine.execFdiv ms rd ra rb s
  | .fpow ms se rd ra rb => Sys2Proof.Machine.execFpow ms se rd ra rb s
  | .fneg ms rd ra => Sys2Proof.Machine.execFneg ms rd ra s
  | .finv ms rd ra => Sys2Proof.Machine.execFinv ms rd ra s
  | .fsqrt ms rd ra => Sys2Proof.Machine.execFsqrt ms rd ra s
  | .mmul ms rd ra rb => Sys2Proof.Machine.execMmul ms rd ra rb s
  | .bred ms rd rhi rlo => Sys2Proof.Machine.execBred ms rd rhi rlo s
  | .padd rd ra rb => Sys2Proof.Machine.execPadd rd ra rb s
  | .pdbl rd ra => Sys2Proof.Machine.execPdbl rd ra s
  | .pneg rd ra => Sys2Proof.Machine.execPneg rd ra s
  | .psub rd ra rb => Sys2Proof.Machine.execPsub rd ra rb s
  | .peq ra rb => Sys2Proof.Machine.execPeq ra rb s
  | .pchk ra => Sys2Proof.Machine.execPchk ra s
  | .smul rd ra rb => Sys2Proof.Machine.execSmul rd ra rb s
  | .pubk rd rb => Sys2Proof.Machine.execPubk rd rb s

end Sys2Proof.Machine
end

