-- ==== Sys2Proof/Machine/Window.lean ====
section
/-! DEFINITION. Sys2Proof/Machine/Window.lean: the register window (20_memory.md R81 to R88): where each register stands,
how a 256-bit register is cut into words, and what one aligned 32-bit read or write does. -/

namespace Sys2Proof.Machine

/-- R80: the window's size in bytes. -/
def windowBytes : Nat := 0x1000

/-- R44: what ID reads. -/
def idValue : Word := 0x45434301

/-- R81: the curve register at place k after 0x300. -/
def curveAt (k : Nat) : Option CurveReg :=
  match k with
  | 0 => some .p
  | 1 => some .n
  | 2 => some .a
  | 3 => some .b
  | 4 => some .gx
  | 5 => some .gy
  | _ => none

/-- R81: what the aligned offset `off` inside the window names. -/
def slotAt (off : Nat) : Slot :=
  if off < 0x20 then
    match off / 4 with
    | 0 => .id
    | 1 => .ctrl
    | 2 => .cmd
    | 3 => .status
    | 4 => .ie
    | 5 => .flags
    | 6 => .errcmd
    | _ => .pinf
  else if off < 0x100 then .reserved
  else if off < 0x300 then .x (Fin.ofNat 16 ((off - 0x100) / 0x20)) (Fin.ofNat 8 (off / 4))
  else
    match curveAt ((off - 0x300) / 0x20) with
    | some c => .curve c (Fin.ofNat 8 (off / 4))
    | none => .reserved

/-- R82: bits [32j+31 : 32j] of a 256-bit value. -/
def getWord (v : Val) (j : Fin 8) : Word := v.extractLsb' (32 * j.val) 32

/-- R82: `reg[32j+31:32j] <- w`, the other 224 bits unchanged. -/
def putWord (v : Val) (j : Fin 8) (w : Word) : Val :=
  (v &&& ~~~((0xFFFFFFFF#256) <<< (32 * j.val))) ||| (w.setWidth 256 <<< (32 * j.val))

/-- R83: byte lane i of a bus word. -/
def lane (w : Word) (i : Fin 4) : BitVec 8 := w.extractLsb' (8 * i.val) 8

/-- R86: `MemRead(off, 4)` for an aligned offset inside the window. -/
def memRead (off : Nat) (s : State) : Word :=
  match slotAt off with
  | .id => idValue
  | .ctrl => 0
  | .cmd => s.cmd
  | .status => s.status.toWord
  | .ie => s.ie.toWord
  | .flags => s.flags.toWord
  | .errcmd => s.errcmd
  | .pinf => s.regs.pinf.setWidth 32
  | .x i j => getWord (s.regs.x[i.val]) j
  | .curve c j => getWord (s.regs.curve c) j
  | .reserved => 0

/-- R306: a write that BUSY drops changes only WERR. -/
def dropWrite (s : State) : State := { s with status := { s.status with werr := true } }

/-- R87, R306: a write that is made while BUSY = 0 and dropped while BUSY = 1. -/
def whileIdle (write : State → State) (s : State) : State := if s.status.busy then dropWrite s else write s

/-- R87: `MemWrite(off, 4, v)` for an aligned offset inside the window. -/
def memWrite (off : Nat) (v : Word) (s : State) : State :=
  match slotAt off with
  | .id => s
  | .ctrl => if v.getLsbD 0 then resetEccu s else s
  | .cmd => whileIdle (accept v) s
  | .status => acknowledge v s
  | .ie => { s with ie := IntEnable.ofWord v }
  | .flags => s
  | .errcmd => s
  | .pinf => whileIdle (fun t => { t with regs := { t.regs with pinf := v.setWidth 8 } }) s
  | .x i j => whileIdle (fun t => { t with regs := t.regs.setX i (putWord (t.regs.x[i.val]) j v) }) s
  | .curve c j => whileIdle (fun t => { t with regs := t.regs.setCurve c (putWord (t.regs.curve c) j v) }) s
  | .reserved => s

/-- R81: the offset of CMD. -/
def offCmd : Nat := 0x008

/-- R81: the base offset of Xi. -/
def offX (i : XIdx) : Nat := 0x100 + 0x20 * i.val

/-- R81: the base offset of a curve register. -/
def offCurve : CurveReg → Nat
  | .p => 0x300
  | .n => 0x320
  | .a => 0x340
  | .b => 0x360
  | .gx => 0x380
  | .gy => 0x3A0

end Sys2Proof.Machine
end

