-- ==== Sys2Proof/Machine/HostPort.lean ====
section
/-! DEFINITION. Sys2Proof/Machine/HostPort.lean: one access at the host port (20_memory.md R84, R86, R87, R92;
60_exceptions.md R307). -/

namespace Sys2Proof.Machine

/-- The port answers `r` to the access it has served (log entry 5). -/
def respond (r : Reply) (s : State) : State :=
  { s with port := { s.port with served := s.port.served + 1, reply := some r } }

/-- R84, R86, R87: serves one access: outside the window the platform answers (log entry 6); a width other than 32 bits
or an offset not a multiple of 4 gets a bus error and changes nothing; the rest reads or writes the window. -/
def serve (a : Access) (s : State) : State :=
  if windowBytes ≤ a.offset then respond (Config.outsideWindow s.port.served a) s
  else if a.width ≠ .bits32 ∨ a.offset % 4 ≠ 0 then respond .busError s
  else
    match a.op with
    | .read => respond (.data (memRead a.offset s)) s
    | .write v => respond .written (memWrite a.offset v s)

end Sys2Proof.Machine
end

