-- ==== Sys2Proof/Machine/Sequencer.lean ====
section
/-! DEFINITION. Sys2Proof/Machine/Sequencer.lean: the sequencer's *complete* step (00_scope.md R15; 60_exceptions.md R301,
R302, R304), and the turn of each agent. -/

namespace Sys2Proof.Machine

/-- R304: `Complete(w)`: Decode first, ILLEGAL where the word is no command, then the command's own rule. -/
def completeWord (w : Word) (s : State) : Host.Outcome State Fault Refusal :=
  match decode w with
  | .error _ => .next (completeFault .illegal s)
  | .ok i => exec i s

/-- R15: *complete* is enabled only while a command is pending; otherwise the ECCU is idle and keeps every value (R320). -/
def complete (s : State) : Host.Outcome State Fault Refusal :=
  match s.pending with
  | .idle => .next s
  | .pending w _ => completeWord w s

/-- R15, R350: one agent's turn. -/
def takeTurn (t : Turn) (s : State) : Host.Outcome State Fault Refusal :=
  match t with
  | .host a => .next (serve a s)
  | .sequencer => complete s
  | .rst => .next (resetEccu s)

/-- The state with the schedule `ts` (log entry 2). -/
def withTurns (ts : List Turn) (s : State) : State := { s with port := { s.port with turns := ts } }

/-- The host's write of the command word `w` to CMD has just been taken (R300), and the sequencer moves next. -/
def poised (w : Word) (s : State) : State := accept w (withTurns (.sequencer :: s.port.turns) s)

end Sys2Proof.Machine
end

