-- ==== Sys2Proof/Machine/Step.lean ====
section
/-! DEFINITION. Sys2Proof/Machine/Step.lean: one step of the machine, and the host's `withFetchWord`. -/

namespace Sys2Proof.Machine

/-- One step (R15): the agent at the head of the schedule takes its turn. An empty schedule leaves the sequencer to take
its step if a command is pending (weak fairness; log entry 3). -/
def step (s : State) : Host.Outcome State Fault Refusal :=
  match s.port.turns with
  | [] => complete s
  | t :: ts => takeTurn t (withTurns ts s)

/-- R300: the ECCU fetches nothing; its next command is the one a host write to CMD makes pending. `withFetchWord` is the
state right after that write, with the sequencer to move next (log entry 4). -/
def State.withFetchWord (s : State) (nbits w : Nat) : State := poised (BitVec.ofNat 32 (w % 2 ^ nbits)) s

end Sys2Proof.Machine
end

