-- ==== Sys2Proof/Safety.lean ====
section
/-! DEFINITION. Sys2Proof/Safety.lean: the terms the claims are stated in: the invariant of the machine, the state each
kind of completion leaves (written out field by field from 60_exceptions.md R301, R302 and the commit rules, so that a
claim gives the whole next state and with it the frame), which commands write what, which codes a command can raise
(R303), and LAT. -/

namespace Sys2Proof.Machine

/-! ### The invariant -/

/-- What holds of the ECCU between any two steps. -/
structure State.Inv (s : State) : Prop where
  /-- R51: a command is pending exactly while STATUS.BUSY = 1. -/
  busy_iff : s.status.busy = true ↔ s.pending ≠ .idle
  /-- R40, R51, R95: while a command is pending, CMD holds its word and the live registers are the ones it reads. -/
  snapshot : ∀ w s0, s.pending = .pending w s0 → s.cmd = w ∧ s.regs = s0
  /-- R300, R302: acceptance clears DONE, ERR and ERRCODE, and nothing sets them before completion. -/
  in_flight : s.status.busy = true → s.status.done = false ∧ s.status.err = false
  /-- R41, R301: ERRCODE is not 0 exactly while ERR is 1. -/
  code_iff : s.status.err = s.status.errcode.isSome
  /-- R40, R43, R301: while ERR is 1, ERRCMD and CMD hold the same word, the one that faulted. -/
  captured : s.status.err = true → s.errcmd = s.cmd

/-! ### The states that completions leave -/

/-- R301: the state a command that raises Fault(c) leaves. -/
def faultDone (c : FaultCode) (s : State) : State where
  regs := s.regs
  cmd := s.cmd
  status := { busy := false, done := true, err := true, werr := s.status.werr, errcode := some c }
  ie := s.ie
  flags := s.flags
  errcmd := s.word
  pending := .idle
  port := s.port

/-- R302: the state a command leaves whose writes give the registers `r` and the flags `f`. -/
def okDone (r : Regs) (f : Flags) (s : State) : State where
  regs := r
  cmd := s.cmd
  status :=
    { busy := false, done := true, err := s.status.err, werr := s.status.werr, errcode := s.status.errcode }
  ie := s.ie
  flags := f
  errcmd := s.errcmd
  pending := .idle
  port := s.port

/-- R152, R302: a field result `r` in X[rd], with Z and ODD. -/
def fieldDone (rd : XIdx) (r : Nat) (s : State) : State :=
  okDone { s.regs with x := s.regs.x.set rd.val (BitVec.ofNat 256 r) }
    { s.flags with z := decide (r = 0), odd := decide (r % 2 = 1) } s

/-- R152, R160, R302: a square root `r` in X[rd], with Z, ODD and QR. -/
def sqrtDone (rd : XIdx) (r : Nat) (qr : Bool) (s : State) : State :=
  okDone { s.regs with x := s.regs.x.set rd.val (BitVec.ofNat 256 r) }
    { s.flags with z := decide (r = 0), odd := decide (r % 2 = 1), qr := qr } s

/-- R35, R225, R302: the point result INF in view rd: both coordinates 0, the tag set, Z = 1 and ODD = 0. -/
def infDone (rd : PIdx) (s : State) : State :=
  okDone
    { s.regs with
      x := (s.regs.x.set (2 * rd.val) 0).set (2 * rd.val + 1) 0
      pinf := s.regs.pinf ||| (1#8 <<< rd.val) }
    { s.flags with z := true, odd := false } s

/-- R35, R225, R302: the point result Aff(u, v) in view rd: the tag cleared, Z = 0 and ODD = v[0]. -/
def affDone (rd : PIdx) (u v : Nat) (s : State) : State :=
  okDone
    { s.regs with
      x := (s.regs.x.set (2 * rd.val) (BitVec.ofNat 256 u)).set (2 * rd.val + 1) (BitVec.ofNat 256 v)
      pinf := s.regs.pinf &&& ~~~(1#8 <<< rd.val) }
    { s.flags with z := false, odd := decide (v % 2 = 1) } s

/-- R225: a point result in view rd. -/
def pointDone (rd : PIdx) (res : Point) (s : State) : State :=
  match res with
  | .inf => infDone rd s
  | .aff u v => affDone rd u v s

/-! ### The operands of point commands -/

/-- R220: the curve registers pass every check. -/
def ValidCurve (r : Regs) : Prop := ModValid r.p.toNat ∧ r.a.toNat < r.p.toNat ∧ r.b.toNat < r.p.toNat

/-- R221: a point operand passes every check: INF, or coordinates below P that satisfy the curve equation of R222. -/
def ValidPoint (r : Regs) : Point → Prop
  | .inf => True
  | .aff x y => x < r.p.toNat ∧ y < r.p.toNat ∧
      (y * y) % r.p.toNat = (x * x * x + r.a.toNat * x + r.b.toNat) % r.p.toNat

/-- R223, as a relation: `w` is the sum of `u` and `v`. In cases 3 and 5 it is the third point of the chord or tangent,
reflected: coordinates below p, congruent to R223's formulas for a slope `s` that satisfies R223's division. -/
def IsSum (p a : Nat) (u v w : Point) : Prop :=
  match u, v with
  | .inf, v => w = v
  | .aff ux uy, .inf => w = .aff ux uy
  | .aff ux uy, .aff vx vy =>
    if ux = vx ∧ (uy ≠ vy ∨ uy = 0) then w = .inf
    else ∃ s x3 y3 : Nat, w = .aff x3 y3 ∧ x3 < p ∧ y3 < p ∧
      (if ux = vx then (s * (2 * uy) : Int) ≡ 3 * ux * ux + a [ZMOD p]
        else (s * (vx - ux) : Int) ≡ vy - uy [ZMOD p]) ∧
      (x3 : Int) ≡ s * s - ux - vx [ZMOD p] ∧ (y3 : Int) ≡ s * (ux - x3) - uy [ZMOD p]

/-- R223: the division that the sum of `u` and `v` needs can be made: its divisor is coprime to p, or there is none. -/
def SumDefined (p : Nat) (u v : Point) : Prop :=
  match u, v with
  | .aff ux uy, .aff vx vy =>
    (ux ≠ vx → Int.gcd (vx - ux : Int) p = 1) ∧ (ux = vx ∧ uy = vy ∧ uy ≠ 0 → Nat.gcd (2 * uy) p = 1)
  | .inf, _ => True
  | .aff _ _, .inf => True

/-- R221, R230, R263: the point operands a command validates, RA's before RB's; PUBK's is the generator. -/
def pointOperands (i : Instr) (r : Regs) : List Point :=
  match i with
  | .padd _ ra rb => [r.view ra, r.view rb]
  | .pdbl _ ra => [r.view ra]
  | .pneg _ ra => [r.view ra]
  | .psub _ ra rb => [r.view ra, r.view rb]
  | .smul _ ra _ => [r.view ra]
  | .pubk _ _ => [.aff r.gx.toNat r.gy.toNat]
  | .nop => []
  | .fadd _ _ _ _ => []
  | .fsub _ _ _ _ => []
  | .fmul _ _ _ _ => []
  | .fdiv _ _ _ _ => []
  | .fpow _ _ _ _ _ => []
  | .fneg _ _ _ => []
  | .finv _ _ _ => []
  | .fsqrt _ _ _ => []
  | .mmul _ _ _ _ => []
  | .bred _ _ _ _ => []
  | .peq _ _ => []
  | .pchk _ => []

/-- R220: the commands that check the curve registers. -/
def usesCurve (i : Instr) : Bool :=
  match i with
  | .padd _ _ _ => true
  | .pdbl _ _ => true
  | .pneg _ _ => true
  | .psub _ _ _ => true
  | .pchk _ => true
  | .smul _ _ _ => true
  | .pubk _ _ => true
  | .nop => false
  | .fadd _ _ _ _ => false
  | .fsub _ _ _ _ => false
  | .fmul _ _ _ _ => false
  | .fdiv _ _ _ _ => false
  | .fpow _ _ _ _ _ => false
  | .fneg _ _ _ => false
  | .finv _ _ _ => false
  | .fsqrt _ _ _ => false
  | .mmul _ _ _ _ => false
  | .bred _ _ _ _ => false
  | .peq _ _ => false

/-! ### What a command writes and raises -/

/-- R32, R152: the X register a field or reduction command writes. -/
def fieldDest : Instr → Option XIdx
  | .fadd _ rd _ _ => some rd
  | .fsub _ rd _ _ => some rd
  | .fmul _ rd _ _ => some rd
  | .fdiv _ rd _ _ => some rd
  | .fpow _ _ rd _ _ => some rd
  | .fneg _ rd _ => some rd
  | .finv _ rd _ => some rd
  | .fsqrt _ rd _ => some rd
  | .mmul _ rd _ _ => some rd
  | .bred _ rd _ _ => some rd
  | .nop => none
  | .padd _ _ _ => none
  | .pdbl _ _ => none
  | .pneg _ _ => none
  | .psub _ _ _ => none
  | .peq _ _ => none
  | .pchk _ => none
  | .smul _ _ _ => none
  | .pubk _ _ => none

/-- R32, R225: the point view a command that produces a point writes. -/
def pointDest : Instr → Option PIdx
  | .padd rd _ _ => some rd
  | .pdbl rd _ => some rd
  | .pneg rd _ => some rd
  | .psub rd _ _ => some rd
  | .smul rd _ _ => some rd
  | .pubk rd _ => some rd
  | .nop => none
  | .fadd _ _ _ _ => none
  | .fsub _ _ _ _ => none
  | .fmul _ _ _ _ => none
  | .fdiv _ _ _ _ => none
  | .fpow _ _ _ _ _ => none
  | .fneg _ _ _ => none
  | .finv _ _ _ => none
  | .fsqrt _ _ _ => none
  | .mmul _ _ _ _ => none
  | .bred _ _ _ _ => none
  | .peq _ _ => none
  | .pchk _ => none

/-- R303, column "raised by": the error codes a decoded command can report. -/
def raises : Instr → List FaultCode
  | .nop => []
  | .peq _ _ => []
  | .fadd _ _ _ _ => [.badmod, .range]
  | .fsub _ _ _ _ => [.badmod, .range]
  | .fmul _ _ _ _ => [.badmod, .range]
  | .fdiv _ _ _ _ => [.badmod, .range, .noinv]
  | .fpow _ _ _ _ _ => [.badmod, .range]
  | .fneg _ _ _ => [.badmod, .range]
  | .finv _ _ _ => [.badmod, .range, .noinv]
  | .fsqrt _ _ _ => [.badmod, .range, .nosqrt]
  | .mmul _ _ _ _ => [.badmod, .range]
  | .bred _ _ _ _ => [.badmod]
  | .padd _ _ _ => [.badmod, .range, .notonc, .noinv]
  | .pdbl _ _ => [.badmod, .range, .notonc, .noinv]
  | .pneg _ _ => [.badmod, .range, .notonc]
  | .psub _ _ _ => [.badmod, .range, .notonc, .noinv]
  | .pchk _ => [.badmod, .range]
  | .smul _ _ _ => [.badmod, .range, .notonc, .noinv]
  | .pubk _ _ => [.badmod, .range, .notonc, .scalar, .noinv]

/-- R354: two snapshots agree on every register the command's family reads; a view's row is its tag and, where the tag is
clear, its coordinates (R34). -/
def SameReads (i : Instr) (r r' : Regs) : Prop :=
  match i with
  | .nop => True
  | .fadd ms _ ra rb => (if ms then r.n = r'.n else r.p = r'.p) ∧ r.x[ra.val] = r'.x[ra.val] ∧ r.x[rb.val] = r'.x[rb.val]
  | .fsub ms _ ra rb => (if ms then r.n = r'.n else r.p = r'.p) ∧ r.x[ra.val] = r'.x[ra.val] ∧ r.x[rb.val] = r'.x[rb.val]
  | .fmul ms _ ra rb => (if ms then r.n = r'.n else r.p = r'.p) ∧ r.x[ra.val] = r'.x[ra.val] ∧ r.x[rb.val] = r'.x[rb.val]
  | .fdiv ms _ ra rb => (if ms then r.n = r'.n else r.p = r'.p) ∧ r.x[ra.val] = r'.x[ra.val] ∧ r.x[rb.val] = r'.x[rb.val]
  | .fpow ms _ _ ra rb => (if ms then r.n = r'.n else r.p = r'.p) ∧ r.x[ra.val] = r'.x[ra.val] ∧ r.x[rb.val] = r'.x[rb.val]
  | .fneg ms _ ra => (if ms then r.n = r'.n else r.p = r'.p) ∧ r.x[ra.val] = r'.x[ra.val]
  | .finv ms _ ra => (if ms then r.n = r'.n else r.p = r'.p) ∧ r.x[ra.val] = r'.x[ra.val]
  | .fsqrt ms _ ra => (if ms then r.n = r'.n else r.p = r'.p) ∧ r.x[ra.val] = r'.x[ra.val]
  | .mmul ms _ ra rb => (if ms then r.n = r'.n else r.p = r'.p) ∧ r.x[ra.val] = r'.x[ra.val] ∧ r.x[rb.val] = r'.x[rb.val]
  | .bred ms _ rhi rlo => (if ms then r.n = r'.n else r.p = r'.p) ∧ r.x[rhi.val] = r'.x[rhi.val] ∧ r.x[rlo.val] = r'.x[rlo.val]
  | .padd _ ra rb => r.p = r'.p ∧ r.a = r'.a ∧ r.b = r'.b ∧ r.view ra = r'.view ra ∧ r.view rb = r'.view rb
  | .pdbl _ ra => r.p = r'.p ∧ r.a = r'.a ∧ r.b = r'.b ∧ r.view ra = r'.view ra
  | .pneg _ ra => r.p = r'.p ∧ r.a = r'.a ∧ r.b = r'.b ∧ r.view ra = r'.view ra
  | .psub _ ra rb => r.p = r'.p ∧ r.a = r'.a ∧ r.b = r'.b ∧ r.view ra = r'.view ra ∧ r.view rb = r'.view rb
  | .peq ra rb => r.view ra = r'.view ra ∧ r.view rb = r'.view rb
  | .pchk ra => r.p = r'.p ∧ r.a = r'.a ∧ r.b = r'.b ∧ r.view ra = r'.view ra
  | .smul _ ra rb => r.p = r'.p ∧ r.a = r'.a ∧ r.b = r'.b ∧ r.view ra = r'.view ra ∧ r.x[rb.val] = r'.x[rb.val]
  | .pubk _ rb => r.p = r'.p ∧ r.a = r'.a ∧ r.b = r'.b ∧ r.n = r'.n ∧ r.gx = r'.gx ∧ r.gy = r'.gy ∧ r.x[rb.val] = r'.x[rb.val]

/-! ### Schedules -/

/-- R8, R362: LAT under a schedule: how many steps after an acceptance the sequencer has its turn. At least 1. -/
def lat : List Turn → Nat
  | [] => 1
  | .sequencer :: _ => 1
  | .host _ :: ts => lat ts + 1
  | .rst :: ts => lat ts + 1

/-- R281: an access that is a soft reset: an aligned 32-bit write of a word with bit 0 = 1 to CTRL. -/
def isSoftReset (a : Access) : Bool :=
  match a.op with
  | .read => false
  | .write v => decide (a.width = .bits32) && decide (a.offset = 0x004) && v.getLsbD 0

/-- R350: a turn that resets the ECCU, by `rst` or by CTRL. -/
def resets : Turn → Bool
  | .host a => isSoftReset a
  | .sequencer => false
  | .rst => true

/-- The access is a 32-bit access at an aligned offset inside the window (R84). -/
def WindowAccess (a : Access) : Prop := a.width = .bits32 ∧ a.offset % 4 = 0 ∧ a.offset < 0x1000

end Sys2Proof.Machine
end

