-- ==== Sys2Proof/Certificates/Slice0/Obligations.lean ====
section
/-! DEFINITION. Sys2Proof/Certificates/Slice0/Obligations.lean: the statements for the provers, grouped as encoding, step
and life cycle, register window, commands, frames, and the arithmetic behind the commands. -/

open Sys2Proof Sys2Proof.Machine

/-! ### Encoding (30_encoding.md) -/

/-- R127, R129: decoding the encoding of any command gives it back, for every value of every operand. -/
def Obligations.EncodedCommandDecodesBack : Prop := ∀ i : Instr, decode (encode i) = .ok i

/-- R127: no bit of a legal word is dropped: a word that decodes is the encoding of what it decodes to. -/
def Obligations.DecodedWordEncodesBack : Prop := ∀ (w : Word) (i : Instr), decode w = .ok i → encode i = w

/-- R127: "Each word in [0, 2^32 - 1] matches at most one row." -/
def Obligations.WordMatchesAtMostOneRow : Prop := ∀ (w : Word) (o o' : Op), o.Matches w → o'.Matches w → o = o'

/-- R128: the decoder (written from R127's match and mask columns) refuses exactly the words that R128 calls ILLEGAL: (a) a
reserved OP, (b) RSV ≠ 0, (c) an unused field that is not 0, (d) bit 3 of a point index. -/
def Obligations.IllegalWordsAreThoseOfTheFourCauses : Prop :=
  ∀ w : Word, (∃ e, decode w = .error e) ↔
    (w.extractLsb' 20 12 ≠ 0 ∨
      match Op.ofCode (w.extractLsb' 0 6) with
      | none => True
      | some o =>
        (o.usage.ms = false ∧ w.getLsbD 6 = true) ∨ (o.usage.se = false ∧ w.getLsbD 7 = true) ∨
          (o.usage.rd = .unused ∧ w.extractLsb' 8 4 ≠ 0) ∨ (o.usage.ra = .unused ∧ w.extractLsb' 12 4 ≠ 0) ∨
          (o.usage.rb = .unused ∧ w.extractLsb' 16 4 ≠ 0) ∨ (o.usage.rd = .p ∧ w.getLsbD 11 = true) ∨
          (o.usage.ra = .p ∧ w.getLsbD 15 = true) ∨ (o.usage.rb = .p ∧ w.getLsbD 19 = true))

/-- Words written out in 95_test_vectors.md decode to the commands they stand for, one or more of every family. -/
def Obligations.SpecWordsDecode : Prop :=
  decode 0x00000000 = .ok .nop ∧ decode 0x00021301 = .ok (.fadd false 3 1 2) ∧
    decode 0x00021385 = .ok (.fpow false true 3 1 2) ∧ decode 0x00001348 = .ok (.fsqrt true 3 1) ∧
    decode 0x0002134A = .ok (.bred true 3 1 2) ∧ decode 0x00010210 = .ok (.padd 2 0 1) ∧
    decode 0x00010014 = .ok (.peq 0 1) ∧ decode 0x000F0216 = .ok (.smul 2 0 15) ∧
    decode 0x00080217 = .ok (.pubk 2 8) ∧ decode 0x00000100 = .error .unusedField ∧
    decode 0x0000003F = .error .reservedOpcode ∧ decode 0x00121301 = .error .reservedBits ∧
    decode 0x00000811 = .error .pointIndex

/-! ### The step and the life of a command (00_scope.md R15, 60_exceptions.md, 70_reset_and_hazards.md) -/

/-- R15, R304: where a command is pending and its word decodes to `i`, the sequencer's step is `exec i`, on the state
whose schedule has lost that turn; an empty schedule gives the sequencer its turn (log entry 3). -/
def Obligations.StepRunsTheDecodedCommand : Prop :=
  ∀ (s : State) (w : Word) (s0 : Regs) (i : Instr), s.pending = .pending w s0 → decode w = .ok i →
    (∀ ts, s.port.turns = .sequencer :: ts → step s = exec i { s with port := { s.port with turns := ts } }) ∧
      (s.port.turns = [] → step s = exec i s)

/-- R128, R301, R304: a pending word that is ILLEGAL completes with error code 1, the word in ERRCMD, and no register or
flag changed. -/
def Obligations.IllegalWordFaultsAtCompletion : Prop :=
  ∀ (s : State) (w : Word) (s0 : Regs) (e : Illegal) (ts : List Turn), s.pending = .pending w s0 →
    decode w = .error e → s.port.turns = .sequencer :: ts →
    ∃ t, step s = .next t ∧ t = faultDone .illegal { s with port := { s.port with turns := ts } } ∧
      t.errcmd = w ∧ (memRead 0x00C t).extractLsb' 8 4 = 1

/-- R38, R301, R302, R303: a decoded command either faults, with one of the codes its row of R303 lists and nothing
written, or completes without touching ERR, ERRCODE, ERRCMD, CMD, IE, WERR or the port. -/
def Obligations.CompletionIsFaultOrCommit : Prop :=
  ∀ (i : Instr) (s : State),
    (∃ c ∈ raises i, exec i s = .next (faultDone c s)) ∨ (∃ r f, exec i s = .next (okDone r f s))

/-- R52: the invariant holds after reset. -/
def Obligations.InvariantHoldsAtReset : Prop := State.reset.Inv

/-- R40, R41, R51, R95, R300, R301: from every state that meets the invariant, whoever moves, a step leads to one that
meets it. For a host access at 0x1000 or more this rests on log entry 6, and for an empty schedule on log entry 3. -/
def Obligations.StepKeepsInvariant : Prop := ∀ s t : State, s.Inv → step s = .next t → t.Inv

/-- R95: "Once a command is accepted, no host write can change what it computes." Whatever accesses the host makes before
the sequencer's turn, soft resets apart, the completion leaves the same operand registers, FLAGS, ERRCMD, CMD and
outcome in STATUS as an immediate completion. That an access at 0x1000 or more leaves the registers alone is log entry
6. -/
def Obligations.HostCannotDisturbCommandInFlight : Prop :=
  ∀ (s : State) (w : Word) (s0 : Regs) (as : List Access) (ts : List Turn), s.Inv → s.pending = .pending w s0 →
    (∀ a ∈ as, isSoftReset a = false) → s.port.turns = as.map .host ++ .sequencer :: ts →
    ∃ t u, Host.Core.run Sys2Proof.core (as.length + 1) s = .next t ∧
      step { s with port := { s.port with turns := .sequencer :: ts } } = .next u ∧
      t.regs = u.regs ∧ t.flags = u.flags ∧ t.errcmd = u.errcmd ∧ t.cmd = u.cmd ∧ t.pending = u.pending ∧
      t.status.busy = u.status.busy ∧ t.status.done = u.status.done ∧ t.status.err = u.status.err ∧
      t.status.errcode = u.status.errcode

/-- R15, R41, R361, R362: a pending command stays in flight for LAT - 1 steps and completes at the LAT-th, whatever the
host does, if nothing resets the ECCU before then. The schedule stands for LAT (log entry 2); that an exhausted one gives
the sequencer its turn at once, `lat [] = 1`, is the model's choice (log entry 3); that an access at 0x1000 or more leaves
the ECCU alone is log entry 6. -/
def Obligations.AcceptedCommandCompletesAtLat : Prop :=
  ∀ (s : State) (w : Word) (s0 : Regs), s.Inv → s.pending = .pending w s0 →
    (∀ t ∈ s.port.turns.take (lat s.port.turns - 1), resets t = false) →
    (∀ n, n < lat s.port.turns → ∃ t, Host.Core.run Sys2Proof.core n s = .next t ∧ t.status.busy = true ∧ t.cmd = w) ∧
      ∃ t, Host.Core.run Sys2Proof.core (lat s.port.turns) s = .next t ∧ t.pending = .idle ∧
        t.status.busy = false ∧ t.status.done = true ∧ t.cmd = w

/-- R52: the value of every piece of state after a hardware or a soft reset, whatever the state before: what each offset
of the window reads, the point views, the pending command and irq; and every command over a modulus, accepted then,
faults with BADMOD. -/
def Obligations.ResetValues : Prop :=
  ∀ (s t : State) (v : Word), v.getLsbD 0 = true →
    (takeTurn .rst s = .next t ∨ serve ⟨.write v, .bits32, 0x004⟩ s = t) →
    memRead 0x000 t = 0x45434301 ∧ (∀ off, off ≠ 0x000 → off % 4 = 0 → off < 0x1000 → memRead off t = 0) ∧
      (∀ k : PIdx, t.regs.view k = .aff 0 0) ∧ t.pending = .idle ∧ irq t = false ∧
      ∀ i : Instr, i ≠ .nop → (∀ ra rb, i ≠ .peq ra rb) →
        exec i (accept (encode i) t) = .next (faultDone .badmod (accept (encode i) t))

/-- R281, R350, R351: the `rst` input and a write of a word with bit 0 = 1 to CTRL, whether or not a command is in flight,
set every register to its reset value, discard the pending command and deassert irq. -/
def Obligations.BothResetsRestoreResetState : Prop :=
  ∀ (s : State) (v : Word), v.getLsbD 0 = true →
    takeTurn .rst s = .next { State.reset with port := s.port } ∧
      (serve ⟨.write v, .bits32, 0x004⟩ s).pending = .idle ∧
      { serve ⟨.write v, .bits32, 0x004⟩ s with port := State.reset.port } = State.reset ∧
      irq (serve ⟨.write v, .bits32, 0x004⟩ s) = false

/-- R352: with the curve registers as reset leaves them, every command other than NOP, PEQ faults with BADMOD, NOP
completes, and PEQ of two views completes with EQ = 1, since all views are affine at (0, 0). -/
def Obligations.CommandsAfterReset : Prop :=
  ∀ s : State, s.operands = Regs.reset →
    (∀ i : Instr, i ≠ .nop → (∀ ra rb, i ≠ .peq ra rb) → exec i s = .next (faultDone .badmod s)) ∧
      exec .nop s = .next (okDone s.regs s.flags s) ∧
      ∀ ra rb, exec (.peq ra rb) s = .next (okDone s.regs { s.flags with eq := true } s)

/-- R300: a host write of `w` to CMD while BUSY = 0: CMD, STATUS and the snapshot as the rule says, and nothing else
changed but the port's record. -/
def Obligations.AcceptedWriteToCmd : Prop :=
  ∀ (s : State) (w : Word), s.status.busy = false →
    serve ⟨.write w, .bits32, 0x008⟩ s =
      { s with
        cmd := w
        status := { busy := true, done := false, err := false, werr := s.status.werr, errcode := none }
        pending := .pending w s.regs
        port := { s.port with served := s.port.served + 1, reply := some .written } }

/-- R306: a host write to CMD, PINF, an X word or a curve-parameter word while BUSY = 1 changes nothing except WERR (and
the port's record); and WERR stays 1, whoever moves, until a W1C write to STATUS or a reset clears it. That a host access
at 0x1000 or more leaves WERR alone is log entry 6. -/
def Obligations.WriteWhileBusyIsDropped : Prop :=
  ∀ s : State,
    (∀ (v : Word) (off : Nat), s.status.busy = true → off % 4 = 0 →
      (off = 0x008 ∨ off = 0x01C ∨ (0x100 ≤ off ∧ off < 0x3C0)) →
      serve ⟨.write v, .bits32, off⟩ s =
        { s with
          status := { s.status with werr := true }
          port := { s.port with served := s.port.served + 1, reply := some .written } }) ∧
    ∀ (turn : Turn) (t : State), s.status.werr = true → takeTurn turn s = .next t → t.status.werr = false →
      resets turn = true ∨ ∃ v, v.getLsbD 3 = true ∧ turn = .host ⟨.write v, .bits32, 0x00C⟩

/-- R309, R310: the interrupt output is the level of R309's formula in every state, over the bits the host reads. It rises
with the completion, or the dropped write, whose source is enabled, and falls with the access that clears the last enabled
source; an acceptance leaves only WERR's; clearing IE masks them all. -/
def Obligations.IrqIsTheEnabledPendingSources : Prop :=
  ∀ s : State,
    (irq s = (((memRead 0x00C s).getLsbD 1 && (memRead 0x010 s).getLsbD 0) ||
      ((memRead 0x00C s).getLsbD 2 && (memRead 0x010 s).getLsbD 1) ||
      ((memRead 0x00C s).getLsbD 3 && (memRead 0x010 s).getLsbD 2))) ∧
    (∀ i t, exec i s = .next t → s.ie.doneIe = true → irq t = true) ∧
    (∀ c, s.ie.errIe = true → irq (faultDone c s) = true) ∧
    (s.ie.werrIe = true → ∀ v, s.status.busy = true → irq (serve ⟨.write v, .bits32, 0x008⟩ s) = true) ∧
    (∀ v, s.status.busy = false → irq (serve ⟨.write v, .bits32, 0x008⟩ s) = (s.status.werr && s.ie.werrIe)) ∧
    irq (serve ⟨.write 0x0000000E, .bits32, 0x00C⟩ s) = false ∧ irq (serve ⟨.write 0, .bits32, 0x010⟩ s) = false

/-! ### The register window (20_memory.md) -/

/-- R81: the map of the window: X registers, curve registers, and the reserved offsets between and after them. -/
def Obligations.RegisterMap : Prop :=
  (∀ (i : XIdx) (j : Fin 8), slotAt (0x100 + 0x20 * i.val + 4 * j.val) = .x i j) ∧
    (∀ (c : CurveReg) (j : Fin 8), slotAt (offCurve c + 4 * j.val) = .curve c j) ∧
    (∀ off, (0x020 ≤ off ∧ off < 0x100) ∨ (0x3C0 ≤ off ∧ off < 0x1000) → slotAt off = .reserved) ∧
    slotAt 0x000 = .id ∧ slotAt 0x004 = .ctrl ∧ slotAt 0x008 = .cmd ∧ slotAt 0x00C = .status ∧ slotAt 0x010 = .ie ∧
    slotAt 0x014 = .flags ∧ slotAt 0x018 = .errcmd ∧ slotAt 0x01C = .pinf

/-- R86, R88: no aligned 32-bit read inside the window changes the ECCU, and it returns `memRead`; R84, R307: nor does a
read there of another width or alignment; at 0x1000 or more, where R84 leaves the answer to the platform, that the ECCU is
unchanged is log entry 6. -/
def Obligations.ReadsChangeNothing : Prop :=
  ∀ (s : State) (width : Width) (off : Nat),
    { serve ⟨.read, width, off⟩ s with port := s.port } = s ∧
      (WindowAccess ⟨.read, width, off⟩ → (serve ⟨.read, width, off⟩ s).port.reply = some (.data (memRead off s)))

/-- R84, R307: an access inside the window of another width, or at an unaligned offset, gets a bus error and changes no
state. -/
def Obligations.BadAccessGetsBusError : Prop :=
  ∀ (s : State) (a : Access), a.offset < 0x1000 → (a.width ≠ .bits32 ∨ a.offset % 4 ≠ 0) →
    serve a s = { s with port := { s.port with served := s.port.served + 1, reply := some .busError } }

/-- R85: "An aligned 32-bit read of a reserved offset (0x020..0x0FF, 0x3C0..0xFFF) returns 0", and a write there is
ignored, in every state, busy or not; neither is a bus error. -/
def Obligations.ReservedOffsetsReadZeroAndIgnoreWrites : Prop :=
  ∀ (s : State) (v : Word) (off : Nat), off % 4 = 0 →
    ((0x020 ≤ off ∧ off < 0x100) ∨ (0x3C0 ≤ off ∧ off < 0x1000)) →
    serve ⟨.read, .bits32, off⟩ s =
        { s with port := { s.port with served := s.port.served + 1, reply := some (.data 0) } } ∧
      serve ⟨.write v, .bits32, off⟩ s =
        { s with port := { s.port with served := s.port.served + 1, reply := some .written } }

/-- R82, R87, R89: a word written to an X or curve register while BUSY = 0 reads back, and every other word of the window
reads as before, the other words of the same register among them. -/
def Obligations.RegisterWordReadsBack : Prop :=
  ∀ (s : State) (v : Word) (off : Nat), s.status.busy = false → off % 4 = 0 → 0x100 ≤ off → off < 0x3C0 →
    memRead off (memWrite off v s) = v ∧
      ∀ off', off' ≠ off → off' % 4 = 0 → off' < 0x1000 → memRead off' (memWrite off v s) = memRead off' s

/-- R82: a 256-bit register is the sum of its eight words, the least significant at the lowest offset; a write of one
word while BUSY = 0 changes the 32 bits it names and no other bit of the register. -/
def Obligations.RegisterIsTheSumOfItsWords : Prop :=
  ∀ s : State,
    (∀ i : XIdx, (s.regs.x[i.val]).toNat =
      ∑ j : Fin 8, (memRead (0x100 + 0x20 * i.val + 4 * j.val) s).toNat * 2 ^ (32 * j.val)) ∧
    (∀ c : CurveReg,
      (s.regs.curve c).toNat = ∑ j : Fin 8, (memRead (offCurve c + 4 * j.val) s).toNat * 2 ^ (32 * j.val)) ∧
    (s.status.busy = false → ∀ (v : Word) (j : Fin 8) (n : Nat),
      let word : Val → Bool := fun old =>
        if 32 * j.val ≤ n ∧ n < 32 * j.val + 32 then v.getLsbD (n - 32 * j.val) else old.getLsbD n
      (∀ i : XIdx, ((memWrite (0x100 + 0x20 * i.val + 4 * j.val) v s).regs.x[i.val]).getLsbD n = word (s.regs.x[i.val])) ∧
      ∀ c : CurveReg, ((memWrite (offCurve c + 4 * j.val) v s).regs.curve c).getLsbD n = word (s.regs.curve c))

/-- R83: byte lane l of a bus word is its bits [8l+7 : 8l], and byte n of a 256-bit register, counted from its base offset,
is bits [8n+7 : 8n] of its value. -/
def Obligations.RegisterBytesAreLittleEndian : Prop :=
  ∀ (s : State) (j : Fin 8) (l : Fin 4),
    (∀ (w : Word) (b : Fin 8), (lane w l).getLsbD b.val = w.getLsbD (8 * l.val + b.val)) ∧
    (∀ i : XIdx,
      lane (memRead (0x100 + 0x20 * i.val + 4 * j.val) s) l = (s.regs.x[i.val]).extractLsb' (8 * (4 * j.val + l.val)) 8) ∧
    ∀ c : CurveReg, lane (memRead (offCurve c + 4 * j.val) s) l = (s.regs.curve c).extractLsb' (8 * (4 * j.val + l.val)) 8

/-- R41, R87, R312: a host write to STATUS clears DONE, ERR with ERRCODE, and WERR where it writes 1, at any time, and
touches nothing else. -/
def Obligations.StatusIsWriteOneToClear : Prop :=
  ∀ (s : State) (v : Word),
    serve ⟨.write v, .bits32, 0x00C⟩ s =
      { s with
        status :=
          { busy := s.status.busy
            done := if v.getLsbD 1 = true then false else s.status.done
            err := if v.getLsbD 2 = true then false else s.status.err
            werr := if v.getLsbD 3 = true then false else s.status.werr
            errcode := if v.getLsbD 2 = true then none else s.status.errcode }
        port := { s.port with served := s.port.served + 1, reply := some .written } }

/-- R33, R39, R41, R42, R303: the layout of STATUS with the numbers of the error codes, and of IE, FLAGS and PINF, as the
host reads them; reserved bits read 0. -/
def Obligations.StatusWordsHaveTheirLayout : Prop :=
  ∀ s : State,
    memRead 0x00C s &&& 0xFFFFF0F0 = 0 ∧ (memRead 0x00C s).getLsbD 0 = s.status.busy ∧
    (memRead 0x00C s).getLsbD 1 = s.status.done ∧ (memRead 0x00C s).getLsbD 2 = s.status.err ∧
    (memRead 0x00C s).getLsbD 3 = s.status.werr ∧ (memRead 0x00C s).extractLsb' 8 4 =
      (match s.status.errcode with
        | none => 0
        | some .illegal => 1
        | some .badmod => 2
        | some .range => 3
        | some .noinv => 4
        | some .nosqrt => 5
        | some .notonc => 6
        | some .scalar => 7) ∧
    memRead 0x010 s &&& 0xFFFFFFF8 = 0 ∧ (memRead 0x010 s).getLsbD 0 = s.ie.doneIe ∧
    (memRead 0x010 s).getLsbD 1 = s.ie.errIe ∧ (memRead 0x010 s).getLsbD 2 = s.ie.werrIe ∧
    memRead 0x014 s &&& 0xFFFFFFE0 = 0 ∧
    (memRead 0x014 s).getLsbD 0 = s.flags.z ∧ (memRead 0x014 s).getLsbD 1 = s.flags.odd ∧
    (memRead 0x014 s).getLsbD 2 = s.flags.qr ∧ (memRead 0x014 s).getLsbD 3 = s.flags.eq ∧
    (memRead 0x014 s).getLsbD 4 = s.flags.onc ∧ memRead 0x01C s &&& 0xFFFFFF00 = 0 ∧
    ∀ k : PIdx, (memRead 0x01C s).getLsbD k.val = s.regs.pinf.getLsbD k.val

/-- R39, R42, R43, R44, R45, R33: what the control registers do with a host write while BUSY = 0: ID, FLAGS and ERRCMD
ignore it, CTRL ignores a word whose bit 0 is 0, IE and PINF keep their low bits and nothing else changes. -/
def Obligations.ControlRegisterWrites : Prop :=
  ∀ (s : State) (v : Word),
    memRead 0x000 s = 0x45434301 ∧ memRead 0x004 s = 0 ∧
    memWrite 0x000 v s = s ∧ memWrite 0x014 v s = s ∧ memWrite 0x018 v s = s ∧
    (v.getLsbD 0 = false → memWrite 0x004 v s = s) ∧
    (memRead 0x010 (memWrite 0x010 v s) = v &&& 7 ∧ { memWrite 0x010 v s with ie := s.ie } = s) ∧
    (s.status.busy = false → memRead 0x01C (memWrite 0x01C v s) = v &&& 0xFF ∧
      ∃ b, memWrite 0x01C v s = { s with regs := { s.regs with pinf := b } })

/-! ### Point views (10_state.md) -/

/-- R34, R35, R36: a view is read from its tag and its two X registers; a point written to view k sets or clears PINF[k]
and writes X[2k] and X[2k+1] (0 for INF), so that a point whose coordinates fit the registers reads back; no other bit of
PINF, X register or curve register changes. -/
def Obligations.PointViewWrite : Prop :=
  ∀ (r : Regs) (k : PIdx) (u : Point),
    let t := r.setView k u
    (r.pinf.getLsbD k.val = true → r.view k = .inf) ∧
    (r.pinf.getLsbD k.val = false → r.view k = .aff (r.x[2 * k.val]).toNat (r.x[2 * k.val + 1]).toNat) ∧
    (u = .inf → t.pinf.getLsbD k.val = true ∧ t.x[2 * k.val] = 0 ∧ t.x[2 * k.val + 1] = 0) ∧
    (∀ x y : Val, u = .aff x.toNat y.toNat →
      t.pinf.getLsbD k.val = false ∧ t.x[2 * k.val] = x ∧ t.x[2 * k.val + 1] = y ∧ t.view k = u) ∧
    (∀ k' : PIdx, k' ≠ k → t.pinf.getLsbD k'.val = r.pinf.getLsbD k'.val ∧ t.view k' = r.view k') ∧
    (∀ j : XIdx, j.val ≠ 2 * k.val → j.val ≠ 2 * k.val + 1 → t.x[j.val] = r.x[j.val]) ∧
    ∀ c : CurveReg, t.curve c = r.curve c

/-! ### Commands -/

/-- R280, R302: NOP completes in every state and writes no register, PINF bit or flag; its one word is 0, and a word with
OP = 0x00 and any other bit set is ILLEGAL. -/
def Obligations.NopCompletes : Prop :=
  (∀ s : State, exec .nop s = .next (okDone s.regs s.flags s)) ∧
    ∀ w : Word, w.extractLsb' 0 6 = 0 → (decode w = .ok .nop ↔ w = 0) ∧ (w ≠ 0 → ∃ e, decode w = .error e)

/-- R150 to R155: FADD, FSUB and FMUL: BADMOD, then RANGE, then the exact residue in X[RD] with Z and ODD. -/
def Obligations.AddSubMulResults : Prop :=
  ∀ (ms : Bool) (rd ra rb : XIdx) (s : State),
    let m := s.operands.modulus ms
    let a := s.operands.xNat ra
    let b := s.operands.xNat rb
    (∀ i ∈ [Instr.fadd ms rd ra rb, .fsub ms rd ra rb, .fmul ms rd ra rb],
      (¬ModValid m → exec i s = .next (faultDone .badmod s)) ∧
      (ModValid m → ¬(a < m ∧ b < m) → exec i s = .next (faultDone .range s))) ∧
    (ModValid m → a < m → b < m →
      exec (.fadd ms rd ra rb) s = .next (fieldDone rd ((a + b) % m) s) ∧
      exec (.fsub ms rd ra rb) s = .next (fieldDone rd ((a + m - b) % m) s) ∧
      exec (.fmul ms rd ra rb) s = .next (fieldDone rd (a * b % m) s))

/-- R156: FDIV: BADMOD, then RANGE, then NOINV where gcd(b, m) ≠ 1, then the quotient: the residue r with r·b ≡ a. -/
def Obligations.FdivResult : Prop :=
  ∀ (ms : Bool) (rd ra rb : XIdx) (s : State),
    let m := s.operands.modulus ms
    let a := s.operands.xNat ra
    let b := s.operands.xNat rb
    (¬ModValid m → exec (.fdiv ms rd ra rb) s = .next (faultDone .badmod s)) ∧
    (ModValid m → ¬(a < m ∧ b < m) → exec (.fdiv ms rd ra rb) s = .next (faultDone .range s)) ∧
    (ModValid m → a < m → b < m → Nat.gcd b m ≠ 1 → exec (.fdiv ms rd ra rb) s = .next (faultDone .noinv s)) ∧
    (ModValid m → a < m → b < m → Nat.gcd b m = 1 →
      ∃ r, r < m ∧ r * b % m = a ∧ exec (.fdiv ms rd ra rb) s = .next (fieldDone rd r s))

/-- R124, R157: FPOW: BADMOD, then RANGE on the base only, then a^(e mod (m-1)) mod m, e unsigned for SE = 0 and two's
complement for SE = 1. -/
def Obligations.FpowResult : Prop :=
  ∀ (ms se : Bool) (rd ra rb : XIdx) (s : State),
    let m := s.operands.modulus ms
    let a := s.operands.xNat ra
    let v := s.operands.xNat rb
    let e : Int := if se = true ∧ 2 ^ 255 ≤ v then (v : Int) - 2 ^ 256 else v
    (¬ModValid m → exec (.fpow ms se rd ra rb) s = .next (faultDone .badmod s)) ∧
    (ModValid m → ¬a < m → exec (.fpow ms se rd ra rb) s = .next (faultDone .range s)) ∧
    (ModValid m → a < m →
      exec (.fpow ms se rd ra rb) s = .next (fieldDone rd (a ^ (e % ((m : Int) - 1)).toNat % m) s))

/-- R158: FNEG: BADMOD, then RANGE, then 0 for a = 0 and m - a otherwise. -/
def Obligations.FnegResult : Prop :=
  ∀ (ms : Bool) (rd ra : XIdx) (s : State),
    let m := s.operands.modulus ms
    let a := s.operands.xNat ra
    (¬ModValid m → exec (.fneg ms rd ra) s = .next (faultDone .badmod s)) ∧
    (ModValid m → ¬a < m → exec (.fneg ms rd ra) s = .next (faultDone .range s)) ∧
    (ModValid m → a < m → exec (.fneg ms rd ra) s = .next (fieldDone rd (if a = 0 then 0 else m - a) s))

/-- R159, R163: FINV: BADMOD, then RANGE, then NOINV where gcd(a, m) ≠ 1, then "the unique u in [1, m-1] with
(a·u) mod m = 1". -/
def Obligations.FinvResult : Prop :=
  ∀ (ms : Bool) (rd ra : XIdx) (s : State),
    let m := s.operands.modulus ms
    let a := s.operands.xNat ra
    (¬ModValid m → exec (.finv ms rd ra) s = .next (faultDone .badmod s)) ∧
    (ModValid m → ¬a < m → exec (.finv ms rd ra) s = .next (faultDone .range s)) ∧
    (ModValid m → a < m → Nat.gcd a m ≠ 1 → exec (.finv ms rd ra) s = .next (faultDone .noinv s)) ∧
    (ModValid m → a < m → Nat.gcd a m = 1 →
      ∃ u, 1 ≤ u ∧ u < m ∧ a * u % m = 1 ∧ (∀ y, y < m → a * y % m = 1 → y = u) ∧
        exec (.finv ms rd ra) s = .next (fieldDone rd u s))

/-- R160 for m ≡ 3 (mod 4), with the checks of every FSQRT: BADMOD, then RANGE, then a^((m+1)/4) mod m with QR telling
whether it squares back; no residue test, no fault. -/
def Obligations.FsqrtResultFor3Mod4 : Prop :=
  ∀ (ms : Bool) (rd ra : XIdx) (s : State),
    let m := s.operands.modulus ms
    let a := s.operands.xNat ra
    let r := a ^ ((m + 1) / 4) % m
    (¬ModValid m → exec (.fsqrt ms rd ra) s = .next (faultDone .badmod s)) ∧
    (ModValid m → ¬a < m → exec (.fsqrt ms rd ra) s = .next (faultDone .range s)) ∧
    (m % 4 = 3 → a < m → exec (.fsqrt ms rd ra) s = .next (sqrtDone rd r (decide (r * r % m = a)) s))

/-- R160, R161 for m ≡ 1 (mod 4), prime or not: NOSQRT, or a root that squares to a, with QR = 1; 0 for a = 0; NOSQRT for
an a ≠ 0 that fails Euler's criterion, and for every a ≠ 0 where no z in [2, m-1] is a non-residue. Which of the two
roots, and which outcome for every other a of a composite m, are those of R161's procedure, written out as
`tonelliShanks`. -/
def Obligations.FsqrtResultFor1Mod4SquaresBack : Prop :=
  ∀ (ms : Bool) (rd ra : XIdx) (s : State),
    let m := s.operands.modulus ms
    let a := s.operands.xNat ra
    m % 4 = 1 → ModValid m → a < m →
      ((exec (.fsqrt ms rd ra) s = .next (faultDone .nosqrt s) ∧ a ≠ 0) ∨
        ∃ r, r < m ∧ r * r % m = a ∧ exec (.fsqrt ms rd ra) s = .next (sqrtDone rd r true s)) ∧
      (a = 0 → exec (.fsqrt ms rd ra) s = .next (sqrtDone rd 0 true s)) ∧
      (a ≠ 0 → a ^ ((m - 1) / 2) % m ≠ 1 → exec (.fsqrt ms rd ra) s = .next (faultDone .nosqrt s)) ∧
      (a ≠ 0 → (∀ z, 2 ≤ z → z < m → z ^ ((m - 1) / 2) % m ≠ m - 1) →
        exec (.fsqrt ms rd ra) s = .next (faultDone .nosqrt s)) ∧
      (∀ r, tonelliShanks a m = some r → exec (.fsqrt ms rd ra) s = .next (sqrtDone rd r true s)) ∧
      (tonelliShanks a m = none → exec (.fsqrt ms rd ra) s = .next (faultDone .nosqrt s))

/-- R160, R161 for a prime m ≡ 1 (mod 4): Tonelli–Shanks finds a root of every square and faults with NOSQRT on every
non-residue. -/
def Obligations.FsqrtDecidesSquaresOfPrimeFields : Prop :=
  ∀ (ms : Bool) (rd ra : XIdx) (s : State),
    let m := s.operands.modulus ms
    let a := s.operands.xNat ra
    m.Prime → m % 4 = 1 → a < m →
      ((∃ y, y * y % m = a) →
        ∃ r, r < m ∧ r * r % m = a ∧ exec (.fsqrt ms rd ra) s = .next (sqrtDone rd r true s)) ∧
      (¬(∃ y, y * y % m = a) → exec (.fsqrt ms rd ra) s = .next (faultDone .nosqrt s))

/-- R160 for a prime m ≡ 3 (mod 4): QR is 1 exactly for the squares, and the result of a non-residue squares to m - a. -/
def Obligations.FsqrtQrFlagMarksSquares : Prop :=
  ∀ (ms : Bool) (rd ra : XIdx) (s : State),
    let m := s.operands.modulus ms
    let a := s.operands.xNat ra
    m.Prime → m % 4 = 3 → a < m →
      ∃ r qr, r < m ∧ exec (.fsqrt ms rd ra) s = .next (sqrtDone rd r qr s) ∧
        (qr = true ↔ ∃ y, y * y % m = a) ∧ (qr = false → r * r % m = m - a)

/-- R200, R201: MMUL: BADMOD, then RANGE, then the Montgomery product a·b·R⁻¹ mod m, R = 2^256. -/
def Obligations.MmulResult : Prop :=
  ∀ (ms : Bool) (rd ra rb : XIdx) (s : State),
    let m := s.operands.modulus ms
    let a := s.operands.xNat ra
    let b := s.operands.xNat rb
    (¬ModValid m → exec (.mmul ms rd ra rb) s = .next (faultDone .badmod s)) ∧
    (ModValid m → ¬(a < m ∧ b < m) → exec (.mmul ms rd ra rb) s = .next (faultDone .range s)) ∧
    (ModValid m → a < m → b < m →
      ∃ r, r < m ∧ r * 2 ^ 256 % m = a * b % m ∧ exec (.mmul ms rd ra rb) s = .next (fieldDone rd r s))

/-- R202: BRED: BADMOD, then the 512-bit value {X[RA], X[RB]} modulo m; neither half is range-checked. -/
def Obligations.BredResult : Prop :=
  ∀ (ms : Bool) (rd rhi rlo : XIdx) (s : State),
    let m := s.operands.modulus ms
    (¬ModValid m → exec (.bred ms rd rhi rlo) s = .next (faultDone .badmod s)) ∧
    (ModValid m → exec (.bred ms rd rhi rlo) s =
      .next (fieldDone rd ((s.operands.x[rhi.val] ++ s.operands.x[rlo.val]).toNat % m) s))

/-- R220, R221, R304: the checks of the point and scalar commands in their order: BADMOD on P, then (PUBK) on N; RANGE on
A and B; RANGE on the coordinates of every point operand; NOTONC. PCHK makes the first three. -/
def Obligations.PointCommandsCheckInOrder : Prop :=
  ∀ (i : Instr) (s : State), usesCurve i = true →
    let r := s.operands
    (¬ModValid r.p.toNat → exec i s = .next (faultDone .badmod s)) ∧
    (ModValid r.p.toNat → (∃ rd rb, i = .pubk rd rb) → ¬ModValid r.n.toNat → exec i s = .next (faultDone .badmod s)) ∧
    (ModValid r.p.toNat → ((∃ rd rb, i = .pubk rd rb) → ModValid r.n.toNat) →
      (¬(r.a.toNat < r.p.toNat ∧ r.b.toNat < r.p.toNat) → exec i s = .next (faultDone .range s)) ∧
      (r.a.toNat < r.p.toNat → r.b.toNat < r.p.toNat →
        ((∃ x y, .aff x y ∈ pointOperands i r ∧ ¬(x < r.p.toNat ∧ y < r.p.toNat)) →
          exec i s = .next (faultDone .range s)) ∧
        ((∀ x y, .aff x y ∈ pointOperands i r → x < r.p.toNat ∧ y < r.p.toNat) →
          (∃ u ∈ pointOperands i r, ¬ValidPoint r u) → exec i s = .next (faultDone .notonc s))))

/-- R223, R225, R226: PADD of valid operands: the sum of R223 in view RD with Z and ODD, or NOINV where the division of
R223 cannot be made. -/
def Obligations.PaddResult : Prop :=
  ∀ (rd ra rb : PIdx) (s : State),
    let r := s.operands
    ValidCurve r → ValidPoint r (r.view ra) → ValidPoint r (r.view rb) →
      (SumDefined r.p.toNat (r.view ra) (r.view rb) →
        ∃ w, IsSum r.p.toNat r.a.toNat (r.view ra) (r.view rb) w ∧ exec (.padd rd ra rb) s = .next (pointDone rd w s)) ∧
      (¬SumDefined r.p.toNat (r.view ra) (r.view rb) → exec (.padd rd ra rb) s = .next (faultDone .noinv s))

/-- R223, R225, R227: PDBL of a valid operand: the double in view RD, or NOINV. -/
def Obligations.PdblResult : Prop :=
  ∀ (rd ra : PIdx) (s : State),
    let r := s.operands
    ValidCurve r → ValidPoint r (r.view ra) →
      (SumDefined r.p.toNat (r.view ra) (r.view ra) →
        ∃ w, IsSum r.p.toNat r.a.toNat (r.view ra) (r.view ra) w ∧ exec (.pdbl rd ra) s = .next (pointDone rd w s)) ∧
      (¬SumDefined r.p.toNat (r.view ra) (r.view ra) → exec (.pdbl rd ra) s = .next (faultDone .noinv s))

/-- R224, R225, R228: PNEG of a valid operand: INF for INF, and (x, P - y) for (x, y), with y = 0 kept; for y ≠ 0 the
result's ODD is the inverse of y[0]. -/
def Obligations.PnegResult : Prop :=
  ∀ (rd ra : PIdx) (s : State),
    let r := s.operands
    ValidCurve r → ValidPoint r (r.view ra) →
      (r.view ra = .inf → exec (.pneg rd ra) s = .next (infDone rd s)) ∧
      (∀ x, r.view ra = .aff x 0 → exec (.pneg rd ra) s = .next (affDone rd x 0 s)) ∧
      (∀ x y, r.view ra = .aff x y → y ≠ 0 →
        exec (.pneg rd ra) s = .next (affDone rd x (r.p.toNat - y) s) ∧
          (affDone rd x (r.p.toNat - y) s).flags.odd = !decide (y % 2 = 1))

/-- R224, R225, R229: PSUB of valid operands: the sum of pA and the negation of pB, or NOINV. -/
def Obligations.PsubResult : Prop :=
  ∀ (rd ra rb : PIdx) (s : State),
    let r := s.operands
    let v := negPoint r.p.toNat (r.view rb)
    ValidCurve r → ValidPoint r (r.view ra) → ValidPoint r (r.view rb) →
      ((r.view rb = .inf → v = .inf) ∧ (∀ x y, r.view rb = .aff x y → v = .aff x (if y = 0 then 0 else r.p.toNat - y))) ∧
      (SumDefined r.p.toNat (r.view ra) v →
        ∃ w, IsSum r.p.toNat r.a.toNat (r.view ra) v w ∧ exec (.psub rd ra rb) s = .next (pointDone rd w s)) ∧
      (¬SumDefined r.p.toNat (r.view ra) v → exec (.psub rd ra rb) s = .next (faultDone .noinv s))

/-- R12, R34, R230: PEQ completes in every state, with no check, and writes EQ alone: both tags set, or both clear and the
coordinates equal. -/
def Obligations.PeqResult : Prop :=
  ∀ (ra rb : PIdx) (s : State),
    let r := s.operands
    ∃ e, exec (.peq ra rb) s = .next (okDone s.regs { s.flags with eq := e } s) ∧
      (e = true ↔
        (r.pinf.getLsbD ra.val = true ∧ r.pinf.getLsbD rb.val = true) ∨
        (r.pinf.getLsbD ra.val = false ∧ r.pinf.getLsbD rb.val = false ∧
          r.x[2 * ra.val] = r.x[2 * rb.val] ∧ r.x[2 * ra.val + 1] = r.x[2 * rb.val + 1]))

/-- R222, R231: PCHK with valid curve registers completes and writes ONC alone: whether the operand is INF or has
coordinates below P that satisfy the curve equation. -/
def Obligations.PchkResult : Prop :=
  ∀ (ra : PIdx) (s : State),
    let r := s.operands
    ValidCurve r →
      ∃ c, exec (.pchk ra) s = .next (okDone s.regs { s.flags with onc := c } s) ∧ (c = true ↔ ValidPoint r (r.view ra))

/-- R260, R262: SMUL of valid operands: double-and-add in view RD, or NOINV; never NOINV for a prime P > 3; INF for k = 0
and U for k = 1 there. -/
def Obligations.SmulResult : Prop :=
  ∀ (rd ra : PIdx) (rb : XIdx) (s : State),
    let r := s.operands
    let u := r.view ra
    let k := r.xNat rb
    ValidCurve r → ValidPoint r u →
      (∀ w, smul r.p.toNat r.a.toNat u k = .ok w → exec (.smul rd ra rb) s = .next (pointDone rd w s)) ∧
      (∀ c, smul r.p.toNat r.a.toNat u k = .error c → c = .noinv ∧ exec (.smul rd ra rb) s = .next (faultDone .noinv s)) ∧
      (r.p.toNat.Prime → 3 < r.p.toNat →
        ∃ w, ValidPoint r w ∧ exec (.smul rd ra rb) s = .next (pointDone rd w s) ∧ (k = 0 → w = .inf) ∧ (k = 1 → w = u))

/-- R263: PUBK with a valid curve, a valid N and a valid generator: SCALAR for k = 0 and k ≥ N, otherwise SMul(G, k) in
view RD, or NOINV; never NOINV for a prime P > 3. -/
def Obligations.PubkResult : Prop :=
  ∀ (rd : PIdx) (rb : XIdx) (s : State),
    let r := s.operands
    let g := Point.aff r.gx.toNat r.gy.toNat
    let k := r.xNat rb
    ValidCurve r → ModValid r.n.toNat → ValidPoint r g →
      (k = 0 ∨ r.n.toNat ≤ k → exec (.pubk rd rb) s = .next (faultDone .scalar s)) ∧
      (0 < k → k < r.n.toNat →
        (∀ w, smul r.p.toNat r.a.toNat g k = .ok w → exec (.pubk rd rb) s = .next (pointDone rd w s)) ∧
        (∀ c, smul r.p.toNat r.a.toNat g k = .error c → c = .noinv ∧ exec (.pubk rd rb) s = .next (faultDone .noinv s)) ∧
        (r.p.toNat.Prime → 3 < r.p.toNat →
          ∃ w, ValidPoint r w ∧ smul r.p.toNat r.a.toNat g k = .ok w ∧ exec (.pubk rd rb) s = .next (pointDone rd w s)))

/-! ### Frames -/

/-- R32, R35, R36, R37: a completing command changes no X register but its destination (both coordinates of a destination
view), no PINF bit but a destination view's (a field result leaves PINF alone), and no curve register. -/
def Obligations.OperandRegisterFrame : Prop :=
  ∀ (i : Instr) (s t : State), exec i s = .next t →
    (∀ j : XIdx, fieldDest i ≠ some j →
      (∀ k, pointDest i = some k → j.val ≠ 2 * k.val ∧ j.val ≠ 2 * k.val + 1) → t.regs.x[j.val] = s.regs.x[j.val]) ∧
    (∀ k : PIdx, pointDest i ≠ some k → t.regs.pinf.getLsbD k.val = s.regs.pinf.getLsbD k.val) ∧
    (∀ c : CurveReg, t.regs.curve c = s.regs.curve c)

/-- R39: each flag is written only by the commands of its row, and none by a command that faults. -/
def Obligations.FlagFrame : Prop :=
  ∀ (i : Instr) (s t : State), exec i s = .next t →
    (fieldDest i = none → pointDest i = none → t.flags.z = s.flags.z ∧ t.flags.odd = s.flags.odd) ∧
    ((∀ ms rd ra, i ≠ .fsqrt ms rd ra) → t.flags.qr = s.flags.qr) ∧
    ((∀ ra rb, i ≠ .peq ra rb) → t.flags.eq = s.flags.eq) ∧
    ((∀ ra, i ≠ .pchk ra) → t.flags.onc = s.flags.onc) ∧
    (t.errcmd ≠ s.errcmd → t.flags = s.flags)

/-- R40, R42, R43, R46: no command changes CMD, IE, WERR or the host port; every command sets DONE, clears BUSY and leaves
no command pending; ERRCMD changes only at a fault, to the command's word. -/
def Obligations.ControlRegisterFrame : Prop :=
  ∀ (i : Instr) (s t : State), exec i s = .next t →
    t.cmd = s.cmd ∧ t.ie = s.ie ∧ t.status.werr = s.status.werr ∧ t.port = s.port ∧ t.status.done = true ∧
      t.status.busy = false ∧ t.pending = .idle ∧ (t.errcmd = s.errcmd ∨ (t.errcmd = s.word ∧ t.status.err = true))

/-- R81, R86: over the whole window: every word outside STATUS, FLAGS, ERRCMD, PINF and the destination's registers reads
after a command as it read before. -/
def Obligations.WindowFrame : Prop :=
  ∀ (i : Instr) (s t : State) (off : Nat), exec i s = .next t → off % 4 = 0 → off < 0x1000 →
    off ∉ [0x00C, 0x014, 0x018, 0x01C] →
    (∀ j, fieldDest i = some j → ¬(offX j ≤ off ∧ off < offX j + 0x20)) →
    (∀ k, pointDest i = some k → ¬(0x100 + 0x40 * k.val ≤ off ∧ off < 0x100 + 0x40 * k.val + 0x40)) →
    memRead off t = memRead off s

/-- R38, R354: a command's outcome depends on the snapshot only through the registers its row of R354 lists: two snapshots
that agree there give the same next state, whatever else they hold. -/
def Obligations.CommandReadsOnlyItsRegisters : Prop :=
  ∀ (i : Instr) (s : State) (w : Word) (r r' : Regs), SameReads i r r' →
    exec i { s with pending := .pending w r } = exec i { s with pending := .pending w r' }

/-! ### The arithmetic behind the commands -/

/-- R204: the Barrett algorithm gives v mod m for every v < 2^512 and every m in [3, 2^256 - 1]. -/
def Obligations.BarrettAlgorithmReduces : Prop :=
  ∀ v m : Nat, v < 2 ^ 512 → 3 ≤ m → m < 2 ^ 256 → barrettReduce v m = v % m

/-- R205: the REDC algorithm gives T·Rinv(m) mod m for every T < m·R and every valid m below 2^256. -/
def Obligations.RedcAlgorithmIsMontgomeryReduction : Prop :=
  ∀ t m : Nat, ModValid m → m < 2 ^ 256 → t < m * montR → montRedc t m = t * montRinv m % m

/-- R203: FMUL's residue is what either engine gives: the Barrett reducer on the product, and the Montgomery multiplier with
the correction by R² mod m. -/
def Obligations.FmulAgreesWithBothEngines : Prop :=
  ∀ a b m : Nat, ModValid m → m < 2 ^ 256 → a < m → b < m →
    barrettReduce (a * b) m = a * b % m ∧ montRedc (montRedc (a * b) m * (montR * montR % m)) m = a * b % m

/-- R232: for a prime P > 3, valid curve registers and validated operands: the group law is closed, has INF as identity
and Neg as inverse, and never faults. -/
def Obligations.GroupLawProperties : Prop :=
  ∀ (r : Regs) (u v : Point), r.p.toNat.Prime → 3 < r.p.toNat → ValidCurve r → ValidPoint r u → ValidPoint r v →
    (∃ w, addPoints r.p.toNat r.a.toNat u v = .ok w ∧ ValidPoint r w) ∧
    addPoints r.p.toNat r.a.toNat u .inf = .ok u ∧ addPoints r.p.toNat r.a.toNat .inf u = .ok u ∧
    ValidPoint r (negPoint r.p.toNat u) ∧ addPoints r.p.toNat r.a.toNat u (negPoint r.p.toNat u) = .ok .inf

/-- R261, R264: for a prime P > 3 and a validated U: SMul(U, 2) = Add(U, U); SMul(U, j + k) = Add(SMul(U, j), SMul(U, k)),
and none of them faults; the loop may as well run over all 256 bits. -/
def Obligations.ScalarMultiplicationIsAdditive : Prop :=
  ∀ (r : Regs) (u : Point) (j k : Nat), r.p.toNat.Prime → 3 < r.p.toNat → ValidCurve r → ValidPoint r u →
    smul r.p.toNat r.a.toNat u 2 = addPoints r.p.toNat r.a.toNat u u ∧
    (∃ uj uk w, smul r.p.toNat r.a.toNat u j = .ok uj ∧ smul r.p.toNat r.a.toNat u k = .ok uk ∧
      smul r.p.toNat r.a.toNat u (j + k) = .ok w ∧ addPoints r.p.toNat r.a.toNat uj uk = .ok w) ∧
    (k < 2 ^ 256 → smulLoop r.p.toNat r.a.toNat 256 k .inf u = smul r.p.toNat r.a.toNat u k)
end

