-- ==== Sys2Proof/Laws/Arith.lean ====
section
/-! SUPPORT. Sys2Proof/Laws/Arith.lean: one specification lemma for each operation of Machine/Arith.lean. -/

namespace Sys2Proof.Machine

/-! ### The Euclidean remainder -/

theorem emod_cast (z : Int) {m : Nat} (hm : 0 < m) : ((emod z m : Nat) : Int) = z % (m : Int) :=
  Int.toNat_of_nonneg (Int.emod_nonneg z (by omega))

theorem emod_lt (z : Int) {m : Nat} (hm : 0 < m) : emod z m < m := by
  have h := emod_cast z hm
  have := Int.emod_lt_of_pos z (by omega : (0 : Int) < m)
  omega

@[simp] theorem emod_natCast (a m : Nat) : emod (a : Int) m = a % m := by
  unfold emod
  rw [← Int.natCast_mod]
  rfl

theorem emod_zmod (z : Int) {m : Nat} (hm : 0 < m) : ((emod z m : Nat) : ZMod m) = (z : ZMod m) := by
  have h := emod_cast z hm
  have h2 : (((emod z m : Nat) : Int) : ZMod m) = ((z % (m : Int) : Int) : ZMod m) := by rw [h]
  rw [ZMod.intCast_mod] at h2
  simpa using h2

/-- Equal residues are equal numbers once both lie below the modulus. -/
theorem eq_of_zmod_eq {m a b : Nat} (ha : a < m) (hb : b < m) (h : (a : ZMod m) = (b : ZMod m)) : a = b := by
  have := (ZMod.natCast_eq_natCast_iff a b m).1 h
  unfold Nat.ModEq at this
  rwa [Nat.mod_eq_of_lt ha, Nat.mod_eq_of_lt hb] at this

/-! ### Bit length and powers -/

theorem lt_two_pow_bitlen (k : Nat) : k < 2 ^ bitlen k := by
  unfold bitlen
  split
  · simp_all
  · exact Nat.lt_log2_self

@[simp] theorem bitlen_zero : bitlen 0 = 0 := rfl

theorem bitlen_half (k : Nat) (hk : k ≠ 0) : bitlen k = bitlen (k / 2) + 1 := by
  unfold bitlen
  rw [if_neg hk]
  by_cases h2 : k / 2 = 0
  · have : k = 1 := by omega
    subst this; rfl
  · rw [if_neg h2, Nat.log2_def k, if_pos (by omega)]

theorem powLoop_spec (m n : Nat) : ∀ acc base e, e < 2 ^ n → powLoop m n acc base e % m = acc * base ^ e % m := by
  induction n with
  | zero => intro acc base e he; have : e = 0 := by simpa using he
            subst this; simp [powLoop]
  | succ n ih =>
    intro acc base e he
    have he2 : e / 2 < 2 ^ n := by rw [pow_succ] at he; omega
    have hpow : base ^ e = (base * base) ^ (e / 2) * base ^ (e % 2) := by
      rw [← pow_two, ← pow_mul, ← pow_add, Nat.div_add_mod]
    have key : ∀ x, x * (base * base % m) ^ (e / 2) % m = x * (base * base) ^ (e / 2) % m := fun x => by
      rw [Nat.mul_mod, ← Nat.pow_mod, ← Nat.mul_mod]
    rw [powLoop, ih _ _ _ he2, key]
    by_cases ho : e % 2 = 1
    · rw [if_pos ho, Nat.mod_mul_mod, hpow, ho, pow_one]
      congr 1; ring
    · have h0 : e % 2 = 0 := by omega
      rw [if_neg ho, hpow, h0, pow_zero, mul_one]

theorem powLoop_lt (m : Nat) (hm : 0 < m) (n : Nat) : ∀ acc base e, acc < m → powLoop m n acc base e < m := by
  induction n with
  | zero => intro acc base e h; exact h
  | succ n ih =>
    intro acc base e h
    rw [powLoop]
    apply ih
    split
    · exact Nat.mod_lt _ hm
    · exact h

theorem powMod_lt (a e : Nat) {m : Nat} (hm : 0 < m) : powMod a e m < m :=
  powLoop_lt m hm _ _ _ _ (Nat.mod_lt _ hm)

/-- R9, R157: `powMod` is the integer power reduced modulo m. -/
theorem powMod_eq (a e : Nat) {m : Nat} (hm : 0 < m) : powMod a e m = a ^ e % m := by
  have h := powLoop_spec m (bitlen e) (1 % m) (a % m) e (lt_two_pow_bitlen e)
  have hl : powLoop m (bitlen e) (1 % m) (a % m) e < m := powMod_lt a e hm
  rw [Nat.mod_eq_of_lt hl, Nat.mod_mul_mod, one_mul, ← Nat.pow_mod] at h
  exact h

theorem powMod_zmod (a e : Nat) {m : Nat} (hm : 0 < m) : ((powMod a e m : Nat) : ZMod m) = (a : ZMod m) ^ e := by
  rw [powMod_eq a e hm]; simp

/-! ### The extended Euclidean loop -/

/-- R163: the loop keeps `s*a ≡ r` for both cofactors and ends at the greatest common divisor. -/
theorem euclidLoop_spec (a m : Int) (n : Nat) : ∀ (r0 r1 : Nat) (s0 s1 : Int), r1 < r0 → r0 * r1 < 2 ^ n →
    m ∣ s0 * a - r0 → m ∣ s1 * a - r1 →
    (euclidLoop n r0 r1 s0 s1).1 = Nat.gcd r0 r1 ∧
      m ∣ (euclidLoop n r0 r1 s0 s1).2 * a - (Nat.gcd r0 r1 : Nat) := by
  induction n with
  | zero =>
    intro r0 r1 s0 s1 hlt hb h0 h1
    have hz : r1 = 0 := by
      have : r0 * r1 = 0 := by simpa using hb
      rcases Nat.mul_eq_zero.1 this with h | h <;> omega
    subst hz
    simpa [euclidLoop] using h0
  | succ n ih =>
    intro r0 r1 s0 s1 hlt hb h0 h1
    rw [euclidLoop]
    by_cases hz : r1 = 0
    · subst hz
      simpa using h0
    · rw [if_neg hz]
      have hmod : r0 - r0 / r1 * r1 = r0 % r1 := by
        have := Nat.div_add_mod' r0 r1; omega
      have hm := Nat.mod_lt r0 (by omega : 0 < r1)
      have hq : 1 ≤ r0 / r1 := (Nat.one_le_div_iff (by omega)).2 hlt.le
      have hdm := Nat.div_add_mod' r0 r1
      have hhalf : 2 * (r0 % r1) < r0 := by nlinarith
      have hb2 : r1 * (r0 % r1) < 2 ^ n := by
        rw [pow_succ] at hb
        nlinarith
      rw [hmod]
      have hs : m ∣ (s0 - (r0 / r1 : Nat) * s1) * a - (r0 % r1 : Nat) := by
        have e : (s0 - (r0 / r1 : Nat) * s1) * a - ((r0 % r1 : Nat) : Int)
            = (s0 * a - r0) - (r0 / r1 : Nat) * (s1 * a - r1) := by
          have : ((r0 : Nat) : Int) = (r0 / r1 : Nat) * r1 + (r0 % r1 : Nat) := by exact_mod_cast hdm.symm
          rw [this]; ring
        rw [e]
        exact dvd_sub h0 (Dvd.dvd.mul_left h1 _)
      have := ih r1 (r0 % r1) s1 _ hm hb2 h1 hs
      rwa [Nat.gcd_comm r1, ← Nat.gcd_rec r1 r0, Nat.gcd_comm r1] at this

theorem invMod_lt (a : Nat) {m : Nat} (hm : 0 < m) : invMod a m < m := emod_lt _ hm

/-- R163: `Inv(a, m)` is an inverse of a. -/
theorem invMod_mul {a m : Nat} (hm : 1 < m) (ha : a < m) (hg : Nat.gcd a m = 1) : a * invMod a m % m = 1 := by
  have hm0 : 0 < m := by omega
  have hb : m * a < 2 ^ (2 * bitlen m) := by
    have := lt_two_pow_bitlen m
    rw [two_mul, pow_add]
    exact Nat.mul_lt_mul'' this (lt_trans ha this)
  have h := (euclidLoop_spec a m (2 * bitlen m) m a 0 1 ha hb (by simp) (by simp)).2
  rw [Nat.gcd_comm, hg] at h
  have h1 : ((euclidLoop (2 * bitlen m) m a 0 1).2 * a : Int) ≡ 1 [ZMOD m] :=
    (Int.modEq_iff_dvd.2 (by simpa using (dvd_neg.2 h))).symm.symm
  have h2 : ((invMod a m : Nat) : Int) = (euclidLoop (2 * bitlen m) m a 0 1).2 % m := emod_cast _ hm0
  have h3 : ((a * invMod a m : Nat) : Int) % m = 1 := by
    push_cast
    rw [h2, Int.mul_emod, Int.emod_emod_of_dvd _ (dvd_refl _), ← Int.mul_emod, mul_comm, h1]
    exact Int.emod_eq_of_lt (by omega) (by omega)
  exact_mod_cast h3

/-- R163: "the unique u in [1, m-1] with (a·u) mod m = 1". -/
theorem invMod_unique {a m u : Nat} (hm : 1 < m) (ha : a < m) (hu : u < m) (h : a * u % m = 1) : invMod a m = u := by
  have hg : Nat.gcd a m = 1 := by
    have hd : Nat.gcd a m ∣ 1 := by
      rw [← h]
      exact (Nat.dvd_mod_iff (Nat.gcd_dvd_right a m)).2 (Dvd.dvd.mul_right (Nat.gcd_dvd_left a m) u)
    exact Nat.dvd_one.1 hd
  have hi := invMod_mul hm ha hg
  have hl := invMod_lt a (by omega : 0 < m)
  have e : a * invMod a m ≡ a * u [MOD m] := by unfold Nat.ModEq; rw [hi, h]
  have e2 := Nat.ModEq.cancel_left_of_coprime (by rwa [Nat.gcd_comm]) e
  unfold Nat.ModEq at e2
  rwa [Nat.mod_eq_of_lt hl, Nat.mod_eq_of_lt hu] at e2

theorem invMod_pos {a m : Nat} (hm : 1 < m) (ha : a < m) (hg : Nat.gcd a m = 1) : 1 ≤ invMod a m := by
  rcases Nat.eq_zero_or_pos (invMod a m) with h | h
  · have := invMod_mul hm ha hg
    rw [h] at this; simp at this
  · exact h

theorem invMod_zmod {a m : Nat} (hm : 1 < m) (ha : a < m) (hg : Nat.gcd a m = 1) :
    (a : ZMod m) * (invMod a m : ZMod m) = 1 := by
  have h := invMod_mul hm ha hg
  have : ((a * invMod a m : Nat) : ZMod m) = ((1 : Nat) : ZMod m) := by
    rw [ZMod.natCast_eq_natCast_iff]
    unfold Nat.ModEq
    rw [h, Nat.mod_eq_of_lt hm]
  simpa using this

/-! ### Searches -/

theorem leastFrom_some {test : Nat → Bool} {n lo z : Nat} (h : leastFrom test n lo = some z) :
    test z = true ∧ lo ≤ z ∧ z < lo + n ∧ ∀ y, lo ≤ y → y < z → test y = false := by
  induction n generalizing lo with
  | zero => simp [leastFrom] at h
  | succ n ih =>
    rw [leastFrom] at h
    by_cases ht : test lo = true
    · rw [if_pos ht] at h
      cases h
      exact ⟨ht, le_refl _, by omega, fun y h1 h2 => by omega⟩
    · rw [if_neg ht] at h
      obtain ⟨a, b, c, d⟩ := ih h
      refine ⟨a, by omega, by omega, fun y h1 h2 => ?_⟩
      rcases Nat.eq_or_lt_of_le h1 with e | e
      · subst e; simpa using ht
      · exact d y e h2

theorem leastFrom_none {test : Nat → Bool} {n lo : Nat} (h : leastFrom test n lo = none) :
    ∀ y, lo ≤ y → y < lo + n → test y = false := by
  induction n generalizing lo with
  | zero => intro y h1 h2; omega
  | succ n ih =>
    rw [leastFrom] at h
    by_cases ht : test lo = true
    · simp [ht] at h
    · rw [if_neg ht] at h
      intro y h1 h2
      rcases Nat.eq_or_lt_of_le h1 with e | e
      · subst e; simpa using ht
      · exact ih h y e (by omega)

/-- R161: `splitTwos` keeps `q * 2^s` and ends with an odd q. -/
theorem splitTwos_spec (n : Nat) : ∀ q s, 0 < q → q < 2 ^ n →
    (splitTwos n q s).1 * 2 ^ (splitTwos n q s).2 = q * 2 ^ s ∧ (splitTwos n q s).1 % 2 = 1 ∧
      s ≤ (splitTwos n q s).2 := by
  induction n with
  | zero => intro q s h1 h2; simp at h2; omega
  | succ n ih =>
    intro q s h1 h2
    rw [splitTwos]
    by_cases he : q % 2 = 0
    · rw [if_pos he]
      rw [pow_succ] at h2
      obtain ⟨a, b, c⟩ := ih (q / 2) (s + 1) (by omega) (by omega)
      refine ⟨?_, b, by omega⟩
      rw [a, pow_succ]
      have : q = q / 2 * 2 := by omega
      nth_rewrite 2 [this]; ring
    · rw [if_neg he]
      exact ⟨rfl, by omega, le_refl _⟩

end Sys2Proof.Machine
end

