-- ==== Sys2Proof/Laws/Decode.lean ====
section
/-! SUPPORT. Sys2Proof/Laws/Decode.lean: the fields of a command word (R121) and the rows of R127 read as tests of fields. -/

namespace Sys2Proof

theorem Fields.ofWord_toWord (f : Fields) : Fields.ofWord f.toWord = f := by
  rcases f with ⟨op, ms, se, rd, ra, rb, rsv⟩
  simp only [Fields.ofWord, Fields.toWord, Fields.mk.injEq]
  refine ⟨?_, ?_, ?_, ?_, ?_, ?_, ?_⟩
  · ext i hi
    rw [BitVec.getElem_extractLsb', BitVec.getLsbD_append]
    simp [hi]
  · rw [BitVec.getLsbD_append, BitVec.getLsbD_append]
    simp
  · rw [BitVec.getLsbD_append, BitVec.getLsbD_append, BitVec.getLsbD_append]
    simp
  · ext i hi
    rw [BitVec.getElem_extractLsb', BitVec.getLsbD_append, BitVec.getLsbD_append, BitVec.getLsbD_append,
      BitVec.getLsbD_append]
    have h1 : ¬ 8 + i < 6 := by omega
    have h2 : ¬ 8 + i - 6 < 1 := by omega
    have h3 : ¬ 8 + i - 6 - 1 < 1 := by omega
    have h4 : 8 + i - 6 - 1 - 1 = i := by omega
    simp [h1, h2, h3, h4, hi]
  · ext i hi
    rw [BitVec.getElem_extractLsb', BitVec.getLsbD_append, BitVec.getLsbD_append, BitVec.getLsbD_append,
      BitVec.getLsbD_append, BitVec.getLsbD_append]
    have h1 : ¬ 12 + i < 6 := by omega
    have h2 : ¬ 12 + i - 6 < 1 := by omega
    have h3 : ¬ 12 + i - 6 - 1 < 1 := by omega
    have h4 : ¬ 12 + i - 6 - 1 - 1 < 4 := by omega
    have h5 : 12 + i - 6 - 1 - 1 - 4 = i := by omega
    simp [h1, h2, h3, h4, h5, hi]
  · ext i hi
    rw [BitVec.getElem_extractLsb', BitVec.getLsbD_append, BitVec.getLsbD_append, BitVec.getLsbD_append,
      BitVec.getLsbD_append, BitVec.getLsbD_append, BitVec.getLsbD_append]
    have h1 : ¬ 16 + i < 6 := by omega
    have h2 : ¬ 16 + i - 6 < 1 := by omega
    have h3 : ¬ 16 + i - 6 - 1 < 1 := by omega
    have h4 : ¬ 16 + i - 6 - 1 - 1 < 4 := by omega
    have h5 : ¬ 16 + i - 6 - 1 - 1 - 4 < 4 := by omega
    have h6 : 16 + i - 6 - 1 - 1 - 4 - 4 = i := by omega
    simp [h1, h2, h3, h4, h5, h6, hi]
  · ext i hi
    rw [BitVec.getElem_extractLsb', BitVec.getLsbD_append, BitVec.getLsbD_append, BitVec.getLsbD_append,
      BitVec.getLsbD_append, BitVec.getLsbD_append, BitVec.getLsbD_append]
    have h1 : ¬ 20 + i < 6 := by omega
    have h2 : ¬ 20 + i - 6 < 1 := by omega
    have h3 : ¬ 20 + i - 6 - 1 < 1 := by omega
    have h4 : ¬ 20 + i - 6 - 1 - 1 < 4 := by omega
    have h5 : ¬ 20 + i - 6 - 1 - 1 - 4 < 4 := by omega
    have h6 : ¬ 20 + i - 6 - 1 - 1 - 4 - 4 < 4 := by omega
    have h7 : 20 + i - 6 - 1 - 1 - 4 - 4 - 4 = i := by omega
    simp [h1, h2, h3, h4, h5, h6, h7, hi]

theorem Fields.toWord_ofWord (w : Word) : (Fields.ofWord w).toWord = w := by
  apply BitVec.eq_of_getLsbD_eq
  intro i hi
  simp only [Fields.ofWord, Fields.toWord]
  rw [BitVec.getLsbD_append, BitVec.getLsbD_append, BitVec.getLsbD_append, BitVec.getLsbD_append,
    BitVec.getLsbD_append, BitVec.getLsbD_append]
  simp only [BitVec.getLsbD_extractLsb', BitVec.getLsbD_ofBool]
  have hit : ∀ (c : Bool) (k : Nat), c = true → k = i → (c && w.getLsbD k) = w.getLsbD i := by
    intro c k hc hk
    rw [hc, hk, Bool.true_and]
  repeat' split
  all_goals exact hit _ _ (decide_eq_true (by omega)) (by omega)

/-- The fields of a bitwise and, field by field. -/
def Fields.and (f g : Fields) : Fields :=
  ⟨f.op &&& g.op, f.ms && g.ms, f.se && g.se, f.rd &&& g.rd, f.ra &&& g.ra, f.rb &&& g.rb, f.rsv &&& g.rsv⟩

theorem Fields.ofWord_and (v w : Word) : Fields.ofWord (v &&& w) = (Fields.ofWord v).and (Fields.ofWord w) := by
  simp [Fields.ofWord, Fields.and, BitVec.extractLsb'_and]

theorem Fields.ofWord_injective {v w : Word} (h : Fields.ofWord v = Fields.ofWord w) : v = w := by
  rw [← Fields.toWord_ofWord v, h, Fields.toWord_ofWord]

/-- R127: a row's match and mask are a test of each field by itself. -/
theorem Op.matches_iff (o : Op) (w : Word) :
    o.Matches w ↔ (Fields.ofWord w).and (Fields.ofWord o.mask) = Fields.ofWord o.fixed := by
  rw [← Fields.ofWord_and]
  exact ⟨fun h => by rw [h], fun h => Fields.ofWord_injective h⟩

/-- R121, R126: an opcode's OP field names it. -/
theorem Op.ofCode_eq_some_iff (c : BitVec 6) (o : Op) : Op.ofCode c = some o ↔ c = o.code := by
  cases o <;> revert c <;> decide

theorem Op.code_injective {o o' : Op} (h : o.code = o'.code) : o = o' := by
  have h1 := (Op.ofCode_eq_some_iff o.code o).2 rfl
  rw [h, (Op.ofCode_eq_some_iff o'.code o').2 rfl] at h1
  exact (Option.some.inj h1).symm

/-- R122, R128: what a row's use of a register field asks of the field. -/
def FieldUse.Admits (u : FieldUse) (v : BitVec 4) : Prop := (u = .unused → v = 0) ∧ (u = .p → v.getLsbD 3 = false)

theorem rsv_mask_iff (v : BitVec 12) (o : Op) :
    v &&& BitVec.extractLsb' 20 12 o.mask = BitVec.extractLsb' 20 12 o.fixed ↔ v = 0 := by
  have h1 : BitVec.extractLsb' 20 12 o.mask = BitVec.allOnes 12 := by cases o <;> decide
  have h2 : BitVec.extractLsb' 20 12 o.fixed = 0#12 := by cases o <;> decide
  rw [h1, h2, BitVec.and_allOnes]
  rfl

/-- R127: a row's match and mask columns say what its field-use columns say. -/
theorem Op.matches_usage_iff (o : Op) (w : Word) :
    o.Matches w ↔
      (Fields.ofWord w).rsv = 0 ∧ (Fields.ofWord w).op = o.code ∧ (o.usage.ms = false → (Fields.ofWord w).ms = false) ∧
        (o.usage.se = false → (Fields.ofWord w).se = false) ∧ o.usage.rd.Admits (Fields.ofWord w).rd ∧
        o.usage.ra.Admits (Fields.ofWord w).ra ∧ o.usage.rb.Admits (Fields.ofWord w).rb := by
  rw [Op.matches_iff]
  generalize Fields.ofWord w = f
  rcases f with ⟨op, ms, se, rd, ra, rb, rsv⟩
  have hop : (op &&& BitVec.extractLsb' 0 6 o.mask = BitVec.extractLsb' 0 6 o.fixed) ↔ op = o.code := by
    cases o <;> revert op <;> decide
  have hms : ((ms && o.mask.getLsbD 6) = o.fixed.getLsbD 6) ↔ (o.usage.ms = false → ms = false) := by
    cases o <;> revert ms <;> decide
  have hse : ((se && o.mask.getLsbD 7) = o.fixed.getLsbD 7) ↔ (o.usage.se = false → se = false) := by
    cases o <;> revert se <;> decide
  have hrd : (rd &&& BitVec.extractLsb' 8 4 o.mask = BitVec.extractLsb' 8 4 o.fixed) ↔ o.usage.rd.Admits rd := by
    unfold FieldUse.Admits; cases o <;> revert rd <;> decide
  have hra : (ra &&& BitVec.extractLsb' 12 4 o.mask = BitVec.extractLsb' 12 4 o.fixed) ↔ o.usage.ra.Admits ra := by
    unfold FieldUse.Admits; cases o <;> revert ra <;> decide
  have hrb : (rb &&& BitVec.extractLsb' 16 4 o.mask = BitVec.extractLsb' 16 4 o.fixed) ↔ o.usage.rb.Admits rb := by
    unfold FieldUse.Admits; cases o <;> revert rb <;> decide
  simp only [Fields.and, Fields.ofWord, Fields.mk.injEq, hop, hms, hse, hrd, hra, hrb, rsv_mask_iff]
  exact ⟨fun ⟨a, b, c, d, e, f, g⟩ => ⟨g, a, b, c, d, e, f⟩, fun ⟨g, a, b, c, d, e, f⟩ => ⟨a, b, c, d, e, f, g⟩⟩

theorem Op.mem_all (o : Op) : o ∈ Op.all := by cases o <;> decide

theorem findOp_matches {w : Word} {o : Op} (h : findOp w = some o) : o.Matches w := by
  simpa using List.find?_some h

theorem findOp_eq_none {w : Word} (h : findOp w = none) (o : Op) : ¬o.Matches w := by
  simpa using List.find?_eq_none.1 h o o.mem_all

@[simp] theorem xIndex_xField (i : XIdx) : xIndex (xField i) = i := by revert i; decide

@[simp] theorem pIndex_pField (i : PIdx) : pIndex (pField i) = i := by revert i; decide

@[simp] theorem xField_xIndex (v : BitVec 4) : xField (xIndex v) = v := by revert v; decide

theorem pField_pIndex {v : BitVec 4} (h : v.getLsbD 3 = false) : pField (pIndex v) = v := by
  revert v; decide

theorem pField_bit3 (i : PIdx) : (pField i).getLsbD 3 = false := by revert i; decide

end Sys2Proof
end

