-- ==== Sys2Proof/Laws/Sqrt.lean ====
section
/-! SUPPORT. Sys2Proof/Laws/Sqrt.lean: what the Tonelli–Shanks loop of R161 keeps, and when it answers. -/

namespace Sys2Proof.Machine

theorem zmod_mul_mod (m a b : Nat) : ((a * b % m : Nat) : ZMod m) = (a : ZMod m) * b := by
  rw [ZMod.natCast_mod]; push_cast; ring

/-- R161: "Every iteration keeps r*r ≡ a*t (mod m)", so a returned root squares to a. -/
theorem tsLoop_sound {m : Nat} (hm : 1 < m) (a : ZMod m) (n : Nat) : ∀ k c t r x : Nat,
    (r : ZMod m) * r = a * t → tsLoop m n k c t r = some x → r < m → (x : ZMod m) * x = a ∧ x < m := by
  induction n with
  | zero => intro k c t r x _ h; simp [tsLoop] at h
  | succ n ih =>
    intro k c t r x hi h hr
    rw [tsLoop] at h
    by_cases ht : t = 1
    · rw [if_pos ht] at h
      cases h
      subst ht
      exact ⟨by simpa using hi, hr⟩
    · rw [if_neg ht] at h
      split at h
      · simp at h
      · rename_i i _
        refine ih _ _ _ _ x ?_ h (Nat.mod_lt _ (by omega))
        simp only [zmod_mul_mod, Nat.cast_mul]
        have e : ∀ b : ZMod m, (r * b) * (r * b) = r * r * (b * b) := fun b => by ring
        rw [e, hi]; ring

/-- R161: for a prime modulus the loop answers, from a `c` of order 2^k and a `t` of order below it. -/
theorem tsLoop_complete {m : Nat} [Fact m.Prime] (n : Nat) : ∀ k c t r : Nat, k ≤ n → 1 ≤ k → t < m →
    (c : ZMod m) ^ (2 ^ (k - 1)) = -1 → (t : ZMod m) ^ (2 ^ (k - 1)) = 1 → ∃ x, tsLoop m n k c t r = some x := by
  have hp : m.Prime := Fact.out
  have h1 : 1 < m := hp.one_lt
  have h0 : 0 < m := by omega
  have one_iff : ∀ x e : Nat, powMod x e m = 1 ↔ (x : ZMod m) ^ e = 1 := by
    intro x e
    rw [← powMod_zmod x e h0]
    constructor
    · intro h; rw [h]; simp
    · intro h
      exact eq_of_zmod_eq (powMod_lt x e h0) h1 (by simpa using h)
  induction n with
  | zero => intro k c t r h1 h2; omega
  | succ n ih =>
    intro k c t r hk h1k htm hc ht
    rw [tsLoop]
    by_cases t1 : t = 1
    · exact ⟨r, by rw [if_pos t1]⟩
    · rw [if_neg t1]
      have tne : (t : ZMod m) ≠ 1 := fun h => t1 (eq_of_zmod_eq htm h1 (by simpa using h))
      have hk2 : 2 ≤ k := by
        rcases Nat.lt_or_ge k 2 with h | h
        · have : k = 1 := by omega
          subst this
          simp at ht
          exact absurd ht tne
        · exact h
      split
      · rename_i hn
        have := leastFrom_none hn (k - 1) (by omega) (by omega)
        simp [(one_iff t _).2 ht] at this
      · rename_i i hi
        obtain ⟨ha, hb, hlt, hmin⟩ := leastFrom_some hi
        have hti : (t : ZMod m) ^ (2 ^ i) = 1 := (one_iff _ _).1 (by simpa using ha)
        have htm1 : (t : ZMod m) ^ (2 ^ (i - 1)) = -1 := by
          have hsq : ((t : ZMod m) ^ (2 ^ (i - 1))) ^ 2 = 1 := by
            rw [← pow_mul, ← pow_succ]
            rwa [Nat.sub_add_cancel hb]
          rcases mul_self_eq_one_iff.1 ((pow_two _).symm.trans hsq) with h | h
          · exfalso
            rcases Nat.eq_or_lt_of_le hb with e | e
            · rw [← e] at h; simp at h; exact tne h
            · have := hmin (i - 1) (by omega) (by omega)
              simp [(one_iff t _).2 h] at this
          · exact h
        have hcb : ((c : ZMod m) ^ (2 ^ (k - i - 1)) * (c : ZMod m) ^ (2 ^ (k - i - 1))) ^ (2 ^ (i - 1)) = -1 := by
          rw [← pow_add, ← two_mul, ← pow_succ', ← pow_mul, ← pow_add]
          have : k - i - 1 + 1 + (i - 1) = k - 1 := by omega
          rw [this, hc]
        apply ih
        · omega
        · omega
        · exact Nat.mod_lt _ h0
        · rw [zmod_mul_mod, powMod_zmod _ _ h0, hcb]
        · rw [zmod_mul_mod, Nat.cast_mul, powMod_zmod _ _ h0, mul_assoc, mul_pow, hcb, htm1]
          ring

/-- R161: "a returned r always satisfies r·r mod m = a". -/
theorem tonelliShanks_sound {a m x : Nat} (hm : 1 < m) (ha : a < m) (hodd : m % 2 = 1)
    (h : tonelliShanks a m = some x) : x < m ∧ x * x % m = a := by
  unfold tonelliShanks at h
  split at h
  · cases h
    simp_all
  · split at h
    · cases h
    · split at h
      · cases h
      · rename_i hleg _ z hz
        simp at hleg
        have h0 : 0 < m := by omega
        obtain ⟨-, e2, -⟩ := splitTwos_spec (bitlen (m - 1)) (m - 1) 0 (by omega) (lt_two_pow_bitlen _)
        set Q := (splitTwos (bitlen (m - 1)) (m - 1) 0).1
        have := tsLoop_sound hm (a : ZMod m) _ _ _ _ _ x ?_ h (powMod_lt _ _ h0)
        · refine ⟨this.2, ?_⟩
          have hx : ((x * x : Nat) : ZMod m) = (a : Nat) := by push_cast; exact this.1
          rw [ZMod.natCast_eq_natCast_iff] at hx
          unfold Nat.ModEq at hx
          rwa [Nat.mod_eq_of_lt ha] at hx
        · rw [powMod_zmod _ _ h0, powMod_zmod _ _ h0, ← pow_add]
          have : (Q + 1) / 2 + (Q + 1) / 2 = Q + 1 := by omega
          rw [this, pow_succ]
          ring

/-- R161: over a prime m ≡ 1 (mod 4) the search for z succeeds, and z is a non-residue. -/
theorem leastNonResidue_prime {m : Nat} (hp : m.Prime) (h1 : m % 4 = 1) :
    ∃ z, leastNonResidue m = some z ∧ (z : ZMod m) ^ ((m - 1) / 2) = -1 := by
  have : Fact m.Prime := ⟨hp⟩
  have h2 : 2 ≤ m := hp.two_le
  cases h : leastNonResidue m with
  | some z =>
    have := (leastFrom_some h).1
    simp at this
    refine ⟨z, rfl, ?_⟩
    rw [← powMod_zmod z _ (by omega), this, Nat.cast_sub (by omega)]
    simp
  | none =>
    exfalso
    have hn := leastFrom_none h
    have hc : ringChar (ZMod m) ≠ 2 := by
      rw [ZMod.ringChar_zmod_n]
      omega
    obtain ⟨q, hq⟩ := FiniteField.exists_nonsquare hc
    have hq0 : q ≠ 0 := by rintro rfl; exact hq ⟨0, by simp⟩
    have hq1 : q ≠ 1 := by rintro rfl; exact hq ⟨1, by simp⟩
    have hv : ((q.val : Nat) : ZMod m) = q := ZMod.natCast_zmod_val q
    have hl := q.val_lt
    have hge : 2 ≤ q.val := by
      have a0 : q.val ≠ 0 := fun e => hq0 (by rw [← hv, e]; simp)
      have a1 : q.val ≠ 1 := fun e => hq1 (by rw [← hv, e]; simp)
      omega
    have := hn q.val hge (by omega)
    simp at this
    apply this
    have hpw : q ^ (m / 2) = -1 := by
      rcases ZMod.pow_div_two_eq_neg_one_or_one m hq0 with h | h
      · exact absurd ((ZMod.euler_criterion m hq0).2 h) hq
      · exact h
    apply eq_of_zmod_eq (powMod_lt _ _ (by omega)) (by omega : m - 1 < m)
    rw [powMod_zmod _ _ (by omega), hv, show (m - 1) / 2 = m / 2 by omega, hpw, Nat.cast_sub (by omega)]
    simp

/-- Squares modulo m as numbers and in `ZMod m`. -/
theorem square_iff {a m : Nat} (hm : 1 < m) (ha : a < m) : (∃ y, y * y % m = a) ↔ IsSquare (a : ZMod m) := by
  have : NeZero m := ⟨by omega⟩
  constructor
  · rintro ⟨y, e⟩
    exact ⟨(y : ZMod m), by rw [← e]; simp⟩
  · rintro ⟨q, e⟩
    refine ⟨q.val, ?_⟩
    apply eq_of_zmod_eq (Nat.mod_lt _ (by omega)) ha
    simp [e]

/-- R160: for m ≡ 1 (mod 4) the root, and the fault, are those of Tonelli–Shanks. -/
theorem sqrtMod_of_root {a m r : Nat} (hm : m % 4 = 1) (h : tonelliShanks a m = some r) : sqrtMod a m = .ok (r, true) := by
  simp [sqrtMod, hm, h]

theorem sqrtMod_of_no_root {a m : Nat} (hm : m % 4 = 1) (h : tonelliShanks a m = none) : sqrtMod a m = .error .nosqrt := by
  simp [sqrtMod, hm, h]

end Sys2Proof.Machine
end

