-- ==== Sys2Proof/Laws/Engines.lean ====
section
/-! SUPPORT. Sys2Proof/Laws/Engines.lean: the Montgomery constants and REDC (R200, R205). -/

namespace Sys2Proof.Machine

theorem montR_pos : 0 < montR := by unfold montR; positivity

theorem montR_coprime {m : Nat} (h : ModValid m) : Nat.gcd (montR % m) m = 1 := by
  rw [← Nat.gcd_rec, Nat.gcd_comm]
  unfold montR
  apply Nat.Coprime.pow_left
  rw [Nat.coprime_two_left, Nat.odd_iff]
  exact h.2

/-- R200: "`Rinv(m) = Inv(R mod m, m)` always exists". -/
theorem montRinv_zmod {m : Nat} (h : ModValid m) : (montR : ZMod m) * (montRinv m : ZMod m) = 1 := by
  have := invMod_zmod (by have := h.1; omega) (Nat.mod_lt montR (by have := h.1; omega)) (montR_coprime h)
  rw [ZMod.natCast_mod] at this
  exact this

/-- R205: the corrective subtraction brings REDC below m. -/
theorem montRedc_lt {t m : Nat} (hm : 0 < m) (ht : t < m * montR) : montRedc t m < m := by
  unfold montRedc
  have hR := montR_pos
  set u := t % montR * montMPrime m % montR
  have hu : u < montR := Nat.mod_lt _ hR
  have : (t + u * m) / montR < 2 * m := by
    rw [Nat.div_lt_iff_lt_mul hR]
    nlinarith
  simp only
  split <;> omega

/-- R205: REDC divides by R modulo m. -/
theorem montRedc_zmod {t m : Nat} (h : ModValid m) (hmR : m < montR) : ((montRedc t m : Nat) : ZMod m) * montR = t := by
  have hR := montR_pos
  have hR1 : 1 < montR := by unfold montR; norm_num
  have hco : Nat.gcd m montR = 1 := by
    unfold montR
    apply Nat.Coprime.pow_right
    rw [Nat.coprime_two_right, Nat.odd_iff]
    exact h.2
  unfold montRedc
  set u := t % montR * montMPrime m % montR with hu
  have hdvd : montR ∣ t + u * m := by
    rw [← ZMod.natCast_eq_zero_iff]
    push_cast
    rw [hu, zmod_mul_mod, ZMod.natCast_mod]
    unfold montMPrime
    rw [emod_zmod _ hR]
    push_cast
    have := invMod_zmod hR1 hmR hco
    linear_combination -(t : ZMod montR) * this
  have key : (((t + u * m) / montR : Nat) : ZMod m) * montR = t := by
    have h2 : (((t + u * m) / montR * montR : Nat) : ZMod m) = ((t + u * m : Nat) : ZMod m) := by
      rw [Nat.div_mul_cancel hdvd]
    push_cast at h2
    simpa using h2
  simp only
  split
  · rename_i hle
    rw [Nat.cast_sub hle]
    simpa using key
  · exact key

end Sys2Proof.Machine
end

