-- ==== Sys2Proof/Laws/State.lean ====
section
/-! SUPPORT. Sys2Proof/Laws/State.lean: one lemma per field of State for each operation that updates State, and per field of
Regs for the register writes, each true by unfolding the operation once; later proofs rewrite with these. -/

namespace Sys2Proof.Machine

/-! ### accept -/

@[simp] theorem accept_regs (w : Word) (s : State) : (accept w s).regs = s.regs := rfl

@[simp] theorem accept_cmd (w : Word) (s : State) : (accept w s).cmd = w := rfl

@[simp] theorem accept_status (w : Word) (s : State) : (accept w s).status = { s.status with done := false, err := false, errcode := none, busy := true } := rfl

@[simp] theorem accept_ie (w : Word) (s : State) : (accept w s).ie = s.ie := rfl

@[simp] theorem accept_flags (w : Word) (s : State) : (accept w s).flags = s.flags := rfl

@[simp] theorem accept_errcmd (w : Word) (s : State) : (accept w s).errcmd = s.errcmd := rfl

@[simp] theorem accept_pending (w : Word) (s : State) : (accept w s).pending = .pending w s.regs := rfl

@[simp] theorem accept_port (w : Word) (s : State) : (accept w s).port = s.port := rfl

/-! ### completeFault -/

@[simp] theorem completeFault_regs (c : FaultCode) (s : State) : (completeFault c s).regs = s.regs := rfl

@[simp] theorem completeFault_cmd (c : FaultCode) (s : State) : (completeFault c s).cmd = s.cmd := rfl

@[simp] theorem completeFault_status (c : FaultCode) (s : State) : (completeFault c s).status = { s.status with errcode := some c, err := true, done := true, busy := false } := rfl

@[simp] theorem completeFault_ie (c : FaultCode) (s : State) : (completeFault c s).ie = s.ie := rfl

@[simp] theorem completeFault_flags (c : FaultCode) (s : State) : (completeFault c s).flags = s.flags := rfl

@[simp] theorem completeFault_errcmd (c : FaultCode) (s : State) : (completeFault c s).errcmd = s.word := rfl

@[simp] theorem completeFault_pending (c : FaultCode) (s : State) : (completeFault c s).pending = .idle := rfl

@[simp] theorem completeFault_port (c : FaultCode) (s : State) : (completeFault c s).port = s.port := rfl

/-! ### completeOk -/

@[simp] theorem completeOk_regs (s : State) : (completeOk s).regs = s.regs := rfl

@[simp] theorem completeOk_cmd (s : State) : (completeOk s).cmd = s.cmd := rfl

@[simp] theorem completeOk_status (s : State) : (completeOk s).status = { s.status with done := true, busy := false } := rfl

@[simp] theorem completeOk_ie (s : State) : (completeOk s).ie = s.ie := rfl

@[simp] theorem completeOk_flags (s : State) : (completeOk s).flags = s.flags := rfl

@[simp] theorem completeOk_errcmd (s : State) : (completeOk s).errcmd = s.errcmd := rfl

@[simp] theorem completeOk_pending (s : State) : (completeOk s).pending = .idle := rfl

@[simp] theorem completeOk_port (s : State) : (completeOk s).port = s.port := rfl

/-! ### commitField -/

@[simp] theorem commitField_regs (rd : XIdx) (r : Nat) (s : State) : (commitField rd r s).regs = s.regs.setX rd (BitVec.ofNat 256 r) := rfl

@[simp] theorem commitField_cmd (rd : XIdx) (r : Nat) (s : State) : (commitField rd r s).cmd = s.cmd := rfl

@[simp] theorem commitField_status (rd : XIdx) (r : Nat) (s : State) : (commitField rd r s).status = s.status := rfl

@[simp] theorem commitField_ie (rd : XIdx) (r : Nat) (s : State) : (commitField rd r s).ie = s.ie := rfl

@[simp] theorem commitField_flags (rd : XIdx) (r : Nat) (s : State) : (commitField rd r s).flags = s.flags.ofField r := rfl

@[simp] theorem commitField_errcmd (rd : XIdx) (r : Nat) (s : State) : (commitField rd r s).errcmd = s.errcmd := rfl

@[simp] theorem commitField_pending (rd : XIdx) (r : Nat) (s : State) : (commitField rd r s).pending = s.pending := rfl

@[simp] theorem commitField_port (rd : XIdx) (r : Nat) (s : State) : (commitField rd r s).port = s.port := rfl

/-! ### commitSqrt -/

@[simp] theorem commitSqrt_regs (rd : XIdx) (r : Nat × Bool) (s : State) : (commitSqrt rd r s).regs = s.regs.setX rd (BitVec.ofNat 256 r.1) := rfl

@[simp] theorem commitSqrt_cmd (rd : XIdx) (r : Nat × Bool) (s : State) : (commitSqrt rd r s).cmd = s.cmd := rfl

@[simp] theorem commitSqrt_status (rd : XIdx) (r : Nat × Bool) (s : State) : (commitSqrt rd r s).status = s.status := rfl

@[simp] theorem commitSqrt_ie (rd : XIdx) (r : Nat × Bool) (s : State) : (commitSqrt rd r s).ie = s.ie := rfl

@[simp] theorem commitSqrt_flags (rd : XIdx) (r : Nat × Bool) (s : State) : (commitSqrt rd r s).flags = s.flags.ofSqrt r.1 r.2 := rfl

@[simp] theorem commitSqrt_errcmd (rd : XIdx) (r : Nat × Bool) (s : State) : (commitSqrt rd r s).errcmd = s.errcmd := rfl

@[simp] theorem commitSqrt_pending (rd : XIdx) (r : Nat × Bool) (s : State) : (commitSqrt rd r s).pending = s.pending := rfl

@[simp] theorem commitSqrt_port (rd : XIdx) (r : Nat × Bool) (s : State) : (commitSqrt rd r s).port = s.port := rfl

/-! ### commitPoint -/

@[simp] theorem commitPoint_regs (rd : PIdx) (res : Point) (s : State) : (commitPoint rd res s).regs = s.regs.setView rd res := rfl

@[simp] theorem commitPoint_cmd (rd : PIdx) (res : Point) (s : State) : (commitPoint rd res s).cmd = s.cmd := rfl

@[simp] theorem commitPoint_status (rd : PIdx) (res : Point) (s : State) : (commitPoint rd res s).status = s.status := rfl

@[simp] theorem commitPoint_ie (rd : PIdx) (res : Point) (s : State) : (commitPoint rd res s).ie = s.ie := rfl

@[simp] theorem commitPoint_flags (rd : PIdx) (res : Point) (s : State) : (commitPoint rd res s).flags = s.flags.ofPoint res := rfl

@[simp] theorem commitPoint_errcmd (rd : PIdx) (res : Point) (s : State) : (commitPoint rd res s).errcmd = s.errcmd := rfl

@[simp] theorem commitPoint_pending (rd : PIdx) (res : Point) (s : State) : (commitPoint rd res s).pending = s.pending := rfl

@[simp] theorem commitPoint_port (rd : PIdx) (res : Point) (s : State) : (commitPoint rd res s).port = s.port := rfl

/-! ### commitEq -/

@[simp] theorem commitEq_regs (b : Bool) (s : State) : (commitEq b s).regs = s.regs := rfl

@[simp] theorem commitEq_cmd (b : Bool) (s : State) : (commitEq b s).cmd = s.cmd := rfl

@[simp] theorem commitEq_status (b : Bool) (s : State) : (commitEq b s).status = s.status := rfl

@[simp] theorem commitEq_ie (b : Bool) (s : State) : (commitEq b s).ie = s.ie := rfl

@[simp] theorem commitEq_flags (b : Bool) (s : State) : (commitEq b s).flags = s.flags.ofEq b := rfl

@[simp] theorem commitEq_errcmd (b : Bool) (s : State) : (commitEq b s).errcmd = s.errcmd := rfl

@[simp] theorem commitEq_pending (b : Bool) (s : State) : (commitEq b s).pending = s.pending := rfl

@[simp] theorem commitEq_port (b : Bool) (s : State) : (commitEq b s).port = s.port := rfl

/-! ### commitOnc -/

@[simp] theorem commitOnc_regs (b : Bool) (s : State) : (commitOnc b s).regs = s.regs := rfl

@[simp] theorem commitOnc_cmd (b : Bool) (s : State) : (commitOnc b s).cmd = s.cmd := rfl

@[simp] theorem commitOnc_status (b : Bool) (s : State) : (commitOnc b s).status = s.status := rfl

@[simp] theorem commitOnc_ie (b : Bool) (s : State) : (commitOnc b s).ie = s.ie := rfl

@[simp] theorem commitOnc_flags (b : Bool) (s : State) : (commitOnc b s).flags = s.flags.ofOnc b := rfl

@[simp] theorem commitOnc_errcmd (b : Bool) (s : State) : (commitOnc b s).errcmd = s.errcmd := rfl

@[simp] theorem commitOnc_pending (b : Bool) (s : State) : (commitOnc b s).pending = s.pending := rfl

@[simp] theorem commitOnc_port (b : Bool) (s : State) : (commitOnc b s).port = s.port := rfl

/-! ### commitNothing -/

@[simp] theorem commitNothing_regs (u : Unit) (s : State) : (commitNothing u s).regs = s.regs := rfl

@[simp] theorem commitNothing_cmd (u : Unit) (s : State) : (commitNothing u s).cmd = s.cmd := rfl

@[simp] theorem commitNothing_status (u : Unit) (s : State) : (commitNothing u s).status = s.status := rfl

@[simp] theorem commitNothing_ie (u : Unit) (s : State) : (commitNothing u s).ie = s.ie := rfl

@[simp] theorem commitNothing_flags (u : Unit) (s : State) : (commitNothing u s).flags = s.flags := rfl

@[simp] theorem commitNothing_errcmd (u : Unit) (s : State) : (commitNothing u s).errcmd = s.errcmd := rfl

@[simp] theorem commitNothing_pending (u : Unit) (s : State) : (commitNothing u s).pending = s.pending := rfl

@[simp] theorem commitNothing_port (u : Unit) (s : State) : (commitNothing u s).port = s.port := rfl

/-! ### acknowledge -/

@[simp] theorem acknowledge_regs (v : Word) (s : State) : (acknowledge v s).regs = s.regs := rfl

@[simp] theorem acknowledge_cmd (v : Word) (s : State) : (acknowledge v s).cmd = s.cmd := rfl

@[simp] theorem acknowledge_status (v : Word) (s : State) : (acknowledge v s).status = s.status.clear v := rfl

@[simp] theorem acknowledge_ie (v : Word) (s : State) : (acknowledge v s).ie = s.ie := rfl

@[simp] theorem acknowledge_flags (v : Word) (s : State) : (acknowledge v s).flags = s.flags := rfl

@[simp] theorem acknowledge_errcmd (v : Word) (s : State) : (acknowledge v s).errcmd = s.errcmd := rfl

@[simp] theorem acknowledge_pending (v : Word) (s : State) : (acknowledge v s).pending = s.pending := rfl

@[simp] theorem acknowledge_port (v : Word) (s : State) : (acknowledge v s).port = s.port := rfl

/-! ### dropWrite -/

@[simp] theorem dropWrite_regs (s : State) : (dropWrite s).regs = s.regs := rfl

@[simp] theorem dropWrite_cmd (s : State) : (dropWrite s).cmd = s.cmd := rfl

@[simp] theorem dropWrite_status (s : State) : (dropWrite s).status = { s.status with werr := true } := rfl

@[simp] theorem dropWrite_ie (s : State) : (dropWrite s).ie = s.ie := rfl

@[simp] theorem dropWrite_flags (s : State) : (dropWrite s).flags = s.flags := rfl

@[simp] theorem dropWrite_errcmd (s : State) : (dropWrite s).errcmd = s.errcmd := rfl

@[simp] theorem dropWrite_pending (s : State) : (dropWrite s).pending = s.pending := rfl

@[simp] theorem dropWrite_port (s : State) : (dropWrite s).port = s.port := rfl

/-! ### resetEccu -/

@[simp] theorem resetEccu_regs (s : State) : (resetEccu s).regs = Regs.reset := rfl

@[simp] theorem resetEccu_cmd (s : State) : (resetEccu s).cmd = 0 := rfl

@[simp] theorem resetEccu_status (s : State) : (resetEccu s).status = ⟨false, false, false, false, none⟩ := rfl

@[simp] theorem resetEccu_ie (s : State) : (resetEccu s).ie = ⟨false, false, false⟩ := rfl

@[simp] theorem resetEccu_flags (s : State) : (resetEccu s).flags = ⟨false, false, false, false, false⟩ := rfl

@[simp] theorem resetEccu_errcmd (s : State) : (resetEccu s).errcmd = 0 := rfl

@[simp] theorem resetEccu_pending (s : State) : (resetEccu s).pending = .idle := rfl

@[simp] theorem resetEccu_port (s : State) : (resetEccu s).port = s.port := rfl

/-! ### respond -/

@[simp] theorem respond_regs (r : Reply) (s : State) : (respond r s).regs = s.regs := rfl

@[simp] theorem respond_cmd (r : Reply) (s : State) : (respond r s).cmd = s.cmd := rfl

@[simp] theorem respond_status (r : Reply) (s : State) : (respond r s).status = s.status := rfl

@[simp] theorem respond_ie (r : Reply) (s : State) : (respond r s).ie = s.ie := rfl

@[simp] theorem respond_flags (r : Reply) (s : State) : (respond r s).flags = s.flags := rfl

@[simp] theorem respond_errcmd (r : Reply) (s : State) : (respond r s).errcmd = s.errcmd := rfl

@[simp] theorem respond_pending (r : Reply) (s : State) : (respond r s).pending = s.pending := rfl

@[simp] theorem respond_port (r : Reply) (s : State) : (respond r s).port = { s.port with served := s.port.served + 1, reply := some r } := rfl

/-! ### withTurns -/

@[simp] theorem withTurns_regs (ts : List Turn) (s : State) : (withTurns ts s).regs = s.regs := rfl

@[simp] theorem withTurns_cmd (ts : List Turn) (s : State) : (withTurns ts s).cmd = s.cmd := rfl

@[simp] theorem withTurns_status (ts : List Turn) (s : State) : (withTurns ts s).status = s.status := rfl

@[simp] theorem withTurns_ie (ts : List Turn) (s : State) : (withTurns ts s).ie = s.ie := rfl

@[simp] theorem withTurns_flags (ts : List Turn) (s : State) : (withTurns ts s).flags = s.flags := rfl

@[simp] theorem withTurns_errcmd (ts : List Turn) (s : State) : (withTurns ts s).errcmd = s.errcmd := rfl

@[simp] theorem withTurns_pending (ts : List Turn) (s : State) : (withTurns ts s).pending = s.pending := rfl

@[simp] theorem withTurns_port (ts : List Turn) (s : State) : (withTurns ts s).port = { s.port with turns := ts } := rfl

/-! ### Register writes -/

@[simp] theorem setX_x (r : Regs) (i : XIdx) (v : Val) : (r.setX i v).x = r.x.set i.val v := rfl

@[simp] theorem setX_pinf (r : Regs) (i : XIdx) (v : Val) : (r.setX i v).pinf = r.pinf := rfl

@[simp] theorem setX_p (r : Regs) (i : XIdx) (v : Val) : (r.setX i v).p = r.p := rfl

@[simp] theorem setX_n (r : Regs) (i : XIdx) (v : Val) : (r.setX i v).n = r.n := rfl

@[simp] theorem setX_a (r : Regs) (i : XIdx) (v : Val) : (r.setX i v).a = r.a := rfl

@[simp] theorem setX_b (r : Regs) (i : XIdx) (v : Val) : (r.setX i v).b = r.b := rfl

@[simp] theorem setX_gx (r : Regs) (i : XIdx) (v : Val) : (r.setX i v).gx = r.gx := rfl

@[simp] theorem setX_gy (r : Regs) (i : XIdx) (v : Val) : (r.setX i v).gy = r.gy := rfl

@[simp] theorem setView_p (r : Regs) (k : PIdx) (u : Point) : (r.setView k u).p = r.p := by
  cases u <;> rfl

@[simp] theorem setView_n (r : Regs) (k : PIdx) (u : Point) : (r.setView k u).n = r.n := by
  cases u <;> rfl

@[simp] theorem setView_a (r : Regs) (k : PIdx) (u : Point) : (r.setView k u).a = r.a := by
  cases u <;> rfl

@[simp] theorem setView_b (r : Regs) (k : PIdx) (u : Point) : (r.setView k u).b = r.b := by
  cases u <;> rfl

@[simp] theorem setView_gx (r : Regs) (k : PIdx) (u : Point) : (r.setView k u).gx = r.gx := by
  cases u <;> rfl

@[simp] theorem setView_gy (r : Regs) (k : PIdx) (u : Point) : (r.setView k u).gy = r.gy := by
  cases u <;> rfl

@[simp] theorem setCurve_x (r : Regs) (c : CurveReg) (v : Val) : (r.setCurve c v).x = r.x := by
  cases c <;> rfl

@[simp] theorem setCurve_pinf (r : Regs) (c : CurveReg) (v : Val) : (r.setCurve c v).pinf = r.pinf := by
  cases c <;> rfl

/-! ### The pending command -/

@[simp] theorem operands_pending (s : State) (w : Word) (s0 : Regs) (h : s.pending = .pending w s0) : s.operands = s0 := by
  simp [State.operands, h]

@[simp] theorem word_pending (s : State) (w : Word) (s0 : Regs) (h : s.pending = .pending w s0) : s.word = w := by
  simp [State.word, h]

@[simp] theorem operands_idle (s : State) (h : s.pending = .idle) : s.operands = s.regs := by
  simp [State.operands, h]

@[simp] theorem word_idle (s : State) (h : s.pending = .idle) : s.word = s.cmd := by
  simp [State.word, h]

@[simp] theorem operands_accept (w : Word) (s : State) : (accept w s).operands = s.regs := rfl

@[simp] theorem word_accept (w : Word) (s : State) : (accept w s).word = w := rfl

@[simp] theorem operands_withTurns (ts : List Turn) (s : State) : (withTurns ts s).operands = s.operands := rfl

@[simp] theorem word_withTurns (ts : List Turn) (s : State) : (withTurns ts s).word = s.word := rfl

end Sys2Proof.Machine
end

