-- ==== Sys2Proof/Laws/Ops.lean ====
section
/-! SUPPORT. Sys2Proof/Laws/Ops.lean: what the shared operations of Machine/Ops.lean and the checks of
Machine/Operands.lean do, in the terms of Safety.lean. -/

namespace Sys2Proof.Machine

/-! ### Completions -/

/-- R301. -/
theorem completeFault_eq (c : FaultCode) (s : State) : completeFault c s = faultDone c s := rfl

/-- R302: whatever the registers and flags of the commit. -/
theorem completeOk_commitField (rd : XIdx) (r : Nat) (s : State) :
    completeOk (commitField rd r s) = fieldDone rd r s := by
  simp [completeOk, commitField, fieldDone, okDone, Regs.setX, Flags.ofField]
  constructor <;> rfl

theorem completeOk_commitSqrt (rd : XIdx) (r : Nat × Bool) (s : State) :
    completeOk (commitSqrt rd r s) = sqrtDone rd r.1 r.2 s := by
  simp [completeOk, commitSqrt, sqrtDone, okDone, Regs.setX, Flags.ofSqrt, Flags.ofField]
  constructor <;> rfl

theorem completeOk_commitPoint (rd : PIdx) (w : Point) (s : State) :
    completeOk (commitPoint rd w s) = pointDone rd w s := by
  cases w
  · simp [completeOk, commitPoint, pointDone, infDone, okDone, Regs.setView, Regs.setX, Flags.ofPoint, setTag, xOfView,
      yOfView]
  · simp [completeOk, commitPoint, pointDone, affDone, okDone, Regs.setView, Regs.setX, Flags.ofPoint, setTag, xOfView,
      yOfView]
    rfl

theorem finish_error {α : Type} {c : FaultCode} {commit : α → State → State} {s : State} :
    finish (.error c) commit s = .next (faultDone c s) := rfl

theorem finish_field {r : Nat} {rd : XIdx} {s : State} :
    finish (.ok r) (commitField rd) s = .next (fieldDone rd r s) := by
  rw [← completeOk_commitField]
  rfl

theorem finish_sqrt {r : Nat × Bool} {rd : XIdx} {s : State} :
    finish (.ok r) (commitSqrt rd) s = .next (sqrtDone rd r.1 r.2 s) := by
  rw [← completeOk_commitSqrt]
  rfl

theorem finish_point {r : Point} {rd : PIdx} {s : State} :
    finish (.ok r) (commitPoint rd) s = .next (pointDone rd r s) := by
  rw [← completeOk_commitPoint]
  rfl

/-- R301, R302: the two ways a command completes. -/
theorem finish_cases {α : Type} (r : Except FaultCode α) (commit : α → State → State) (s : State) :
    (∃ c, r = .error c ∧ finish r commit s = .next (faultDone c s)) ∨
      ∃ v, r = .ok v ∧ finish r commit s = .next (completeOk (commit v s)) := by
  cases r
  · exact .inl ⟨_, rfl, rfl⟩
  · exact .inr ⟨_, rfl, rfl⟩

/-! ### Register writes -/

/-- The mask of one tag, bit by bit. -/
theorem tag_bit (k j : PIdx) : (1#8 <<< k.val).getLsbD j.val = decide (j = k) := by revert k j; decide

theorem setTag_same (b : BitVec 8) (k : PIdx) (inf : Bool) : (setTag b k inf).getLsbD k.val = inf := by
  cases inf <;> simp only [setTag, if_true, Bool.false_eq_true, if_false, BitVec.getLsbD_or, BitVec.getLsbD_and,
    BitVec.getLsbD_not, tag_bit] <;> simp

theorem setTag_other (b : BitVec 8) {k j : PIdx} (inf : Bool) (h : j ≠ k) :
    (setTag b k inf).getLsbD j.val = b.getLsbD j.val := by
  cases inf <;> simp only [setTag, if_true, Bool.false_eq_true, if_false, BitVec.getLsbD_or, BitVec.getLsbD_and,
    BitVec.getLsbD_not, tag_bit, decide_eq_false h] <;> simp

theorem setX_other (r : Regs) {i j : XIdx} (v : Val) (h : i ≠ j) : (r.setX i v).x[j.val] = r.x[j.val] := by
  have : i.val ≠ j.val := fun e => h (Fin.ext e)
  simp [Regs.setX, this]

theorem setView_x_other (r : Regs) {k : PIdx} (u : Point) {j : XIdx} (h1 : j.val ≠ 2 * k.val)
    (h2 : j.val ≠ 2 * k.val + 1) : (r.setView k u).x[j.val] = r.x[j.val] := by
  unfold Regs.setView
  split <;> simp [Regs.setX, xOfView, yOfView, Ne.symm h1, Ne.symm h2]

theorem setView_pinf_other (r : Regs) {k j : PIdx} (u : Point) (h : j ≠ k) :
    (r.setView k u).pinf.getLsbD j.val = r.pinf.getLsbD j.val := by
  unfold Regs.setView
  split <;> exact setTag_other _ _ h

theorem setView_curve (r : Regs) (k : PIdx) (u : Point) (c : CurveReg) : (r.setView k u).curve c = r.curve c := by
  cases u <;> cases c <;> rfl

theorem setX_curve (r : Regs) (k : XIdx) (v : Val) (c : CurveReg) : (r.setX k v).curve c = r.curve c := by
  cases c <;> rfl

@[simp] theorem setCurve_curve (r : Regs) (c : CurveReg) (v : Val) : (r.setCurve c v).curve c = v := by
  cases c <;> rfl

theorem setCurve_curve_other (r : Regs) {c c' : CurveReg} (v : Val) (h : c' ≠ c) :
    (r.setCurve c v).curve c' = r.curve c' := by
  cases c <;> cases c' <;> first | rfl | exact absurd rfl h

/-! ### Checks -/

theorem require_pos {α : Type} {c : Prop} [Decidable c] {code : FaultCode} {k : Except FaultCode α} (h : c) :
    require c code k = k := if_pos h

theorem require_neg {α : Type} {c : Prop} [Decidable c] {code : FaultCode} {k : Except FaultCode α} (h : ¬c) :
    require c code k = .error code := if_neg h

/-- A check can only add its own code. -/
theorem require_error {α : Type} {c : Prop} [Decidable c] {code : FaultCode} {k : Except FaultCode α} {e : FaultCode}
    (h : require c code k = .error e) : e = code ∨ k = .error e := by
  unfold require at h
  split at h
  · exact .inr h
  · cases h
    exact .inl rfl

theorem guardField1_badmod {α : Type} {m a : Nat} {k : Except FaultCode α} (h : ¬ModValid m) :
    guardField1 m a k = .error .badmod := require_neg h

theorem guardField1_range {α : Type} {m a : Nat} {k : Except FaultCode α} (h : ModValid m) (h' : ¬a < m) :
    guardField1 m a k = .error .range := by
  unfold guardField1
  rw [require_pos h, require_neg h']

theorem guardField1_pass {α : Type} {m a : Nat} {k : Except FaultCode α} (h : ModValid m) (h' : a < m) :
    guardField1 m a k = k := by
  unfold guardField1
  rw [require_pos h, require_pos h']

theorem guardField2_badmod {α : Type} {m a b : Nat} {k : Except FaultCode α} (h : ¬ModValid m) :
    guardField2 m a b k = .error .badmod := require_neg h

theorem guardField2_range {α : Type} {m a b : Nat} {k : Except FaultCode α} (h : ModValid m)
    (h' : ¬(a < m ∧ b < m)) : guardField2 m a b k = .error .range := by
  unfold guardField2
  rw [require_pos h]
  by_cases ha : a < m
  · rw [require_pos ha, require_neg (fun hb => h' ⟨ha, hb⟩)]
  · rw [require_neg ha]

theorem guardField2_pass {α : Type} {m a b : Nat} {k : Except FaultCode α} (h : ModValid m) (ha : a < m) (hb : b < m) :
    guardField2 m a b k = k := by
  unfold guardField2
  rw [require_pos h, require_pos ha, require_pos hb]

theorem guardCurve_badmod {α : Type} {r : Regs} {k : Except FaultCode α} (h : ¬ModValid r.p.toNat) :
    guardCurve r k = .error .badmod := require_neg h

theorem guardCurve_range {α : Type} {r : Regs} {k : Except FaultCode α} (h : ModValid r.p.toNat)
    (h' : ¬(r.a.toNat < r.p.toNat ∧ r.b.toNat < r.p.toNat)) : guardCurve r k = .error .range := by
  unfold guardCurve
  rw [require_pos h]
  by_cases ha : r.aNat < r.pNat
  · rw [require_pos ha, require_neg (fun hb => h' ⟨ha, hb⟩)]
  · rw [require_neg ha]

theorem guardCurve_pass {α : Type} {r : Regs} {k : Except FaultCode α} (h : ValidCurve r) : guardCurve r k = k := by
  unfold guardCurve
  rw [require_pos h.1, require_pos h.2.1, require_pos h.2.2]

theorem guardCurveN_pass {α : Type} {r : Regs} {k : Except FaultCode α} (h : ValidCurve r) (hn : ModValid r.n.toNat) :
    guardCurveN r k = k := by
  unfold guardCurveN
  rw [require_pos h.1, require_pos hn, require_pos h.2.1, require_pos h.2.2]

theorem inRange_iff (p : Nat) (u : Point) : inRange p u = true ↔ ∀ x y, u = .aff x y → x < p ∧ y < p := by
  cases u with
  | inf => simp [inRange]
  | aff x y => simp [inRange]

end Sys2Proof.Machine
end

