-- ==== Sys2Proof/Laws/Exec.lean ====
section
/-! SUPPORT. Sys2Proof/Laws/Exec.lean: everything a command's completion can do, said once (R301, R302), and what moving
every agent can do to the pending command. -/

namespace Sys2Proof.Machine

theorem Flags.ofPoint_other (f : Flags) (u : Point) :
    (f.ofPoint u).qr = f.qr ∧ (f.ofPoint u).eq = f.eq ∧ (f.ofPoint u).onc = f.onc := by
  cases u <;> exact ⟨rfl, rfl, rfl⟩

/-- Every command either faults and writes nothing, or completes with registers that differ at its destination only and
flags that differ in its row of R39 only. -/
theorem exec_writes (i : Instr) (s : State) :
    (∃ c, exec i s = .next (faultDone c s)) ∨
      ∃ r f, exec i s = .next (okDone r f s) ∧
        ((∃ rd v, fieldDest i = some rd ∧ pointDest i = none ∧ r = s.regs.setX rd v) ∨
          (∃ rd u, pointDest i = some rd ∧ fieldDest i = none ∧ r = s.regs.setView rd u) ∨
          (fieldDest i = none ∧ pointDest i = none ∧ r = s.regs)) ∧
        (fieldDest i = none → pointDest i = none → f.z = s.flags.z ∧ f.odd = s.flags.odd) ∧
        ((∀ ms rd ra, i ≠ .fsqrt ms rd ra) → f.qr = s.flags.qr) ∧
        ((∀ ra rb, i ≠ .peq ra rb) → f.eq = s.flags.eq) ∧ ((∀ ra, i ≠ .pchk ra) → f.onc = s.flags.onc) := by
  cases i <;> simp only [exec, execNop, execFadd, execFsub, execFmul, execFdiv, execFpow, execFneg, execFinv, execFsqrt,
    execMmul, execBred, execPadd, execPdbl, execPneg, execPsub, execPeq, execPchk, execSmul, execPubk]
  all_goals
    (first
      | (rcases finish_cases (α := Nat) _ _ s with ⟨c, _, e⟩ | ⟨v, _, e⟩ <;> rw [e])
      | (rcases finish_cases (α := Point) _ _ s with ⟨c, _, e⟩ | ⟨v, _, e⟩ <;> rw [e])
      | (rcases finish_cases (α := Unit) _ _ s with ⟨c, _, e⟩ | ⟨v, _, e⟩ <;> rw [e])
      | (rcases finish_cases (α := Bool) _ _ s with ⟨c, _, e⟩ | ⟨v, _, e⟩ <;> rw [e])
      | (rcases finish_cases (α := Nat × Bool) _ _ s with ⟨c, _, e⟩ | ⟨v, _, e⟩ <;> rw [e]))
  all_goals first
    | exact .inl ⟨_, rfl⟩
    | (refine .inr ⟨_, _, rfl, ?_, ?_, ?_, ?_, ?_⟩
       · first
           | exact .inl ⟨_, _, rfl, rfl, rfl⟩
           | exact .inr (.inl ⟨_, _, rfl, rfl, rfl⟩)
           | exact .inr (.inr ⟨rfl, rfl, rfl⟩)
       · first
           | (intro h1 h2; cases h1; done)
           | (intro h1 h2; cases h2; done)
           | (intro h1 h2; exact ⟨rfl, rfl⟩)
       · first
           | (intro h; rfl)
           | (intro h; exact (Flags.ofPoint_other _ _).1)
           | (intro h; exact absurd rfl (h _ _ _))
       · first
           | (intro h; rfl)
           | (intro h; exact (Flags.ofPoint_other _ _).2.1)
           | (intro h; exact absurd rfl (h _ _))
       · first
           | (intro h; rfl)
           | (intro h; exact (Flags.ofPoint_other _ _).2.2)
           | (intro h; exact absurd rfl (h _)))

theorem exec_cases (i : Instr) (s : State) :
    (∃ c, exec i s = .next (faultDone c s)) ∨ ∃ r f, exec i s = .next (okDone r f s) := by
  rcases exec_writes i s with h | ⟨r, f, h, -⟩
  · exact .inl h
  · exact .inr ⟨r, f, h⟩

/-- R15: the sequencer's turn: nothing while idle, a completion while a command is pending. -/
theorem complete_cases (s : State) :
    (s.pending = .idle ∧ complete s = .next s) ∨
      (s.pending ≠ .idle ∧
        ((∃ c, complete s = .next (faultDone c s)) ∨ ∃ r f, complete s = .next (okDone r f s))) := by
  unfold complete
  split
  · rename_i h
    exact .inl ⟨h, rfl⟩
  · rename_i w s0 h
    refine .inr ⟨by simp [h], ?_⟩
    unfold completeWord
    split
    · exact .inl ⟨.illegal, rfl⟩
    · exact exec_cases _ _

/-- One step of a run. -/
theorem run_succ {n : Nat} {s t : State} (h : step s = .next t) :
    Host.Core.run Sys2Proof.core (n + 1) s = Host.Core.run Sys2Proof.core n t := by
  have h' : Sys2Proof.core.step s = .next t := h
  simp only [Host.Core.run, h']

end Sys2Proof.Machine
end

