-- ==== Sys2Proof/Laws/Group.lean ====
section
/-! SUPPORT. Sys2Proof/Laws/Group.lean: the group law of Machine/Group.lean over a prime modulus, tied to Mathlib's
Weierstrass curves: what `Add` answers for two points on the curve, and that it is the addition of the group of
nonsingular points. -/

namespace Sys2Proof.Machine

/-- R222 for any modulus above 0: `onCurve` is the Weierstrass equation of `ZMod p`. -/
theorem onCurve_aff_iff {p a b x y : Nat} (hp : 0 < p) : onCurve p a b (.aff x y) = true ↔
    x < p ∧ y < p ∧ (y : ZMod p) ^ 2 = (x : ZMod p) ^ 3 + a * x + b := by
  have h : (emod ((y * y : Int) - ((x * x * x : Int) + (a * x : Int) + (b : Int))) p = 0) ↔
      (y : ZMod p) ^ 2 = (x : ZMod p) ^ 3 + a * x + b := by
    have hz := emod_zmod ((y * y : Int) - ((x * x * x : Int) + (a * x : Int) + (b : Int))) hp
    push_cast at hz
    constructor
    · intro h0
      rw [h0] at hz
      linear_combination -hz
    · intro h0
      apply eq_of_zmod_eq (emod_lt _ hp) hp
      rw [hz]
      push_cast
      linear_combination h0
  simp [onCurve, h, and_assoc]

section Prime

variable {p : Nat} [hpf : Fact p.Prime]

theorem prime_pos : 0 < p := hpf.out.pos

theorem cast_eq_zero_iff {x : Nat} (hx : x < p) : (x : ZMod p) = 0 ↔ x = 0 := by
  constructor
  · intro h
    exact eq_of_zmod_eq hx prime_pos (by simpa using h)
  · rintro rfl; simp

theorem cast_inj {x y : Nat} (hx : x < p) (hy : y < p) : (x : ZMod p) = y ↔ x = y :=
  ⟨eq_of_zmod_eq hx hy, fun h => by rw [h]⟩

/-- R223: over a prime, the division of a slope never faults for a nonzero divisor. -/
theorem slopeOf_ok (num : Nat) {den : Nat} (h0 : den ≠ 0) (hd : den < p) :
    ∃ s, slopeOf p num den = .ok s ∧ (s : ZMod p) = (num : ZMod p) / (den : ZMod p) := by
  have hp : p.Prime := hpf.out
  have hg : Nat.gcd den p = 1 :=
    (Nat.coprime_comm.1 ((Nat.Prime.coprime_iff_not_dvd hp).2 fun h => by
      have := Nat.le_of_dvd (by omega) h; omega))
  refine ⟨num * invMod den p % p, by simp [slopeOf, require, hg], ?_⟩
  have hne : (den : ZMod p) ≠ 0 := fun h => h0 ((cast_eq_zero_iff hd).1 h)
  rw [ZMod.natCast_mod, eq_div_iff hne]
  push_cast
  have := invMod_zmod hp.one_lt hd hg
  linear_combination (num : ZMod p) * this

/-- The Weierstrass curve of R222 over `ZMod p`. -/
def curveOf (p a b : Nat) : WeierstrassCurve.Affine (ZMod p) := ⟨0, 0, 0, a, b⟩

theorem curveOf_equation {a b : Nat} {x y : ZMod p} :
    (curveOf p a b).Equation x y ↔ y ^ 2 = x ^ 3 + a * x + b := by
  rw [WeierstrassCurve.Affine.equation_iff]
  simp [curveOf]

@[simp] theorem curveOf_negY {a b : Nat} {x y : ZMod p} : (curveOf p a b).negY x y = -y := by
  simp [curveOf]

/-- The sum of two affine points of the curve that is not INF. -/
theorem addPoints_chord {a b ux uy vx vy : Nat} (h2 : p ≠ 2) (hux : ux < p) (huy : uy < p) (hvx : vx < p)
    (hvy : vy < p) (hu : (uy : ZMod p) ^ 2 = (ux : ZMod p) ^ 3 + a * ux + b)
    (hv : (vy : ZMod p) ^ 2 = (vx : ZMod p) ^ 3 + a * vx + b)
    (hn : ¬((ux : ZMod p) = vx ∧ (uy : ZMod p) = -(vy : ZMod p))) :
    ∃ x3 y3, addPoints p a (.aff ux uy) (.aff vx vy) = .ok (.aff x3 y3) ∧ x3 < p ∧ y3 < p ∧
      (x3 : ZMod p) = (curveOf p a b).addX ux vx ((curveOf p a b).slope ux vx uy vy) ∧
      (y3 : ZMod p) = (curveOf p a b).addY ux vx uy ((curveOf p a b).slope ux vx uy vy) := by
  have hpos : 0 < p := prime_pos
  have hfin : ∀ s : Nat, (s : ZMod p) = (curveOf p a b).slope ux vx uy vy →
      ∃ x3 y3, chordPoint p s ux uy vx = .aff x3 y3 ∧ x3 < p ∧ y3 < p ∧
        (x3 : ZMod p) = (curveOf p a b).addX ux vx ((curveOf p a b).slope ux vx uy vy) ∧
        (y3 : ZMod p) = (curveOf p a b).addY ux vx uy ((curveOf p a b).slope ux vx uy vy) := by
    intro s hs
    refine ⟨_, _, rfl, emod_lt _ hpos, emod_lt _ hpos, ?_, ?_⟩
    · rw [emod_zmod _ hpos, ← hs]
      simp [curveOf]; ring
    · rw [emod_zmod _ hpos, ← hs]
      push_cast
      rw [emod_zmod _ hpos]
      simp [curveOf, WeierstrassCurve.Affine.addY]
      ring
  by_cases hx : ux = vx
  · subst hx
    have hyy : uy = vy := by
      by_contra hne
      have hsq : (uy : ZMod p) ^ 2 = (vy : ZMod p) ^ 2 := by rw [hu, hv]
      rcases sq_eq_sq_iff_eq_or_eq_neg.1 hsq with h | h
      · exact hne ((cast_inj huy hvy).1 h)
      · exact hn ⟨rfl, h⟩
    subst hyy
    have hy0 : uy ≠ 0 := by
      rintro rfl
      exact hn ⟨rfl, by simp⟩
    have two_ne : (2 : ZMod p) ≠ 0 := by
      intro h
      have hd : p ∣ 2 := (ZMod.natCast_eq_zero_iff 2 p).1 (by simpa using h)
      have := hpf.out.two_le
      have := Nat.le_of_dvd (by omega) hd
      omega
    have huy0 : (uy : ZMod p) ≠ 0 := fun h => hy0 ((cast_eq_zero_iff huy).1 h)
    have hden : 2 * uy % p ≠ 0 := by
      intro h
      have : ((2 * uy % p : Nat) : ZMod p) = 0 := by rw [h]; simp
      rw [ZMod.natCast_mod] at this
      push_cast at this
      rcases mul_eq_zero.1 this with h | h
      · exact two_ne h
      · exact huy0 h
    obtain ⟨s, hs, hsz⟩ := slopeOf_ok ((3 * ux * ux + a) % p) hden (Nat.mod_lt _ hpos)
    have hslope : (s : ZMod p) = (curveOf p a b).slope ux ux uy uy := by
      rw [hsz, ZMod.natCast_mod, ZMod.natCast_mod, WeierstrassCurve.Affine.slope_of_Y_ne rfl]
      · rw [curveOf_negY]
        simp only [curveOf]
        push_cast
        congr 1 <;> ring
      · rw [curveOf_negY]
        intro h
        exact hn ⟨rfl, h⟩
    obtain ⟨x3, y3, e, r⟩ := hfin s hslope
    refine ⟨x3, y3, ?_, r⟩
    simp [addPoints, hy0, hs, e]
  · have hxz : (ux : ZMod p) ≠ vx := fun h => hx ((cast_inj hux hvx).1 h)
    have hden : emod ((vx : Int) - ux) p ≠ 0 := by
      intro h
      have hz := emod_zmod ((vx : Int) - ux) hpos
      rw [h] at hz
      push_cast at hz
      exact hxz (by linear_combination hz)
    obtain ⟨s, hs, hsz⟩ := slopeOf_ok (emod ((vy : Int) - uy) p) hden (emod_lt _ hpos)
    have hslope : (s : ZMod p) = (curveOf p a b).slope ux vx uy vy := by
      rw [hsz, emod_zmod _ hpos, emod_zmod _ hpos, WeierstrassCurve.Affine.slope_of_X_ne hxz]
      push_cast
      rw [← neg_sub (uy : ZMod p), ← neg_sub (ux : ZMod p), neg_div_neg_eq]
    obtain ⟨x3, y3, e, r⟩ := hfin s hslope
    refine ⟨x3, y3, ?_, r⟩
    simp [addPoints, hx, hs, e]

/-- The sum of two affine points of the curve that are opposite. -/
theorem addPoints_opposite {a ux uy vy : Nat} (h2 : p ≠ 2) (huy : uy < p) (hvy : vy < p)
    (hn : (uy : ZMod p) = -(vy : ZMod p)) : addPoints p a (.aff ux uy) (.aff ux vy) = .ok .inf := by
  by_cases hy : uy = vy
  · subst hy
    have h : (2 : ZMod p) * (uy : ZMod p) = 0 := by linear_combination hn
    have : uy = 0 := by
      rcases mul_eq_zero.1 h with h | h
      · exfalso
        have hd : p ∣ 2 := (ZMod.natCast_eq_zero_iff 2 p).1 (by simpa using h)
        have := hpf.out.two_le
        have := Nat.le_of_dvd (by omega) hd
        omega
      · exact (cast_eq_zero_iff huy).1 h
    simp [addPoints, this]
  · simp [addPoints, hy]

/-- A model point stands for a point of the group of nonsingular points. -/
def Represents (a b : Nat) : Point → (curveOf p a b).Point → Prop
  | .inf, .zero => True
  | .aff x y, .some x' y' _ => x < p ∧ y < p ∧ (x : ZMod p) = x' ∧ (y : ZMod p) = y'
  | _, _ => False

theorem Represents.unique {a b : Nat} {u v : Point} {q : (curveOf p a b).Point} (hu : Represents a b u q) (hv : Represents a b v q) :
    u = v := by
  cases u <;> cases v <;> cases q <;> simp_all [Represents]
  rename_i h1 h2
  obtain ⟨h1, h2, h3, h4⟩ := hu
  obtain ⟨g1, g2, g3, g4⟩ := hv
  exact ⟨(cast_inj h1 g1).1 (h3.trans g3.symm), (cast_inj h2 g2).1 (h4.trans g4.symm)⟩

/-- R223: over an odd prime, `Add` is the group's addition and does not fault. -/
theorem Represents.add {a b : Nat} (h2 : p ≠ 2) {u v : Point} {q r : (curveOf p a b).Point} (hu : Represents a b u q)
    (hv : Represents a b v r) : ∃ w, addPoints p a u v = .ok w ∧ Represents a b w (q + r) := by
  rcases u with _ | ⟨ux, uy⟩ <;> rcases q with _ | ⟨qx, qy, hq⟩ <;> try (simp [Represents] at hu; done)
  · exact ⟨v, rfl, by rw [← WeierstrassCurve.Affine.Point.zero_def, zero_add]; exact hv⟩
  rcases v with _ | ⟨vx, vy⟩ <;> rcases r with _ | ⟨rx, ry, hr⟩ <;> try (simp [Represents] at hv; done)
  · exact ⟨.aff ux uy, rfl, by rw [← WeierstrassCurve.Affine.Point.zero_def, add_zero]; exact hu⟩
  obtain ⟨h1, h2', rfl, rfl⟩ := hu
  obtain ⟨g1, g2, rfl, rfl⟩ := hv
  by_cases hn : (ux : ZMod p) = vx ∧ (uy : ZMod p) = -(vy : ZMod p)
  · have hx : ux = vx := (cast_inj h1 g1).1 hn.1
    subst hx
    refine ⟨.inf, addPoints_opposite h2 h2' g2 hn.2, ?_⟩
    rw [WeierstrassCurve.Affine.Point.add_of_Y_eq rfl (by rw [curveOf_negY]; exact hn.2)]
    trivial
  · obtain ⟨x3, y3, e, l1, l2, e1, e2⟩ := addPoints_chord h2 h1 h2' g1 g2 (curveOf_equation.1 hq.1)
      (curveOf_equation.1 hr.1) hn
    refine ⟨_, e, ?_⟩
    rw [WeierstrassCurve.Affine.Point.add_some (by rw [curveOf_negY]; exact hn)]
    exact ⟨l1, l2, e1, e2⟩

/-- R260: over an odd prime, the loop of double-and-add multiplies in the group and does not fault. -/
theorem Represents.smulLoop {a b : Nat} (h2 : p ≠ 2) (n : Nat) : ∀ (k : Nat) (acc run : Point)
    (q r : (curveOf p a b).Point), k < 2 ^ n → Represents a b acc q → Represents a b run r →
    ∃ w, Machine.smulLoop p a n k acc run = .ok w ∧ Represents a b w (q + k • r) := by
  induction n with
  | zero =>
    intro k acc run q r hk hq hr
    have : k = 0 := by simpa using hk
    subst this
    exact ⟨acc, rfl, by simpa using hq⟩
  | succ n ih =>
    intro k acc run q r hk hq hr
    obtain ⟨run', e2, hr'⟩ := hr.add h2 hr
    have hk2 : k / 2 < 2 ^ n := by rw [pow_succ] at hk; omega
    by_cases ho : k % 2 = 1
    · obtain ⟨acc', e1, hq'⟩ := hq.add h2 hr
      obtain ⟨w, e, hw⟩ := ih (k / 2) acc' run' _ _ hk2 hq' hr'
      refine ⟨w, by simp [Machine.smulLoop, ho, e1, e2, e], ?_⟩
      have : q + k • r = q + r + (k / 2) • (r + r) := by
        have hk : k = 2 * (k / 2) + 1 := by omega
        nth_rewrite 1 [hk]
        rw [add_smul, mul_smul, two_smul, one_smul, nsmul_add]
        abel
      rwa [this]
    · obtain ⟨w, e, hw⟩ := ih (k / 2) acc run' _ _ hk2 hq hr'
      refine ⟨w, by simp [Machine.smulLoop, ho, e2, e], ?_⟩
      have : q + k • r = q + (k / 2) • (r + r) := by
        have hk : k = 2 * (k / 2) := by omega
        nth_rewrite 1 [hk]
        rw [mul_smul, two_smul, nsmul_add]
      rwa [this]

/-- R260: over an odd prime, `SMul(U, k)` is k times U in the group. -/
theorem Represents.smul {a b : Nat} (h2 : p ≠ 2) (k : Nat) {u : Point} {q : (curveOf p a b).Point} (hu : Represents a b u q) :
    ∃ w, Machine.smul p a u k = .ok w ∧ Represents a b w (k • q) := by
  obtain ⟨w, e, hw⟩ := Represents.smulLoop h2 (bitlen k) k .inf u .zero q (lt_two_pow_bitlen k) trivial hu
  rw [← WeierstrassCurve.Affine.Point.zero_def, zero_add] at hw
  exact ⟨w, e, hw⟩

/-- A point of the curve either stands for a nonsingular point, or is the singular one, which is its own opposite. -/
theorem represents_or_singular {a b : Nat} (h2 : p ≠ 2) {u : Point} (hu : onCurve p a b u = true) :
    (∃ q : (curveOf p a b).Point, Represents a b u q) ∨ ∃ x, u = .aff x 0 := by
  rcases u with _ | ⟨x, y⟩
  · exact .inl ⟨.zero, trivial⟩
  · obtain ⟨hx, hy, he⟩ := (onCurve_aff_iff prime_pos).1 hu
    by_cases hy0 : y = 0
    · subst hy0; exact .inr ⟨x, rfl⟩
    · left
      have hne : (y : ZMod p) ≠ 0 := fun h => hy0 ((cast_eq_zero_iff hy).1 h)
      have hns : (curveOf p a b).Nonsingular (x : ZMod p) (y : ZMod p) := by
        rw [WeierstrassCurve.Affine.nonsingular_iff]
        refine ⟨curveOf_equation.2 he, .inr ?_⟩
        simp only [curveOf]
        intro h
        have h3 : (2 : ZMod p) * (y : ZMod p) = 0 := by linear_combination h
        rcases mul_eq_zero.1 h3 with h | h
        · have hd : p ∣ 2 := (ZMod.natCast_eq_zero_iff 2 p).1 (by simpa using h)
          have := hpf.out.two_le
          have := Nat.le_of_dvd (by omega) hd
          omega
        · exact hne h
      exact ⟨.some _ _ hns, hx, hy, rfl, rfl⟩

end Prime

end Sys2Proof.Machine
end

