-- ==== Sys2Proof/Laws/Window.lean ====
section
/-! SUPPORT. Sys2Proof/Laws/Window.lean: what each offset of the window names (R81), and the words of a 256-bit register
(R82). -/

namespace Sys2Proof.Machine

/-! ### The map -/

@[simp] theorem slotAt_x (i : XIdx) (j : Fin 8) : slotAt (0x100 + 0x20 * i.val + 4 * j.val) = .x i j := by
  revert i j; decide

@[simp] theorem slotAt_curve (c : CurveReg) (j : Fin 8) : slotAt (offCurve c + 4 * j.val) = .curve c j := by
  cases c <;> revert j <;> decide

theorem curveAt_none {n : Nat} (h : 6 ≤ n) : curveAt n = none := by
  unfold curveAt
  split <;> first | omega | rfl

theorem slotAt_reserved {off : Nat} (h : (0x020 ≤ off ∧ off < 0x100) ∨ (0x3C0 ≤ off ∧ off < 0x1000)) :
    slotAt off = .reserved := by
  unfold slotAt
  rcases h with h | h
  · rw [if_neg (by omega), if_pos (by omega)]
  · rw [if_neg (by omega), if_neg (by omega), if_neg (by omega), curveAt_none (by omega)]

@[simp] theorem slotAt_id : slotAt 0x000 = .id := by decide

@[simp] theorem slotAt_ctrl : slotAt 0x004 = .ctrl := by decide

@[simp] theorem slotAt_cmd : slotAt 0x008 = .cmd := by decide

@[simp] theorem slotAt_status : slotAt 0x00C = .status := by decide

@[simp] theorem slotAt_ie : slotAt 0x010 = .ie := by decide

@[simp] theorem slotAt_flags : slotAt 0x014 = .flags := by decide

@[simp] theorem slotAt_errcmd : slotAt 0x018 = .errcmd := by decide

@[simp] theorem slotAt_pinf : slotAt 0x01C = .pinf := by decide

theorem exists_slotAt_x {off : Nat} (h4 : off % 4 = 0) (h1 : 0x100 ≤ off) (h2 : off < 0x300) :
    ∃ i j, slotAt off = .x i j ∧ off = 0x100 + 0x20 * i.val + 4 * j.val := by
  refine ⟨Fin.ofNat 16 ((off - 0x100) / 0x20), Fin.ofNat 8 (off / 4), ?_, ?_⟩
  · unfold slotAt
    rw [if_neg (by omega), if_neg (by omega), if_pos (by omega)]
  · simp [Fin.ofNat]
    omega

theorem exists_slotAt_curve {off : Nat} (h4 : off % 4 = 0) (h1 : 0x300 ≤ off) (h2 : off < 0x3C0) :
    ∃ c j, slotAt off = .curve c j ∧ off = offCurve c + 4 * j.val := by
  have hn : (off - 0x300) / 0x20 < 6 := by omega
  have hc : ∃ c, curveAt ((off - 0x300) / 0x20) = some c ∧ offCurve c = 0x300 + 0x20 * ((off - 0x300) / 0x20) := by
    generalize (off - 0x300) / 0x20 = n at hn
    interval_cases n <;> exact ⟨_, rfl, rfl⟩
  obtain ⟨c, e, e2⟩ := hc
  refine ⟨c, Fin.ofNat 8 (off / 4), ?_, ?_⟩
  · unfold slotAt
    rw [if_neg (by omega), if_neg (by omega), if_neg (by omega), e]
  · simp [Fin.ofNat]
    omega

/-- The offset of a slot; 0x020 stands for all the reserved ones. -/
def Slot.offset : Slot → Nat
  | .id => 0x000
  | .ctrl => 0x004
  | .cmd => 0x008
  | .status => 0x00C
  | .ie => 0x010
  | .flags => 0x014
  | .errcmd => 0x018
  | .pinf => 0x01C
  | .x i j => 0x100 + 0x20 * i.val + 4 * j.val
  | .curve c j => offCurve c + 4 * j.val
  | .reserved => 0x020

/-- R81: an aligned offset inside the window is reserved, or is the one offset of what it names. -/
theorem slotAt_cases {off : Nat} (h4 : off % 4 = 0) (hlt : off < 0x1000) :
    slotAt off = .reserved ∨ off = (slotAt off).offset := by
  by_cases h1 : off < 0x20
  · right
    have : ∃ k, k < 8 ∧ off = 4 * k := ⟨off / 4, by omega, by omega⟩
    obtain ⟨k, hk, rfl⟩ := this
    interval_cases k <;> rfl
  · by_cases h2 : off < 0x100
    · exact .inl (slotAt_reserved (.inl ⟨by omega, h2⟩))
    · by_cases h3 : off < 0x300
      · obtain ⟨i, j, e, e'⟩ := exists_slotAt_x h4 (by omega) h3
        exact .inr (by rw [e]; exact e')
      · by_cases h5 : off < 0x3C0
        · obtain ⟨c, j, e, e'⟩ := exists_slotAt_curve h4 (by omega) h5
          exact .inr (by rw [e]; exact e')
        · exact .inl (slotAt_reserved (.inr ⟨by omega, hlt⟩))

/-! ### The words of a register -/

theorem low_mask_bit (n : Nat) : (0xFFFFFFFF#256).getLsbD n = decide (n < 32) := by
  by_cases h : n < 256
  · have : ∀ m : Fin 256, (0xFFFFFFFF#256).getLsbD m.val = decide (m.val < 32) := by decide +kernel
    exact this ⟨n, h⟩
  · rw [BitVec.getLsbD_of_ge _ _ (by omega)]
    simp
    omega

/-- R82: `putWord` replaces the 32 bits of word j and no other bit. -/
theorem putWord_bit (v : Val) (j : Fin 8) (w : Word) (n : Nat) : (putWord v j w).getLsbD n =
    if 32 * j.val ≤ n ∧ n < 32 * j.val + 32 then w.getLsbD (n - 32 * j.val) else v.getLsbD n := by
  have hj := j.isLt
  unfold putWord
  simp only [BitVec.getLsbD_or, BitVec.getLsbD_and, BitVec.getLsbD_not, BitVec.getLsbD_shiftLeft,
    BitVec.getLsbD_setWidth, low_mask_bit]
  by_cases hn : n < 256
  · by_cases h1 : n < 32 * j.val
    · have : ¬(32 * j.val ≤ n ∧ n < 32 * j.val + 32) := by omega
      rw [if_neg this]
      simp [hn, h1]
    · by_cases h2 : n - 32 * j.val < 32
      · have h3 : 32 * j.val ≤ n ∧ n < 32 * j.val + 32 := by omega
        have h4 : n - 32 * j.val < 256 := by omega
        simp [hn, h1, h2, h3, h4]
      · have h3 : ¬(32 * j.val ≤ n ∧ n < 32 * j.val + 32) := by omega
        rw [if_neg h3, BitVec.getLsbD_of_ge w _ (by omega)]
        simp [hn, h1, h2]
  · have h3 : ¬(32 * j.val ≤ n ∧ n < 32 * j.val + 32) := by omega
    rw [if_neg h3, BitVec.getLsbD_of_ge v _ (by omega)]
    simp [hn]

@[simp] theorem getWord_putWord (v : Val) (j : Fin 8) (w : Word) : getWord (putWord v j w) j = w := by
  apply BitVec.eq_of_getLsbD_eq
  intro i hi
  simp only [getWord, BitVec.getLsbD_extractLsb', putWord_bit]
  simp [hi]

theorem getWord_putWord_ne (v : Val) {j k : Fin 8} (w : Word) (h : k ≠ j) :
    getWord (putWord v j w) k = getWord v k := by
  apply BitVec.eq_of_getLsbD_eq
  intro i hi
  simp only [getWord, BitVec.getLsbD_extractLsb', putWord_bit]
  have : k.val ≠ j.val := fun e => h (Fin.ext e)
  rw [if_neg (by omega)]

theorem getWord_toNat (v : Val) (j : Fin 8) : (getWord v j).toNat = v.toNat / 2 ^ (32 * j.val) % 2 ^ 32 := by
  simp [getWord, BitVec.extractLsb'_toNat, Nat.shiftRight_eq_div_pow]

/-! ### Reads do not see the port -/

@[simp] theorem memRead_withPort (off : Nat) (s : State) (p : Port) : memRead off { s with port := p } = memRead off s :=
  rfl

end Sys2Proof.Machine
end

