-- ==== Sys2Proof/Laws/InFlight.lean ====
section
/-! SUPPORT. Sys2Proof/Laws/InFlight.lean: which parts of the state decide a completion, and that an access of the host's
leaves them alone while a command is in flight (R95, R306); and the parts of `State.Inv` an access keeps. -/

namespace Sys2Proof.Machine

/-- The two states differ in IE, WERR and the port at most. -/
structure State.Agree (s t : State) : Prop where
  regs : t.regs = s.regs
  flags : t.flags = s.flags
  errcmd : t.errcmd = s.errcmd
  cmd : t.cmd = s.cmd
  pending : t.pending = s.pending
  busy : t.status.busy = s.status.busy
  done : t.status.done = s.status.done
  err : t.status.err = s.status.err
  errcode : t.status.errcode = s.status.errcode

theorem State.Agree.iff {s t : State} :
    s.Agree t ↔ ∃ ie w p, t = { s with ie := ie, port := p, status := { s.status with werr := w } } := by
  constructor
  · rintro ⟨_, _, _, _, _, _, _, _, _⟩
    refine ⟨t.ie, t.status.werr, t.port, ?_⟩
    rcases t with ⟨_, _, ⟨_, _, _, _, _⟩, _, _, _, _, _⟩
    rcases s with ⟨_, _, ⟨_, _, _, _, _⟩, _, _, _, _, _⟩
    simp_all
  · rintro ⟨ie, w, p, rfl⟩
    constructor <;> rfl

theorem State.Agree.refl (s : State) : s.Agree s := by constructor <;> rfl

theorem State.Agree.trans {a b c : State} (h : a.Agree b) (k : b.Agree c) : a.Agree c := by
  obtain ⟨_, _, _, rfl⟩ := State.Agree.iff.1 h
  obtain ⟨_, _, _, rfl⟩ := State.Agree.iff.1 k
  constructor <;> rfl

theorem finish_agree {α : Type} (r : Except FaultCode α) (commit : α → State → State) (s t : State) (h : s.Agree t)
    (hc : ∀ v, (commit v s).Agree (commit v t)) :
    ∃ s' t', finish r commit s = .next s' ∧ finish r commit t = .next t' ∧ s'.Agree t' := by
  cases r
  · refine ⟨_, _, rfl, rfl, ?_⟩
    obtain ⟨_, _, _, rfl⟩ := State.Agree.iff.1 h
    constructor <;> rfl
  · rename_i v
    refine ⟨_, _, rfl, rfl, ?_⟩
    obtain ⟨_, _, _, e⟩ := State.Agree.iff.1 (hc v)
    simp only [e]
    constructor <;> rfl

/-- A completion reads and writes nothing that `Agree` leaves open. -/
theorem exec_agree (i : Instr) (s t : State) (h : s.Agree t) :
    ∃ s' t', exec i s = .next s' ∧ exec i t = .next t' ∧ s'.Agree t' := by
  obtain ⟨ie, w, p, rfl⟩ := State.Agree.iff.1 h
  cases i <;> simp only [exec, execNop, execFadd, execFsub, execFmul, execFdiv, execFpow, execFneg, execFinv, execFsqrt,
    execMmul, execBred, execPadd, execPdbl, execPneg, execPsub, execPeq, execPchk, execSmul, execPubk] <;>
    exact finish_agree _ _ _ _ h (fun v => by constructor <;> rfl)

theorem complete_agree (s t : State) (h : s.Agree t) :
    ∃ s' t', complete s = .next s' ∧ complete t = .next t' ∧ s'.Agree t' := by
  unfold complete
  rw [h.pending]
  split
  · exact ⟨_, _, rfl, rfl, h⟩
  · unfold completeWord
    split
    · refine ⟨_, _, rfl, rfl, ?_⟩
      obtain ⟨_, _, _, rfl⟩ := State.Agree.iff.1 h
      constructor <;> rfl
    · exact exec_agree _ _ _ h

theorem respond_agree {s t : State} (r : Reply) (h : s.Agree t) : s.Agree (respond r t) := by
  obtain ⟨_, _, _, rfl⟩ := State.Agree.iff.1 h
  constructor <;> rfl

theorem offset_of_ctrl {off : Nat} (h4 : off % 4 = 0) (hlt : off < 0x1000) (h : slotAt off = .ctrl) : off = 0x004 := by
  rcases slotAt_cases h4 hlt with e | e
  · rw [h] at e
    cases e
  · rw [e, h]
    rfl

theorem offset_of_status {off : Nat} (h4 : off % 4 = 0) (hlt : off < 0x1000) (h : slotAt off = .status) :
    off = 0x00C := by
  rcases slotAt_cases h4 hlt with e | e
  · rw [h] at e
    cases e
  · rw [e, h]
    rfl

/-- R95, R306: an access that is no soft reset leaves a command in flight alone. -/
theorem serve_agree (s : State) (a : Access) (hi : s.Inv) (hb : s.status.busy = true) (ha : isSoftReset a = false) :
    s.Agree (serve a s) ∧ (serve a s).port.turns = s.port.turns := by
  have hd := hi.in_flight hb
  have hc : s.status.errcode = none := by
    have := hi.code_iff
    rw [hd.2] at this
    simpa using this.symm
  have self := State.Agree.refl s
  have drop : s.Agree (dropWrite s) := by constructor <;> rfl
  have wi : ∀ f : State → State, whileIdle f s = dropWrite s := fun f => by simp [whileIdle, hb]
  unfold serve
  split
  · exact ⟨respond_agree _ self, rfl⟩
  · split
    · exact ⟨respond_agree _ self, rfl⟩
    · rename_i h1 h2
      split
      · exact ⟨respond_agree _ self, rfl⟩
      · rename_i v hv
        have : s.Agree (memWrite a.offset v s) ∧ (memWrite a.offset v s).port.turns = s.port.turns := by
          unfold memWrite
          split
          · exact ⟨self, rfl⟩
          · rename_i hs
            have : v.getLsbD 0 = false := by
              simp only [windowBytes, not_le] at h1
              simp only [ne_eq, not_or, not_not] at h2
              have h3 := offset_of_ctrl h2.2 h1 hs
              simpa [isSoftReset, hv, h2.1, h3] using ha
            simp only [this]
            exact ⟨self, rfl⟩
          · rw [wi]
            exact ⟨drop, rfl⟩
          · refine ⟨?_, rfl⟩
            constructor <;> simp [acknowledge, Status.clear, hd, hc]
          · exact ⟨by constructor <;> rfl, rfl⟩
          · exact ⟨self, rfl⟩
          · exact ⟨self, rfl⟩
          · rw [wi]
            exact ⟨drop, rfl⟩
          · rw [wi]
            exact ⟨drop, rfl⟩
          · rw [wi]
            exact ⟨drop, rfl⟩
          · exact ⟨self, rfl⟩
        exact ⟨respond_agree _ this.1, this.2⟩

/-! ### The invariant -/

theorem Inv.withTurns {s : State} (ts : List Turn) (h : s.Inv) : (withTurns ts s).Inv := by
  obtain ⟨a, b, c, d, e⟩ := h
  exact ⟨a, b, c, d, e⟩

theorem Inv.respond {s : State} (r : Reply) (h : s.Inv) : (respond r s).Inv := by
  obtain ⟨a, b, c, d, e⟩ := h
  exact ⟨a, b, c, d, e⟩

theorem Inv.resetEccu (s : State) : (resetEccu s).Inv := by
  constructor <;> simp [Machine.resetEccu, State.reset]

theorem Inv.accept (w : Word) (s : State) : (accept w s).Inv := by
  constructor <;> simp [Machine.accept]

theorem Inv.faultDone {s : State} (c : FaultCode) (h : s.Inv) (hp : s.pending ≠ .idle) : (faultDone c s).Inv := by
  obtain ⟨a, b, _, d, e⟩ := h
  constructor <;> simp [Machine.faultDone]
  unfold State.word
  split
  · rename_i w s0 hh
    exact (b _ _ hh).1.symm
  · rename_i hh
    exact absurd hh hp

theorem Inv.okDone {s : State} (r : Regs) (f : Flags) (h : s.Inv) : (okDone r f s).Inv := by
  obtain ⟨a, b, c, d, e⟩ := h
  constructor <;> simp [Machine.okDone]
  · exact d
  · exact e

theorem Inv.memWrite {s : State} (off : Nat) (v : Word) (h : s.Inv) : (memWrite off v s).Inv := by
  have hi : s.status.busy = false → s.pending = .idle := by
    intro hb
    by_contra hc
    have := h.busy_iff.2 hc
    simp [hb] at this
  have idle : ∀ r : Regs, s.status.busy = false → State.Inv { s with regs := r } := by
    intro r hb
    have := hi hb
    obtain ⟨a, b, c, d, e⟩ := h
    exact ⟨a, by simp [this], c, d, e⟩
  have drop : State.Inv (dropWrite s) := by
    obtain ⟨a, b, c, d, e⟩ := h
    exact ⟨a, b, c, d, e⟩
  have wi : ∀ f : State → State, (s.status.busy = false → (f s).Inv) → (whileIdle f s).Inv := by
    intro f hf
    unfold whileIdle
    split
    · exact drop
    · rename_i hb
      exact hf (by simpa using hb)
  unfold Machine.memWrite
  split
  · exact h
  · split
    · exact Inv.resetEccu s
    · exact h
  · exact wi _ fun _ => Inv.accept v s
  · obtain ⟨a, b, c, d, e⟩ := h
    constructor <;> simp [acknowledge, Status.clear]
    · exact a
    · exact b
    · intro hb
      simp [c hb]
    · split <;> simp_all
    · intro h1 _
      exact e h1
  · obtain ⟨a, b, c, d, e⟩ := h
    exact ⟨a, b, c, d, e⟩
  · exact h
  · exact h
  · exact wi _ (idle _)
  · exact wi _ (idle _)
  · exact wi _ (idle _)
  · exact h

theorem Inv.serve {s : State} (a : Access) (h : s.Inv) : (serve a s).Inv := by
  unfold Machine.serve
  split
  · exact Inv.respond _ h
  · split
    · exact Inv.respond _ h
    · split
      · exact Inv.respond _ h
      · exact Inv.respond _ (Inv.memWrite _ _ h)

end Sys2Proof.Machine
end

