-- ==== Sys2Proof/Machine/Assembly.lean ====
section
/-! DEFINITION. Sys2Proof/Machine/Assembly.lean: the assembler (30_encoding.md R131): lines to commands and back, and
the pseudo-instructions, command-level and host-level (R132), the latter as turns of the schedule. Nothing in the machine's
step rests on this file. -/

namespace Sys2Proof.Machine

/-- R131: one operand of an assembly line, `xK` or `pK`. -/
inductive AsmOperand where
  | x (k : Nat)
  | p (k : Nat)
  deriving DecidableEq, Repr

/-- R131: one line, `mnemonic[.n][.s] operands`. -/
structure AsmLine where
  mnemonic : String
  n : Bool
  s : Bool
  operands : List AsmOperand
  deriving DecidableEq, Repr

/-! ### From a command to its line -/

/-- R131: an X operand. -/
def xOperand (i : XIdx) : AsmOperand := .x i.val

/-- R131: a point operand. -/
def pOperand (i : PIdx) : AsmOperand := .p i.val

/-- R131: the assembly line of a command. -/
def asmLine : Instr → AsmLine
  | .nop => ⟨"nop", false, false, []⟩
  | .fadd ms rd ra rb => ⟨"fadd", ms, false, [xOperand rd, xOperand ra, xOperand rb]⟩
  | .fsub ms rd ra rb => ⟨"fsub", ms, false, [xOperand rd, xOperand ra, xOperand rb]⟩
  | .fmul ms rd ra rb => ⟨"fmul", ms, false, [xOperand rd, xOperand ra, xOperand rb]⟩
  | .fdiv ms rd ra rb => ⟨"fdiv", ms, false, [xOperand rd, xOperand ra, xOperand rb]⟩
  | .fpow ms se rd ra rb => ⟨"fpow", ms, se, [xOperand rd, xOperand ra, xOperand rb]⟩
  | .fneg ms rd ra => ⟨"fneg", ms, false, [xOperand rd, xOperand ra]⟩
  | .finv ms rd ra => ⟨"finv", ms, false, [xOperand rd, xOperand ra]⟩
  | .fsqrt ms rd ra => ⟨"fsqrt", ms, false, [xOperand rd, xOperand ra]⟩
  | .mmul ms rd ra rb => ⟨"mmul", ms, false, [xOperand rd, xOperand ra, xOperand rb]⟩
  | .bred ms rd rhi rlo => ⟨"bred", ms, false, [xOperand rd, xOperand rhi, xOperand rlo]⟩
  | .padd rd ra rb => ⟨"padd", false, false, [pOperand rd, pOperand ra, pOperand rb]⟩
  | .pdbl rd ra => ⟨"pdbl", false, false, [pOperand rd, pOperand ra]⟩
  | .pneg rd ra => ⟨"pneg", false, false, [pOperand rd, pOperand ra]⟩
  | .psub rd ra rb => ⟨"psub", false, false, [pOperand rd, pOperand ra, pOperand rb]⟩
  | .peq ra rb => ⟨"peq", false, false, [pOperand ra, pOperand rb]⟩
  | .pchk ra => ⟨"pchk", false, false, [pOperand ra]⟩
  | .smul rd ra rb => ⟨"smul", false, false, [pOperand rd, pOperand ra, xOperand rb]⟩
  | .pubk rd rb => ⟨"pubk", false, false, [pOperand rd, xOperand rb]⟩

/-- R131: the text of an operand. -/
def AsmOperand.text : AsmOperand → String
  | .x k => "x" ++ toString k
  | .p k => "p" ++ toString k

/-- R131: the text of a line. -/
def AsmLine.text (l : AsmLine) : String :=
  l.mnemonic ++ (if l.n then ".n" else "") ++ (if l.s then ".s" else "") ++
    (if l.operands.isEmpty then "" else " " ++ ", ".intercalate (l.operands.map AsmOperand.text))

/-- R131: the assembly text of a command. -/
def asmText (i : Instr) : String := (asmLine i).text

/-! ### From a line to its command -/

/-- R131: a number as an X index; "a register number out of range" is rejected. -/
def asX (k : Nat) : Option XIdx := if h : k < 16 then some ⟨k, h⟩ else none

/-- R131: a number as a point index; "a register number out of range" is rejected. -/
def asP (k : Nat) : Option PIdx := if h : k < 8 then some ⟨k, h⟩ else none

/-- R131: operands `xD, xA, xB`; "an operand of the wrong kind" is rejected. -/
def asXXX (f : XIdx → XIdx → XIdx → Instr) : List AsmOperand → Option Instr
  | [.x d, .x a, .x b] => (asX d).bind fun rd => (asX a).bind fun ra => (asX b).map fun rb => f rd ra rb
  | _ => none

/-- R131: operands `xD, xA`. -/
def asXX (f : XIdx → XIdx → Instr) : List AsmOperand → Option Instr
  | [.x d, .x a] => (asX d).bind fun rd => (asX a).map fun ra => f rd ra
  | _ => none

/-- R131: operands `pD, pA, pB`. -/
def asPPP (f : PIdx → PIdx → PIdx → Instr) : List AsmOperand → Option Instr
  | [.p d, .p a, .p b] => (asP d).bind fun rd => (asP a).bind fun ra => (asP b).map fun rb => f rd ra rb
  | _ => none

/-- R131: operands `pD, pA`, and `pA, pB` of PEQ. -/
def asPP (f : PIdx → PIdx → Instr) : List AsmOperand → Option Instr
  | [.p d, .p a] => (asP d).bind fun rd => (asP a).map fun ra => f rd ra
  | _ => none

/-- R131: operand `pA` of PCHK. -/
def asP1 (f : PIdx → Instr) : List AsmOperand → Option Instr
  | [.p a] => (asP a).map f
  | _ => none

/-- R131: operands `pD, pA, xB` of SMUL. -/
def asPPX (f : PIdx → PIdx → XIdx → Instr) : List AsmOperand → Option Instr
  | [.p d, .p a, .x b] => (asP d).bind fun rd => (asP a).bind fun ra => (asX b).map fun rb => f rd ra rb
  | _ => none

/-- R131: operands `pD, xB` of PUBK. -/
def asPX (f : PIdx → XIdx → Instr) : List AsmOperand → Option Instr
  | [.p d, .x b] => (asP d).bind fun rd => (asX b).map fun rb => f rd rb
  | _ => none

/-- R132: `fsqr[.n] xD, xA`. -/
def fsqr (ms : Bool) (rd ra : XIdx) : Instr := .fmul ms rd ra ra

/-- R132: `fdbl[.n] xD, xA`. -/
def fdbl (ms : Bool) (rd ra : XIdx) : Instr := .fadd ms rd ra ra

/-- R131, R132: the forms that take `.n` (R127 marks MS as `u`) and no `.s`. -/
def assembleField (mnemonic : String) (n : Bool) (ops : List AsmOperand) : Option Instr :=
  match mnemonic with
  | "fadd" => asXXX (.fadd n) ops
  | "fsub" => asXXX (.fsub n) ops
  | "fmul" => asXXX (.fmul n) ops
  | "fdiv" => asXXX (.fdiv n) ops
  | "fneg" => asXX (.fneg n) ops
  | "finv" => asXX (.finv n) ops
  | "fsqrt" => asXX (.fsqrt n) ops
  | "mmul" => asXXX (.mmul n) ops
  | "bred" => asXXX (.bred n) ops
  | "fsqr" => asXX (fsqr n) ops
  | "fdbl" => asXX (fdbl n) ops
  | _ => none

/-- R131: the forms that take no suffix. -/
def assemblePlain (mnemonic : String) (ops : List AsmOperand) : Option Instr :=
  match mnemonic with
  | "nop" => if ops.isEmpty then some .nop else none
  | "padd" => asPPP .padd ops
  | "pdbl" => asPP .pdbl ops
  | "pneg" => asPP .pneg ops
  | "psub" => asPPP .psub ops
  | "peq" => asPP .peq ops
  | "pchk" => asP1 .pchk ops
  | "smul" => asPPX .smul ops
  | "pubk" => asPX .pubk ops
  | _ => none

/-- R131, R132: the command of a line, or nothing where an assembler rejects the line: "any other suffix, a register number
out of range, or an operand of the wrong kind". -/
def assemble (l : AsmLine) : Option Instr :=
  if l.mnemonic = "fpow" then asXXX (.fpow l.n l.s) l.operands
  else if l.s then none
  else (assembleField l.mnemonic l.n l.operands).or (if l.n then none else assemblePlain l.mnemonic l.operands)

/-! ### Host-level pseudo-operations -/

/-- R132: `wr32 OFF, v`. -/
def wr32 (off : Nat) (v : Word) : Turn := .host ⟨.write v, .bits32, off⟩

/-- R132: `rd32 OFF`. -/
def rd32 (off : Nat) : Turn := .host ⟨.read, .bits32, off⟩

/-- R132: `wr256 R, v` for the register with base offset `base`: eight writes, least significant word first. -/
def wr256 (base : Nat) (v : Val) : List Turn := (List.finRange 8).map fun j => wr32 (base + 4 * j.val) (getWord v j)

/-- R132: the reads of `rd256 R`. -/
def rd256 (base : Nat) : List Turn := (List.finRange 8).map fun j => rd32 (base + 4 * j.val)

/-- R132: `setinf m`. -/
def setinf (m : Word) : Turn := wr32 0x01C m

/-- R132: a command line. -/
def command (i : Instr) : Turn := wr32 offCmd (encode i)

/-- R132: `wait`, in a schedule that gives the sequencer its turn before the STATUS read that ends the loop. -/
def waitDone : List Turn := [.sequencer, rd32 0x00C]

/-- R132: `clrst`. -/
def clrst : Turn := wr32 0x00C 0x0000000E

/-- R132: `srst`. -/
def srst : Turn := wr32 0x004 0x00000001

end Sys2Proof.Machine
end

