-- ==== Sys2Proof/Laws/PerInstr.lean ====
section
/-! SUPPORT. Sys2Proof/Laws/PerInstr.lean: statements about every command as syntax, one lemma for each constructor of
`Instr`: its fields pass the check of R128 (family WellFormed), and the assembler reads its line back (family
Assembles). -/

namespace Sys2Proof.Laws

/-- R128: the fields of the command have none of the four causes of ILLEGAL. -/
def WellFormed.Statement (i : Instr) : Prop := i.WellFormed

/-- R131: the line of the command assembles to it. -/
def Assembles.Statement (i : Instr) : Prop := Machine.assemble (Machine.asmLine i) = some i

theorem pField_bit3 (i : PIdx) : (pField i)[3] = false := by revert i; decide

theorem asX_val (i : XIdx) : Machine.asX i.val = some i := by simp [Machine.asX]

theorem asP_val (i : PIdx) : Machine.asP i.val = some i := by simp [Machine.asP]

/-! ### WellFormed -/

theorem WellFormed.nop : WellFormed.Statement (.nop) := by
  unfold WellFormed.Statement
  decide

theorem WellFormed.fadd (ms : Bool) (rd : XIdx) (ra : XIdx) (rb : XIdx) : WellFormed.Statement (.fadd ms rd ra rb) := by
  have h : Op.ofCode (Op.code .fadd) = some .fadd := by decide
  simp [Statement, Instr.WellFormed, Fields.WellFormed, Fields.defect, Instr.fields, mkFields, h, Usage.defect, Op.usage,
    FieldUse.defect]

theorem WellFormed.fsub (ms : Bool) (rd : XIdx) (ra : XIdx) (rb : XIdx) : WellFormed.Statement (.fsub ms rd ra rb) := by
  have h : Op.ofCode (Op.code .fsub) = some .fsub := by decide
  simp [Statement, Instr.WellFormed, Fields.WellFormed, Fields.defect, Instr.fields, mkFields, h, Usage.defect, Op.usage,
    FieldUse.defect]

theorem WellFormed.fmul (ms : Bool) (rd : XIdx) (ra : XIdx) (rb : XIdx) : WellFormed.Statement (.fmul ms rd ra rb) := by
  have h : Op.ofCode (Op.code .fmul) = some .fmul := by decide
  simp [Statement, Instr.WellFormed, Fields.WellFormed, Fields.defect, Instr.fields, mkFields, h, Usage.defect, Op.usage,
    FieldUse.defect]

theorem WellFormed.fdiv (ms : Bool) (rd : XIdx) (ra : XIdx) (rb : XIdx) : WellFormed.Statement (.fdiv ms rd ra rb) := by
  have h : Op.ofCode (Op.code .fdiv) = some .fdiv := by decide
  simp [Statement, Instr.WellFormed, Fields.WellFormed, Fields.defect, Instr.fields, mkFields, h, Usage.defect, Op.usage,
    FieldUse.defect]

theorem WellFormed.fpow (ms : Bool) (se : Bool) (rd : XIdx) (ra : XIdx) (rb : XIdx) : WellFormed.Statement (.fpow ms se rd ra rb) := by
  have h : Op.ofCode (Op.code .fpow) = some .fpow := by decide
  simp [Statement, Instr.WellFormed, Fields.WellFormed, Fields.defect, Instr.fields, mkFields, h, Usage.defect, Op.usage,
    FieldUse.defect]

theorem WellFormed.fneg (ms : Bool) (rd : XIdx) (ra : XIdx) : WellFormed.Statement (.fneg ms rd ra) := by
  have h : Op.ofCode (Op.code .fneg) = some .fneg := by decide
  simp [Statement, Instr.WellFormed, Fields.WellFormed, Fields.defect, Instr.fields, mkFields, h, Usage.defect, Op.usage,
    FieldUse.defect]

theorem WellFormed.finv (ms : Bool) (rd : XIdx) (ra : XIdx) : WellFormed.Statement (.finv ms rd ra) := by
  have h : Op.ofCode (Op.code .finv) = some .finv := by decide
  simp [Statement, Instr.WellFormed, Fields.WellFormed, Fields.defect, Instr.fields, mkFields, h, Usage.defect, Op.usage,
    FieldUse.defect]

theorem WellFormed.fsqrt (ms : Bool) (rd : XIdx) (ra : XIdx) : WellFormed.Statement (.fsqrt ms rd ra) := by
  have h : Op.ofCode (Op.code .fsqrt) = some .fsqrt := by decide
  simp [Statement, Instr.WellFormed, Fields.WellFormed, Fields.defect, Instr.fields, mkFields, h, Usage.defect, Op.usage,
    FieldUse.defect]

theorem WellFormed.mmul (ms : Bool) (rd : XIdx) (ra : XIdx) (rb : XIdx) : WellFormed.Statement (.mmul ms rd ra rb) := by
  have h : Op.ofCode (Op.code .mmul) = some .mmul := by decide
  simp [Statement, Instr.WellFormed, Fields.WellFormed, Fields.defect, Instr.fields, mkFields, h, Usage.defect, Op.usage,
    FieldUse.defect]

theorem WellFormed.bred (ms : Bool) (rd : XIdx) (rhi : XIdx) (rlo : XIdx) : WellFormed.Statement (.bred ms rd rhi rlo) := by
  have h : Op.ofCode (Op.code .bred) = some .bred := by decide
  simp [Statement, Instr.WellFormed, Fields.WellFormed, Fields.defect, Instr.fields, mkFields, h, Usage.defect, Op.usage,
    FieldUse.defect]

theorem WellFormed.padd (rd : PIdx) (ra : PIdx) (rb : PIdx) : WellFormed.Statement (.padd rd ra rb) := by
  have h : Op.ofCode (Op.code .padd) = some .padd := by decide
  simp [Statement, Instr.WellFormed, Fields.WellFormed, Fields.defect, Instr.fields, mkFields, h, Usage.defect, Op.usage,
    FieldUse.defect, pField_bit3]

theorem WellFormed.pdbl (rd : PIdx) (ra : PIdx) : WellFormed.Statement (.pdbl rd ra) := by
  have h : Op.ofCode (Op.code .pdbl) = some .pdbl := by decide
  simp [Statement, Instr.WellFormed, Fields.WellFormed, Fields.defect, Instr.fields, mkFields, h, Usage.defect, Op.usage,
    FieldUse.defect, pField_bit3]

theorem WellFormed.pneg (rd : PIdx) (ra : PIdx) : WellFormed.Statement (.pneg rd ra) := by
  have h : Op.ofCode (Op.code .pneg) = some .pneg := by decide
  simp [Statement, Instr.WellFormed, Fields.WellFormed, Fields.defect, Instr.fields, mkFields, h, Usage.defect, Op.usage,
    FieldUse.defect, pField_bit3]

theorem WellFormed.psub (rd : PIdx) (ra : PIdx) (rb : PIdx) : WellFormed.Statement (.psub rd ra rb) := by
  have h : Op.ofCode (Op.code .psub) = some .psub := by decide
  simp [Statement, Instr.WellFormed, Fields.WellFormed, Fields.defect, Instr.fields, mkFields, h, Usage.defect, Op.usage,
    FieldUse.defect, pField_bit3]

theorem WellFormed.peq (ra : PIdx) (rb : PIdx) : WellFormed.Statement (.peq ra rb) := by
  have h : Op.ofCode (Op.code .peq) = some .peq := by decide
  simp [Statement, Instr.WellFormed, Fields.WellFormed, Fields.defect, Instr.fields, mkFields, h, Usage.defect, Op.usage,
    FieldUse.defect, pField_bit3]

theorem WellFormed.pchk (ra : PIdx) : WellFormed.Statement (.pchk ra) := by
  have h : Op.ofCode (Op.code .pchk) = some .pchk := by decide
  simp [Statement, Instr.WellFormed, Fields.WellFormed, Fields.defect, Instr.fields, mkFields, h, Usage.defect, Op.usage,
    FieldUse.defect, pField_bit3]

theorem WellFormed.smul (rd : PIdx) (ra : PIdx) (rb : XIdx) : WellFormed.Statement (.smul rd ra rb) := by
  have h : Op.ofCode (Op.code .smul) = some .smul := by decide
  simp [Statement, Instr.WellFormed, Fields.WellFormed, Fields.defect, Instr.fields, mkFields, h, Usage.defect, Op.usage,
    FieldUse.defect, pField_bit3]

theorem WellFormed.pubk (rd : PIdx) (rb : XIdx) : WellFormed.Statement (.pubk rd rb) := by
  have h : Op.ofCode (Op.code .pubk) = some .pubk := by decide
  simp [Statement, Instr.WellFormed, Fields.WellFormed, Fields.defect, Instr.fields, mkFields, h, Usage.defect, Op.usage,
    FieldUse.defect, pField_bit3]

/-! ### Assembles -/

theorem Assembles.nop : Assembles.Statement (.nop) := by
  simp [Assembles.Statement, Machine.asmLine, Machine.assemble, Machine.assembleField, Machine.assemblePlain]

theorem Assembles.fadd (ms : Bool) (rd : XIdx) (ra : XIdx) (rb : XIdx) : Assembles.Statement (.fadd ms rd ra rb) := by
  simp [Assembles.Statement, Machine.asmLine, Machine.assemble, Machine.assembleField, Machine.asXXX,
    Machine.xOperand, asX_val]

theorem Assembles.fsub (ms : Bool) (rd : XIdx) (ra : XIdx) (rb : XIdx) : Assembles.Statement (.fsub ms rd ra rb) := by
  simp [Assembles.Statement, Machine.asmLine, Machine.assemble, Machine.assembleField, Machine.asXXX,
    Machine.xOperand, asX_val]

theorem Assembles.fmul (ms : Bool) (rd : XIdx) (ra : XIdx) (rb : XIdx) : Assembles.Statement (.fmul ms rd ra rb) := by
  simp [Assembles.Statement, Machine.asmLine, Machine.assemble, Machine.assembleField, Machine.asXXX,
    Machine.xOperand, asX_val]

theorem Assembles.fdiv (ms : Bool) (rd : XIdx) (ra : XIdx) (rb : XIdx) : Assembles.Statement (.fdiv ms rd ra rb) := by
  simp [Assembles.Statement, Machine.asmLine, Machine.assemble, Machine.assembleField, Machine.asXXX,
    Machine.xOperand, asX_val]

theorem Assembles.fpow (ms : Bool) (se : Bool) (rd : XIdx) (ra : XIdx) (rb : XIdx) : Assembles.Statement (.fpow ms se rd ra rb) := by
  simp [Assembles.Statement, Machine.asmLine, Machine.assemble, Machine.asXXX, Machine.xOperand,
    asX_val]

theorem Assembles.fneg (ms : Bool) (rd : XIdx) (ra : XIdx) : Assembles.Statement (.fneg ms rd ra) := by
  simp [Assembles.Statement, Machine.asmLine, Machine.assemble, Machine.assembleField, Machine.asXX,
    Machine.xOperand, asX_val]

theorem Assembles.finv (ms : Bool) (rd : XIdx) (ra : XIdx) : Assembles.Statement (.finv ms rd ra) := by
  simp [Assembles.Statement, Machine.asmLine, Machine.assemble, Machine.assembleField, Machine.asXX,
    Machine.xOperand, asX_val]

theorem Assembles.fsqrt (ms : Bool) (rd : XIdx) (ra : XIdx) : Assembles.Statement (.fsqrt ms rd ra) := by
  simp [Assembles.Statement, Machine.asmLine, Machine.assemble, Machine.assembleField, Machine.asXX,
    Machine.xOperand, asX_val]

theorem Assembles.mmul (ms : Bool) (rd : XIdx) (ra : XIdx) (rb : XIdx) : Assembles.Statement (.mmul ms rd ra rb) := by
  simp [Assembles.Statement, Machine.asmLine, Machine.assemble, Machine.assembleField, Machine.asXXX,
    Machine.xOperand, asX_val]

theorem Assembles.bred (ms : Bool) (rd : XIdx) (rhi : XIdx) (rlo : XIdx) : Assembles.Statement (.bred ms rd rhi rlo) := by
  simp [Assembles.Statement, Machine.asmLine, Machine.assemble, Machine.assembleField, Machine.asXXX,
    Machine.xOperand, asX_val]

theorem Assembles.padd (rd : PIdx) (ra : PIdx) (rb : PIdx) : Assembles.Statement (.padd rd ra rb) := by
  simp [Assembles.Statement, Machine.asmLine, Machine.assemble, Machine.assembleField, Machine.assemblePlain,
    Machine.asPPP, Machine.pOperand, asP_val]

theorem Assembles.pdbl (rd : PIdx) (ra : PIdx) : Assembles.Statement (.pdbl rd ra) := by
  simp [Assembles.Statement, Machine.asmLine, Machine.assemble, Machine.assembleField, Machine.assemblePlain,
    Machine.asPP, Machine.pOperand, asP_val]

theorem Assembles.pneg (rd : PIdx) (ra : PIdx) : Assembles.Statement (.pneg rd ra) := by
  simp [Assembles.Statement, Machine.asmLine, Machine.assemble, Machine.assembleField, Machine.assemblePlain,
    Machine.asPP, Machine.pOperand, asP_val]

theorem Assembles.psub (rd : PIdx) (ra : PIdx) (rb : PIdx) : Assembles.Statement (.psub rd ra rb) := by
  simp [Assembles.Statement, Machine.asmLine, Machine.assemble, Machine.assembleField, Machine.assemblePlain,
    Machine.asPPP, Machine.pOperand, asP_val]

theorem Assembles.peq (ra : PIdx) (rb : PIdx) : Assembles.Statement (.peq ra rb) := by
  simp [Assembles.Statement, Machine.asmLine, Machine.assemble, Machine.assembleField, Machine.assemblePlain,
    Machine.asPP, Machine.pOperand, asP_val]

theorem Assembles.pchk (ra : PIdx) : Assembles.Statement (.pchk ra) := by
  simp [Assembles.Statement, Machine.asmLine, Machine.assemble, Machine.assembleField, Machine.assemblePlain,
    Machine.asP1, Machine.pOperand, asP_val]

theorem Assembles.smul (rd : PIdx) (ra : PIdx) (rb : XIdx) : Assembles.Statement (.smul rd ra rb) := by
  simp [Assembles.Statement, Machine.asmLine, Machine.assemble, Machine.assembleField, Machine.assemblePlain,
    Machine.asPPX, Machine.xOperand, asX_val, Machine.pOperand, asP_val]

theorem Assembles.pubk (rd : PIdx) (rb : XIdx) : Assembles.Statement (.pubk rd rb) := by
  simp [Assembles.Statement, Machine.asmLine, Machine.assemble, Machine.assembleField, Machine.assemblePlain,
    Machine.asPX, Machine.xOperand, asX_val, Machine.pOperand, asP_val]

end Sys2Proof.Laws
end

