-- ==== Sys2Proof/Laws/Points.lean ====
section
/-! SUPPORT. Sys2Proof/Laws/Points.lean: the checks of point operands (R221, R222) and the group law (R223, R260) in the
terms of Safety.lean. -/

namespace Sys2Proof.Machine

/-! ### Checks of point operands -/

/-- R222. -/
theorem onCurve_iff_validPoint (r : Regs) (u : Point) (hp : 0 < r.p.toNat) : r.onCurve u = true ↔ ValidPoint r u := by
  cases u with
  | inf => simp [Regs.onCurve, onCurve, ValidPoint]
  | aff x y =>
    unfold Regs.onCurve
    rw [onCurve_aff_iff hp]
    unfold ValidPoint
    have : ((y : ZMod r.pNat) ^ 2 = (x : ZMod r.pNat) ^ 3 + r.aNat * x + r.bNat) ↔
        (y * y) % r.p.toNat = (x * x * x + r.a.toNat * x + r.b.toNat) % r.p.toNat := by
      change _ ↔ Nat.ModEq _ _ _
      rw [← ZMod.natCast_eq_natCast_iff]
      push_cast
      rw [pow_two, pow_succ, pow_two]
    rw [this]

theorem inRange_of_validPoint {r : Regs} {u : Point} (h : ValidPoint r u) : inRange r.pNat u = true := by
  rw [inRange_iff]
  rintro x y rfl
  exact ⟨h.1, h.2.1⟩

theorem guardPoint1_pass {α : Type} {r : Regs} {u : Point} {k : Except FaultCode α} (hp : 0 < r.p.toNat)
    (h : ValidPoint r u) : guardPoint1 r u k = k := by
  unfold guardPoint1
  rw [require_pos (inRange_of_validPoint h), require_pos ((onCurve_iff_validPoint r u hp).2 h)]

theorem guardPoint1_range {α : Type} {r : Regs} {u : Point} {k : Except FaultCode α} (h : inRange r.pNat u ≠ true) :
    guardPoint1 r u k = .error .range := by
  unfold guardPoint1
  rw [require_neg h]

theorem guardPoint1_notonc {α : Type} {r : Regs} {u : Point} {k : Except FaultCode α} (hp : 0 < r.p.toNat)
    (h : inRange r.pNat u = true) (h' : ¬ValidPoint r u) : guardPoint1 r u k = .error .notonc := by
  unfold guardPoint1
  rw [require_pos h, require_neg (fun c => h' ((onCurve_iff_validPoint r u hp).1 c))]

theorem guardPoint2_pass {α : Type} {r : Regs} {u v : Point} {k : Except FaultCode α} (hp : 0 < r.p.toNat)
    (h : ValidPoint r u) (h2 : ValidPoint r v) : guardPoint2 r u v k = k := by
  unfold guardPoint2
  rw [require_pos (inRange_of_validPoint h), require_pos (inRange_of_validPoint h2),
    require_pos ((onCurve_iff_validPoint r u hp).2 h), require_pos ((onCurve_iff_validPoint r v hp).2 h2)]

theorem guardPoint2_range {α : Type} {r : Regs} {u v : Point} {k : Except FaultCode α}
    (h : ¬(inRange r.pNat u = true ∧ inRange r.pNat v = true)) : guardPoint2 r u v k = .error .range := by
  unfold guardPoint2
  by_cases hu : inRange r.pNat u = true
  · rw [require_pos hu, require_neg (fun c => h ⟨hu, c⟩)]
  · rw [require_neg hu]

theorem guardPoint2_notonc {α : Type} {r : Regs} {u v : Point} {k : Except FaultCode α} (hp : 0 < r.p.toNat)
    (h : inRange r.pNat u = true) (h2 : inRange r.pNat v = true) (h' : ¬(ValidPoint r u ∧ ValidPoint r v)) :
    guardPoint2 r u v k = .error .notonc := by
  unfold guardPoint2
  rw [require_pos h, require_pos h2]
  by_cases hu : ValidPoint r u
  · rw [require_pos ((onCurve_iff_validPoint r u hp).2 hu),
      require_neg (fun c => h' ⟨hu, (onCurve_iff_validPoint r v hp).1 c⟩)]
  · rw [require_neg (fun c => hu ((onCurve_iff_validPoint r u hp).1 c))]

/-! ### The group law over any modulus -/

/-- R223: a slope is a quotient, or the fault NOINV. -/
theorem slopeOf_spec (p num den : Nat) (hp : 1 < p) :
    (Nat.gcd den p = 1 → ∃ t, slopeOf p num (den % p) = .ok t ∧ (t : ZMod p) * den = num) ∧
      (Nat.gcd den p ≠ 1 → slopeOf p num (den % p) = .error .noinv) := by
  have hg : Nat.gcd (den % p) p = Nat.gcd den p := by rw [← Nat.gcd_rec, Nat.gcd_comm]
  unfold slopeOf
  refine ⟨fun h => ?_, fun h => require_neg (by rwa [hg])⟩
  refine ⟨_, require_pos (by rwa [hg]), ?_⟩
  have := invMod_zmod hp (Nat.mod_lt den (by omega)) (by rwa [hg])
  rw [ZMod.natCast_mod] at this
  rw [zmod_mul_mod]
  linear_combination (num : ZMod p) * this

theorem chordPoint_spec (p t ux uy vx : Nat) (hp : 0 < p) :
    ∃ x3 y3, chordPoint p t ux uy vx = .aff x3 y3 ∧ x3 < p ∧ y3 < p ∧ (x3 : Int) ≡ t * t - ux - vx [ZMOD p] ∧
      (y3 : Int) ≡ t * (ux - x3) - uy [ZMOD p] := by
  refine ⟨_, _, rfl, emod_lt _ hp, emod_lt _ hp, ?_, ?_⟩
  · rw [emod_cast _ hp]
    exact Int.mod_modEq _ _
  · rw [emod_cast _ hp]
    exact Int.mod_modEq _ _

/-- R223: `Add` answers the sum wherever its division can be made, and NOINV elsewhere. -/
theorem addPoints_spec (p a : Nat) (u v : Point) (hp : 1 < p) :
    (SumDefined p u v → ∃ w, IsSum p a u v w ∧ addPoints p a u v = .ok w) ∧
      (¬SumDefined p u v → addPoints p a u v = .error .noinv) := by
  rcases u with _ | ⟨ux, uy⟩
  · exact ⟨fun _ => ⟨v, rfl, rfl⟩, fun h => absurd trivial h⟩
  rcases v with _ | ⟨vx, vy⟩
  · exact ⟨fun _ => ⟨_, rfl, rfl⟩, fun h => absurd trivial h⟩
  simp only [SumDefined, IsSum, addPoints]
  have hp0 : 0 < p := by omega
  by_cases h1 : ux = vx
  · subst h1
    by_cases h2 : uy = vy
    · subst h2
      by_cases h3 : uy = 0
      · simp [h3]
      · have := slopeOf_spec p ((3 * ux * ux + a) % p) (2 * uy) hp
        simp only [ne_eq, not_true_eq_false, and_false, if_false, h3, true_and, or_false, not_false_eq_true,
          false_implies, true_implies, if_true]
        constructor
        · intro hg
          obtain ⟨t, e, ht⟩ := this.1 hg
          obtain ⟨x3, y3, e', l1, l2, m1, m2⟩ := chordPoint_spec p t ux uy ux hp0
          refine ⟨_, ⟨t, x3, y3, rfl, l1, l2, ?_, m1, m2⟩, by rw [e]; simp [e']⟩
          rw [← ZMod.intCast_eq_intCast_iff]
          rw [ZMod.natCast_mod] at ht
          push_cast at ht ⊢
          exact ht
        · intro hg
          rw [this.2 hg]
    · simp [h2]
  · have hd := slopeOf_spec p (emod ((vy : Int) - uy) p) (emod ((vx : Int) - ux) p) hp
    have hl : emod ((vx : Int) - ux) p % p = emod ((vx : Int) - ux) p := Nat.mod_eq_of_lt (emod_lt _ hp0)
    rw [hl] at hd
    have hgcd : Nat.gcd (emod ((vx : Int) - ux) p) p = Int.gcd ((vx : Int) - ux) p := by
      have h2 : Int.gcd ((emod ((vx : Int) - ux) p : Nat) : Int) (p : Int) = Int.gcd ((vx : Int) - ux) p := by
        rw [emod_cast ((vx : Int) - ux) hp0]
        exact Int.gcd_emod _ _
      rw [← h2]
      rfl
    rw [hgcd] at hd
    simp only [h1, false_and, if_false, ne_eq, not_false_eq_true, if_true, true_implies, false_implies, and_true]
    constructor
    · intro hg
      obtain ⟨t, e, ht⟩ := hd.1 hg
      obtain ⟨x3, y3, e', l1, l2, m1, m2⟩ := chordPoint_spec p t ux uy vx hp0
      refine ⟨_, ⟨t, x3, y3, rfl, l1, l2, ?_, m1, m2⟩, by rw [e]; simp [e']⟩
      rw [← ZMod.intCast_eq_intCast_iff]
      rw [emod_zmod _ hp0, emod_zmod _ hp0] at ht
      push_cast at ht ⊢
      exact ht
    · intro hg
      rw [hd.2 hg]

/-- R223: the group law's only fault is NOINV. -/
theorem addPoints_error {p a : Nat} {u v : Point} {e : FaultCode} (h : addPoints p a u v = .error e) : e = .noinv := by
  have slope_error : ∀ {num den : Nat} {e : FaultCode}, slopeOf p num den = .error e → e = .noinv := by
    intro num den e h
    rcases require_error h with h | h
    · exact h
    · cases h
  unfold addPoints at h
  repeat' split at h
  all_goals first
    | (cases h; done)
    | (cases h; rename_i h; exact slope_error h)

/-- R260: so is double-and-add's. -/
theorem smulLoop_error {p a : Nat} (n : Nat) : ∀ {k : Nat} {acc run : Point} {e : FaultCode},
    smulLoop p a n k acc run = .error e → e = .noinv := by
  induction n with
  | zero => intro k acc run e h; cases h
  | succ n ih =>
    intro k acc run e h
    rw [smulLoop] at h
    split at h
    · cases h
      rename_i h
      split at h
      · exact addPoints_error h
      · cases h
    · split at h
      · cases h
        rename_i h
        exact addPoints_error h
      · exact ih h

@[simp] theorem addPoints_inf_left (p a : Nat) (u : Point) : addPoints p a .inf u = .ok u := rfl

@[simp] theorem addPoints_inf_right (p a : Nat) (u : Point) : addPoints p a u .inf = .ok u := by cases u <;> rfl

theorem negPoint_aff {p x y : Nat} (hy : y < p) : negPoint p (.aff x y) = .aff x (if y = 0 then 0 else p - y) := by
  show Point.aff x ((p - y) % p) = _
  split
  · simp [*]
  · rw [Nat.mod_eq_of_lt (by omega)]

/-- R260: doubling INF changes nothing. -/
theorem smulLoop_inf (p a n k : Nat) (acc : Point) : smulLoop p a n k acc .inf = .ok acc := by
  induction n generalizing k acc with
  | zero => rfl
  | succ n ih => simp only [smulLoop, addPoints_inf_right, ite_self, ih]

/-- R260: multiples of a point that doubles to INF. -/
theorem smulLoop_vertical (p a x k n : Nat) :
    smulLoop p a (n + 1) k .inf (.aff x 0) = .ok (if k % 2 = 1 then .aff x 0 else .inf) := by
  have h2 : addPoints p a (.aff x 0) (.aff x 0) = .ok .inf := by simp [addPoints]
  simp only [smulLoop, addPoints_inf_left, h2]
  by_cases ho : k % 2 = 1 <;> simp [ho, smulLoop_inf]

end Sys2Proof.Machine
end

