-- ==== Sys2Proof/Tests/Slice0.lean ====
section
/-! SUPPORT. Sys2Proof/Tests/Slice0.lean: the smoke tests of WellFormed; words of the spec decoded; one or two vectors of
95_test_vectors.md for each command, each one step from its word; and for every obligation that has hypotheses a state and
operands that meet them, clause by clause. -/

namespace Sys2Proof.Tests

open Sys2Proof Sys2Proof.Machine

/-! One theorem at a time: each evaluation by the kernel would otherwise hold a thread of its own. -/

set_option Elab.async false

/-! ### Ill-formed fields: one for each test of R129 -/

theorem test_illformed_reserved_bits : (Fields.mk 0x01 false false 3 1 2 1).defect = some .reservedBits ∧
    ¬(Fields.mk 0x01 false false 3 1 2 1).WellFormed := by decide

theorem test_illformed_reserved_opcode_0B : (Fields.mk 0x0B false false 0 0 0 0).defect = some .reservedOpcode ∧
    ¬(Fields.mk 0x0B false false 0 0 0 0).WellFormed := by decide

theorem test_illformed_reserved_opcode_18 : (Fields.mk 0x18 false false 0 0 0 0).defect = some .reservedOpcode ∧
    ¬(Fields.mk 0x18 false false 0 0 0 0).WellFormed := by decide

theorem test_illformed_unused_ms : (Fields.mk 0x10 true false 0 0 0 0).defect = some .unusedField ∧
    ¬(Fields.mk 0x10 true false 0 0 0 0).WellFormed := by decide

theorem test_illformed_unused_se : (Fields.mk 0x01 false true 3 1 2 0).defect = some .unusedField ∧
    ¬(Fields.mk 0x01 false true 3 1 2 0).WellFormed := by decide

theorem test_illformed_unused_rd : (Fields.mk 0x14 false false 1 0 0 0).defect = some .unusedField ∧
    ¬(Fields.mk 0x14 false false 1 0 0 0).WellFormed := by decide

theorem test_illformed_unused_ra : (Fields.mk 0x17 false false 2 1 8 0).defect = some .unusedField ∧
    ¬(Fields.mk 0x17 false false 2 1 8 0).WellFormed := by decide

theorem test_illformed_unused_rb : (Fields.mk 0x06 false false 3 1 1 0).defect = some .unusedField ∧
    ¬(Fields.mk 0x06 false false 3 1 1 0).WellFormed := by decide

theorem test_illformed_point_rd : (Fields.mk 0x11 false false 8 0 0 0).defect = some .pointIndex ∧
    ¬(Fields.mk 0x11 false false 8 0 0 0).WellFormed := by decide

theorem test_illformed_point_ra : (Fields.mk 0x15 false false 0 8 0 0).defect = some .pointIndex ∧
    ¬(Fields.mk 0x15 false false 0 8 0 0).WellFormed := by decide

theorem test_illformed_point_rb : (Fields.mk 0x10 false false 0 0 8 0).defect = some .pointIndex ∧
    ¬(Fields.mk 0x10 false false 0 0 8 0).WellFormed := by decide

theorem test_wellformed_fpow_s : (Fields.mk 0x05 false true 3 1 2 0).WellFormed := by decide

/-! ### Words written out from R121 and R127 -/

theorem test_decode_nop : decode 0b00000000000000000000000000000000 = .ok (.nop) ∧ encode (.nop) = 0b00000000000000000000000000000000 := by decide

theorem test_decode_fadd : decode 0b00000000000000100001001100000001 = .ok (.fadd false 3 1 2) ∧ encode (.fadd false 3 1 2) = 0b00000000000000100001001100000001 := by decide

theorem test_decode_fadd_n : decode 0b00000000000000100001001101000001 = .ok (.fadd true 3 1 2) ∧ encode (.fadd true 3 1 2) = 0b00000000000000100001001101000001 := by decide

theorem test_decode_fsub : decode 0b00000000000000100001001100000010 = .ok (.fsub false 3 1 2) ∧ encode (.fsub false 3 1 2) = 0b00000000000000100001001100000010 := by decide

theorem test_decode_fmul : decode 0b00000000000000100001001100000011 = .ok (.fmul false 3 1 2) ∧ encode (.fmul false 3 1 2) = 0b00000000000000100001001100000011 := by decide

theorem test_decode_fdiv : decode 0b00000000000000100001001100000100 = .ok (.fdiv false 3 1 2) ∧ encode (.fdiv false 3 1 2) = 0b00000000000000100001001100000100 := by decide

theorem test_decode_fpow_s : decode 0b00000000000000100001001110000101 = .ok (.fpow false true 3 1 2) ∧ encode (.fpow false true 3 1 2) = 0b00000000000000100001001110000101 := by decide

theorem test_decode_fneg : decode 0b00000000000000000001001100000110 = .ok (.fneg false 3 1) ∧ encode (.fneg false 3 1) = 0b00000000000000000001001100000110 := by decide

theorem test_decode_finv : decode 0b00000000000000000001001100000111 = .ok (.finv false 3 1) ∧ encode (.finv false 3 1) = 0b00000000000000000001001100000111 := by decide

theorem test_decode_fsqrt_n : decode 0b00000000000000000001001101001000 = .ok (.fsqrt true 3 1) ∧ encode (.fsqrt true 3 1) = 0b00000000000000000001001101001000 := by decide

theorem test_decode_mmul : decode 0b00000000000000100001001100001001 = .ok (.mmul false 3 1 2) ∧ encode (.mmul false 3 1 2) = 0b00000000000000100001001100001001 := by decide

theorem test_decode_bred : decode 0b00000000000000100001001100001010 = .ok (.bred false 3 1 2) ∧ encode (.bred false 3 1 2) = 0b00000000000000100001001100001010 := by decide

theorem test_decode_padd : decode 0b00000000000000010000001000010000 = .ok (.padd 2 0 1) ∧ encode (.padd 2 0 1) = 0b00000000000000010000001000010000 := by decide

theorem test_decode_pdbl : decode 0b00000000000000000111001000010001 = .ok (.pdbl 2 7) ∧ encode (.pdbl 2 7) = 0b00000000000000000111001000010001 := by decide

theorem test_decode_pneg : decode 0b00000000000000000000001000010010 = .ok (.pneg 2 0) ∧ encode (.pneg 2 0) = 0b00000000000000000000001000010010 := by decide

theorem test_decode_psub : decode 0b00000000000000010000001000010011 = .ok (.psub 2 0 1) ∧ encode (.psub 2 0 1) = 0b00000000000000010000001000010011 := by decide

theorem test_decode_peq : decode 0b00000000000000010000000000010100 = .ok (.peq 0 1) ∧ encode (.peq 0 1) = 0b00000000000000010000000000010100 := by decide

theorem test_decode_pchk : decode 0b00000000000000000011000000010101 = .ok (.pchk 3) ∧ encode (.pchk 3) = 0b00000000000000000011000000010101 := by decide

theorem test_decode_smul : decode 0b00000000000011110000001000010110 = .ok (.smul 2 0 15) ∧ encode (.smul 2 0 15) = 0b00000000000011110000001000010110 := by decide

theorem test_decode_pubk : decode 0b00000000000010000000001000010111 = .ok (.pubk 2 8) ∧ encode (.pubk 2 8) = 0b00000000000010000000001000010111 := by decide

theorem test_decodeTableWord : decodeTableWord 32 0x00021385 = some (.fpow false true 3 1 2) ∧
    decodeTableWord 32 0x00000100 = none := by decide

theorem test_assemble : (assemble ⟨"fpow", false, true, [.x 3, .x 1, .x 2]⟩).map encode = some 0x00021385 ∧
    assemble ⟨"fadd", false, true, [.x 3, .x 1, .x 2]⟩ = none ∧ assemble ⟨"padd", true, false, [.p 2, .p 0, .p 1]⟩ = none ∧
    assemble ⟨"fneg", false, false, [.x 16, .x 1]⟩ = none ∧ assemble ⟨"pdbl", false, false, [.p 8, .p 0]⟩ = none ∧
    assemble ⟨"pdbl", false, false, [.x 2, .x 0]⟩ = none ∧ asmText (.fpow false true 3 1 2) = "fpow.s x3, x1, x2" := by decide

/-! ### States of 95_test_vectors.md -/

/-- Reset, then P, N, X1, X2 written. -/
def field (p n x1 x2 : Val) : State :=
  { State.reset with regs := { Regs.reset with p := p, n := n, x := (Regs.reset.x.set 1 x1).set 2 x2 } }

/-- Reset, then a curve with N and G, PINF, P0, P1 and X8 written. -/
def curve (p a b n gx gy : Val) (pinf : BitVec 8) (x0 x1 x2 x3 x8 : Val) : State :=
  { State.reset with
    regs :=
      { x := ((((Regs.reset.x.set 0 x0).set 1 x1).set 2 x2).set 3 x3).set 8 x8
        pinf := pinf, p := p, n := n, a := a, b := b, gx := gx, gy := gy } }

/-- The F_223 curve of the vectors, with N = 21 and G = (47, 71). -/
def points (pinf : BitVec 8) (x0 x1 x2 x3 x8 : Val) : State := curve 223 0 7 21 47 71 pinf x0 x1 x2 x3 x8

/-- The state one step after the command word `w` is accepted. -/
def run (w : Nat) (s : State) : Option State :=
  match step (s.withFetchWord 32 w) with
  | .next t => some t
  | .fault _ => none
  | .refused _ => none

/-- X3, FLAGS and STATUS. -/
def fieldView (t : State) : Nat × Word × Word := ((t.regs.x[3]).toNat, memRead 0x014 t, memRead 0x00C t)

/-- X4, X5, PINF, FLAGS and STATUS. -/
def pointView (t : State) : Nat × Nat × Word × Word × Word :=
  ((t.regs.x[4]).toNat, (t.regs.x[5]).toNat, memRead 0x01C t, memRead 0x014 t, memRead 0x00C t)

/-- ERRCMD, FLAGS and STATUS. -/
def faultView (t : State) : Word × Word × Word := (memRead 0x018 t, memRead 0x014 t, memRead 0x00C t)

/-! ### One step of each command -/

/-- VF2. -/
theorem test_fadd : (run 0x00021301 (field 13 0 12 12)).map fieldView = some (11, 2, 0x002) := by decide +kernel

/-- VF7. -/
theorem test_fadd_n : (run 0x00021341 (field 13 11 7 6)).map fieldView = some (2, 0, 0x002) := by decide +kernel

/-- VF9. -/
theorem test_fsub : (run 0x00021302 (field 13 0 0 12)).map fieldView = some (1, 2, 0x002) := by decide +kernel

/-- VF11. -/
theorem test_fmul : (run 0x00021303 (field 13 0 7 8)).map fieldView = some (4, 0, 0x002) := by decide +kernel

/-- VF14. -/
theorem test_fdiv : (run 0x00021304 (field 13 0 7 8)).map fieldView = some (9, 2, 0x002) := by decide +kernel

/-- VE1. -/
theorem test_fdiv_badmod : (run 0x00021304 (field 12 0 20 0)).map faultView = some (0x00021304, 0, 0x206) := by decide +kernel

/-- VF18. -/
theorem test_fpow_s : (run 0x00021385 (field 13 0 7 0xFFFFFFFFFFFFFFFFFFFFFFFFFFFFFFFFFFFFFFFFFFFFFFFFFFFFFFFFFFFFFFFD)).map fieldView = some (8, 0, 0x002) := by decide +kernel

/-- VF21. -/
theorem test_fpow_zero_base : (run 0x00021305 (field 13 0 0 12)).map fieldView = some (1, 2, 0x002) := by decide +kernel

/-- VF29. -/
theorem test_fneg_zero : (run 0x00001306 (field 13 0 0 0)).map fieldView = some (0, 1, 0x002) := by decide +kernel

/-- VF31. -/
theorem test_finv : (run 0x00001307 (field 13 0 8 0)).map fieldView = some (5, 2, 0x002) := by decide +kernel

/-- VF36. -/
theorem test_finv_noinv : (run 0x00001307 (field 9 0 3 0)).map faultView = some (0x00001307, 0, 0x406) := by decide +kernel

/-- VF38. -/
theorem test_fsqrt_nonresidue : (run 0x00001308 (field 23 0 5 0)).map fieldView = some (8, 0, 0x002) := by decide +kernel

/-- VF48. -/
theorem test_fsqrt_tonelli : (run 0x00001308 (field 41 0 2 0)).map fieldView = some (17, 6, 0x002) := by decide +kernel

/-- VR1. -/
theorem test_mmul : (run 0x00021309 (field 13 0 7 8)).map fieldView = some (10, 0, 0x002) := by decide +kernel

/-- VR8. -/
theorem test_bred : (run 0x0002130A (field 13 0 1 0)).map fieldView = some (3, 2, 0x002) := by decide +kernel

/-- VP1. -/
theorem test_padd : (run 0x00010210 (points 0 170 142 60 139 0)).map pointView = some (220, 181, 0, 2, 0x002) := by decide +kernel

/-- VP31. -/
theorem test_padd_range_first : (run 0x00010210 (points 0 200 119 223 0 0)).map faultView = some (0x00010210, 0, 0x306) := by decide +kernel

/-- VP12. -/
theorem test_pdbl_vertical : (run 0x00000211 (points 0 6 0 0 0 0)).map pointView = some (0, 0, 4, 1, 0x002) := by decide +kernel

/-- VP9. -/
theorem test_pdbl : (run 0x00000211 (points 0 192 105 0 0 0)).map pointView = some (49, 71, 0, 2, 0x002) := by decide +kernel

/-- VP14. -/
theorem test_pneg : (run 0x00000212 (points 0 47 71 0 0 0)).map pointView = some (47, 152, 0, 0, 0x002) := by decide +kernel

/-- VP20. -/
theorem test_psub : (run 0x00010213 (points 0 36 111 47 71 0)).map pointView = some (47, 71, 0, 2, 0x002) := by decide +kernel

/-- VP22. -/
theorem test_peq : (run 0x00010014 (points 0 47 71 47 71 0)).map faultView = some (0, 8, 0x002) := by decide +kernel

/-- VP24. -/
theorem test_peq_inf : (run 0x00010014 (curve 0 0 0 0 0 0 1 0 0 0 0 0)).map faultView = some (0, 0, 0x002) := by decide +kernel

/-- VP26. -/
theorem test_pchk : (run 0x00000015 (points 0 192 105 0 0 0)).map faultView = some (0, 16, 0x002) := by decide +kernel

/-- VP25. -/
theorem test_pchk_off : (run 0x00000015 (points 0 200 119 0 0 0)).map faultView = some (0, 0, 0x002) := by decide +kernel

/-- VS4. -/
theorem test_smul : (run 0x00080216 (points 0 47 71 0 0 4)).map pointView = some (194, 51, 0, 2, 0x002) := by decide +kernel

/-- VS7. -/
theorem test_smul_order : (run 0x00080216 (points 0 47 71 0 0 21)).map pointView = some (0, 0, 4, 1, 0x002) := by decide +kernel

/-- VS14. -/
theorem test_pubk : (run 0x00080217 (points 0 0 0 0 0 3)).map pointView = some (15, 137, 0, 2, 0x002) := by decide +kernel

/-- VS17. -/
theorem test_pubk_scalar : (run 0x00080217 (points 0 0 0 0 0 21)).map faultView = some (0x00080217, 0, 0x706) := by decide +kernel

/-- VD1. -/
theorem test_nop : (run 0x00000000 (State.reset)).map faultView = some (0, 0, 0x002) := by decide +kernel

/-- VD2. -/
theorem test_illegal : (run 0x00000100 (State.reset)).map faultView = some (0x00000100, 0, 0x106) := by decide +kernel

/-- R99's example: word 0 of 0x000...0001_0000_0002 is 2 and word 1 is 1. -/
theorem test_word_order : getWord 0x0000000100000002 0 = 2 ∧ getWord 0x0000000100000002 1 = 1 ∧
    getWord 0x0000000100000002 2 = 0 := by decide

/-- R202's example for the secp256k1 prime (VR15). -/
theorem test_bred_secp256k1 : (run 0x0002130A
    (field 0xFFFFFFFFFFFFFFFFFFFFFFFFFFFFFFFFFFFFFFFFFFFFFFFFFFFFFFFEFFFFFC2F 0 1 0)).map fieldView =
      some (0x1000003D1, 2, 0x002) := by decide +kernel

/-! ### Witnesses: the hypotheses of the obligations can be met -/

/-- A command in flight: `fadd x3, x1, x2` over F_13, accepted, with a host write to X1 to come before the completion. -/
def inFlight : State := accept 0x00021301 (withTurns [.host ⟨.write 5, .bits32, 0x120⟩, .sequencer] (field 13 0 7 6))

theorem inFlight_inv : inFlight.Inv := Inv.accept _ _

theorem witness_DecodedWordEncodesBack :
    decode 0x000F0216 = .ok (.smul 2 0 15) := by decide

theorem witness_WordMatchesAtMostOneRow :
    Op.smul.Matches 0x000F0216 ∧ Op.nop.Matches 0x00000000 := by decide

theorem witness_IllegalWords_each_cause :
    (decode 0x0000000F).toOption = none ∧ (decode 0x00000018).toOption = none ∧ (decode 0x80000000).toOption = none ∧
      (decode 0x00000040).toOption = none ∧ (decode 0x00000810).toOption = none ∧ (decode 0x00080210).toOption = none ∧
      (decode 0x00080216).toOption = some (.smul 2 0 8) := by decide

theorem witness_StepRunsTheDecodedCommand :
    (poised 0x00021301 (field 13 0 7 6)).pending = .pending 0x00021301 (field 13 0 7 6).regs ∧
      decode 0x00021301 = .ok (.fadd false 3 1 2) ∧ (poised 0x00021301 (field 13 0 7 6)).port.turns = [.sequencer] ∧
      (accept 0x00021301 (field 13 0 7 6)).port.turns = [] := by decide +kernel

theorem witness_IllegalWordFaultsAtCompletion :
    (poised 0x00000100 State.reset).pending = .pending 0x00000100 Regs.reset ∧ decode 0x00000100 = .error .unusedField ∧
      (poised 0x00000100 State.reset).port.turns = [.sequencer] := by decide

theorem witness_StepKeepsInvariant :
    inFlight.Inv ∧ ∃ t, step inFlight = .next t := ⟨inFlight_inv, _, rfl⟩

theorem witness_HostCannotDisturbCommandInFlight :
    inFlight.Inv ∧ inFlight.pending = .pending 0x00021301 (field 13 0 7 6).regs ∧
      (∀ a ∈ [Access.mk (.write 5) .bits32 0x120], isSoftReset a = false) ∧
      inFlight.port.turns = [Access.mk (.write 5) .bits32 0x120].map .host ++ .sequencer :: [] := ⟨inFlight_inv, rfl, by decide, rfl⟩

theorem witness_AcceptedCommandCompletesAtLat :
    inFlight.Inv ∧ inFlight.pending = .pending 0x00021301 (field 13 0 7 6).regs ∧ lat inFlight.port.turns = 2 ∧
      ∀ t ∈ inFlight.port.turns.take (lat inFlight.port.turns - 1), resets t = false := ⟨inFlight_inv, rfl, by decide, by decide⟩

theorem witness_ResetValues :
    (0x00000001 : Word).getLsbD 0 = true ∧ (∃ t, takeTurn .rst inFlight = .next t) ∧
      (∃ t, serve ⟨.write 1, .bits32, 0x004⟩ inFlight = t) ∧ (0xFFC ≠ 0 ∧ 0xFFC % 4 = 0 ∧ 0xFFC < 0x1000) ∧
      Instr.pchk 7 ≠ .nop ∧ ∀ ra rb, Instr.pchk 7 ≠ .peq ra rb := ⟨by decide, ⟨_, rfl⟩, ⟨_, rfl⟩, by decide, by decide, by decide⟩

theorem witness_BothResetsRestoreResetState :
    (0xFFFFFFFF : Word).getLsbD 0 = true := by decide

theorem witness_CommandsAfterReset :
    State.reset.operands = Regs.reset ∧ Instr.pchk 7 ≠ .nop ∧ ∀ ra rb, Instr.pchk 7 ≠ .peq ra rb := ⟨rfl, by decide, by decide⟩

theorem witness_AcceptedWriteToCmd :
    State.reset.status.busy = false := by decide

theorem witness_WriteWhileBusyIsDropped :
    inFlight.status.busy = true ∧
      (∀ off ∈ [0x008, 0x01C, 0x100, 0x3BC], off % 4 = 0 ∧ (off = 0x008 ∨ off = 0x01C ∨ (0x100 ≤ off ∧ off < 0x3C0))) ∧
      (∃ t, (dropWrite inFlight).status.werr = true ∧
        takeTurn (.host ⟨.write 8, .bits32, 0x00C⟩) (dropWrite inFlight) = .next t ∧ t.status.werr = false) := ⟨by decide, by decide, _, rfl, rfl, rfl⟩

/-- All three interrupt enables set. -/
def enabled : State := { inFlight with ie := ⟨true, true, true⟩ }

theorem witness_IrqIsTheEnabledPendingSources :
    enabled.ie.doneIe = true ∧ enabled.ie.errIe = true ∧ enabled.ie.werrIe = true ∧ enabled.status.busy = true ∧
      State.reset.status.busy = false ∧ ∃ t, exec .nop enabled = .next t := ⟨rfl, rfl, rfl, by decide, rfl, _, rfl⟩

theorem witness_RegisterMap :
    ∀ off ∈ [0x020, 0x0FC, 0x3C0, 0xFFC], (0x020 ≤ off ∧ off < 0x100) ∨ (0x3C0 ≤ off ∧ off < 0x1000) := by decide

theorem witness_ReadsChangeNothing :
    WindowAccess ⟨.read, .bits32, 0x000⟩ ∧ WindowAccess ⟨.read, .bits32, 0xFFC⟩ := by unfold WindowAccess; decide

theorem witness_BadAccessGetsBusError :
    (Access.mk .read .bits8 0x000).offset < 0x1000 ∧ (Access.mk .read .bits8 0x000).width ≠ .bits32 ∧
      (Access.mk (.write 0) .bits32 0xFFF).offset < 0x1000 ∧ (Access.mk (.write 0) .bits32 0xFFF).offset % 4 ≠ 0 := by decide

theorem witness_ReservedOffsets :
    ∀ off ∈ [0x020, 0x0FC, 0x3C0, 0xFFC],
      off % 4 = 0 ∧ ((0x020 ≤ off ∧ off < 0x100) ∨ (0x3C0 ≤ off ∧ off < 0x1000)) := by decide

theorem witness_RegisterWordReadsBack :
    State.reset.status.busy = false ∧ (∀ off ∈ [0x100, 0x2FC, 0x300, 0x3BC], off % 4 = 0 ∧ 0x100 ≤ off ∧ off < 0x3C0) ∧
      (0x104 ≠ 0x100 ∧ 0x104 % 4 = 0 ∧ 0x104 < 0x1000) := by decide

theorem witness_RegisterIsTheSumOfItsWords :
    State.reset.status.busy = false := by decide

theorem witness_ControlRegisterWrites :
    (0xFFFFFFFE : Word).getLsbD 0 = false ∧ State.reset.status.busy = false := by decide

theorem witness_PointViewWrite :
    (points 1 0 0 0 0 0).regs.pinf.getLsbD (0 : PIdx).val = true ∧ (points 1 0 0 0 0 0).regs.pinf.getLsbD (7 : PIdx).val = false ∧
      Point.aff 47 (2 ^ 256 - 1) = .aff (47 : Val).toNat (BitVec.allOnes 256).toNat ∧ (1 : PIdx) ≠ 0 ∧
      ((15 : XIdx).val ≠ 2 * (0 : PIdx).val ∧ (15 : XIdx).val ≠ 2 * (0 : PIdx).val + 1) := by decide

theorem witness_NopCompletes :
    (0x00000000 : Word).extractLsb' 0 6 = 0 ∧ (0x80000000 : Word).extractLsb' 0 6 = 0 ∧ (0x80000000 : Word) ≠ 0 := by decide

theorem witness_AddSubMulResults :
    ¬ModValid ((field 12 0 1 1).operands.modulus false) ∧
      (ModValid ((field 13 0 13 1).operands.modulus false) ∧
        ¬((field 13 0 13 1).operands.xNat 1 < (field 13 0 13 1).operands.modulus false ∧
          (field 13 0 13 1).operands.xNat 2 < (field 13 0 13 1).operands.modulus false)) ∧
      (ModValid ((field 13 9 2 2).operands.modulus true) ∧
        (field 13 9 2 2).operands.xNat 1 < (field 13 9 2 2).operands.modulus true ∧
        (field 13 9 2 2).operands.xNat 2 < (field 13 9 2 2).operands.modulus true) := by decide +kernel

theorem witness_FdivResult :
    ¬ModValid ((field 12 0 1 1).operands.modulus false) ∧
      (ModValid ((field 13 0 13 1).operands.modulus false) ∧
        ¬((field 13 0 13 1).operands.xNat 1 < (field 13 0 13 1).operands.modulus false ∧
          (field 13 0 13 1).operands.xNat 2 < (field 13 0 13 1).operands.modulus false)) ∧
      (ModValid ((field 13 9 2 2).operands.modulus true) ∧
        (field 13 9 2 2).operands.xNat 1 < (field 13 9 2 2).operands.modulus true ∧
        (field 13 9 2 2).operands.xNat 2 < (field 13 9 2 2).operands.modulus true ∧
        Nat.gcd ((field 13 9 2 2).operands.xNat 2) ((field 13 9 2 2).operands.modulus true) = 1) ∧
      (ModValid ((field 13 9 2 3).operands.modulus true) ∧
        (field 13 9 2 3).operands.xNat 1 < (field 13 9 2 3).operands.modulus true ∧
        (field 13 9 2 3).operands.xNat 2 < (field 13 9 2 3).operands.modulus true ∧
        Nat.gcd ((field 13 9 2 3).operands.xNat 2) ((field 13 9 2 3).operands.modulus true) ≠ 1) := by decide +kernel

theorem witness_FpowResult :
    ¬ModValid ((field 1 0 0 0).operands.modulus false) ∧
      (ModValid ((field 13 0 13 0).operands.modulus false) ∧
        ¬(field 13 0 13 0).operands.xNat 1 < (field 13 0 13 0).operands.modulus false) ∧
      (ModValid ((field 13 3 2 0).operands.modulus true) ∧ (field 13 3 2 0).operands.xNat 1 < (field 13 3 2 0).operands.modulus true) := by decide +kernel

theorem witness_FnegResult :
    ¬ModValid ((field 1 0 0 0).operands.modulus false) ∧
      (ModValid ((field 13 0 13 0).operands.modulus false) ∧
        ¬(field 13 0 13 0).operands.xNat 1 < (field 13 0 13 0).operands.modulus false) ∧
      (ModValid ((field 13 3 2 0).operands.modulus true) ∧ (field 13 3 2 0).operands.xNat 1 < (field 13 3 2 0).operands.modulus true) := by decide +kernel

theorem witness_FinvResult :
    ¬ModValid ((field 1 0 0 0).operands.modulus false) ∧
      (ModValid ((field 13 0 13 0).operands.modulus false) ∧
        ¬(field 13 0 13 0).operands.xNat 1 < (field 13 0 13 0).operands.modulus false) ∧
      (ModValid ((field 13 3 2 0).operands.modulus true) ∧ (field 13 3 2 0).operands.xNat 1 < (field 13 3 2 0).operands.modulus true ∧
        Nat.gcd ((field 13 3 2 0).operands.xNat 1) ((field 13 3 2 0).operands.modulus true) = 1) ∧
      (ModValid ((field 13 3 0 0).operands.modulus true) ∧ (field 13 3 0 0).operands.xNat 1 < (field 13 3 0 0).operands.modulus true ∧
        Nat.gcd ((field 13 3 0 0).operands.xNat 1) ((field 13 3 0 0).operands.modulus true) ≠ 1) := by decide +kernel

theorem witness_FsqrtResultFor3Mod4 :
    ¬ModValid ((field 12 0 0 0).operands.modulus false) ∧
      (ModValid ((field 23 0 23 0).operands.modulus false) ∧
        ¬(field 23 0 23 0).operands.xNat 1 < (field 23 0 23 0).operands.modulus false) ∧
      ((field 23 0 5 0).operands.modulus false % 4 = 3 ∧
        (field 23 0 5 0).operands.xNat 1 < (field 23 0 5 0).operands.modulus false) := by decide +kernel

theorem witness_FsqrtResultFor1Mod4SquaresBack :
    (field 9 0 0 0).operands.modulus false % 4 = 1 ∧ ModValid ((field 9 0 0 0).operands.modulus false) ∧
      (field 9 0 0 0).operands.xNat 1 < (field 9 0 0 0).operands.modulus false ∧ (field 9 0 0 0).operands.xNat 1 = 0 ∧
      ((field 13 0 2 0).operands.xNat 1 = 2 ∧ 2 ^ ((13 - 1) / 2) % 13 ≠ 1) ∧
      ((field 9 0 1 0).operands.xNat 1 = 1 ∧ ∀ z ∈ List.range 9, 2 ≤ z → z ^ ((9 - 1) / 2) % 9 ≠ 9 - 1) ∧
      (tonelliShanks ((field 13 0 10 0).operands.xNat 1) ((field 13 0 10 0).operands.modulus false) = some 7 ∧
        tonelliShanks ((field 13 0 2 0).operands.xNat 1) ((field 13 0 2 0).operands.modulus false) = none) := by decide +kernel

theorem witness_FsqrtDecidesSquaresOfPrimeFields :
    Nat.Prime ((field 13 0 10 0).operands.modulus false) ∧ (field 13 0 10 0).operands.modulus false % 4 = 1 ∧
      (field 13 0 10 0).operands.xNat 1 < (field 13 0 10 0).operands.modulus false ∧
      (∃ y, y * y % (field 13 0 10 0).operands.modulus false = (field 13 0 10 0).operands.xNat 1) ∧
      ¬∃ y, y * y % (field 13 0 2 0).operands.modulus false = (field 13 0 2 0).operands.xNat 1 := by
  have hm : ∀ a, (field 13 0 a 0).operands.modulus false = 13 := fun _ => rfl
  have h2 : (field 13 0 2 0).operands.xNat 1 = 2 := by decide +kernel
  rw [hm, hm, h2]
  refine ⟨by norm_num, rfl, by decide +kernel, ⟨7, by decide +kernel⟩, ?_⟩
  rintro ⟨y, hy⟩
  rw [Nat.mul_mod] at hy
  have hl := Nat.mod_lt y (by decide : 0 < 13)
  generalize y % 13 = z at hy hl
  interval_cases z <;> simp at hy

theorem witness_FsqrtQrFlagMarksSquares :
    Nat.Prime ((field 23 0 5 0).operands.modulus false) ∧ (field 23 0 5 0).operands.modulus false % 4 = 3 ∧
      (field 23 0 5 0).operands.xNat 1 < (field 23 0 5 0).operands.modulus false := by
  have hm : (field 23 0 5 0).operands.modulus false = 23 := rfl
  rw [hm]
  exact ⟨by norm_num, rfl, by decide +kernel⟩

theorem witness_MmulResult :
    ¬ModValid ((field 12 0 1 1).operands.modulus false) ∧
      (ModValid ((field 13 0 13 1).operands.modulus false) ∧
        ¬((field 13 0 13 1).operands.xNat 1 < (field 13 0 13 1).operands.modulus false ∧
          (field 13 0 13 1).operands.xNat 2 < (field 13 0 13 1).operands.modulus false)) ∧
      (ModValid ((field 13 9 2 2).operands.modulus true) ∧
        (field 13 9 2 2).operands.xNat 1 < (field 13 9 2 2).operands.modulus true ∧
        (field 13 9 2 2).operands.xNat 2 < (field 13 9 2 2).operands.modulus true) := by decide +kernel

theorem witness_BredResult :
    ¬ModValid ((field 14 0 1 0).operands.modulus false) ∧ ModValid ((field 13 3 1 0).operands.modulus true) := by decide +kernel

theorem witness_PointCommandsCheckInOrder :
    usesCurve (.padd 2 0 1) = true ∧ usesCurve (.pubk 2 8) = true ∧ ¬ModValid (curve 222 0 7 0 0 0 0 0 0 0 0 0).operands.p.toNat ∧
      (ModValid (curve 223 0 7 22 0 0 0 0 0 0 0 0).operands.p.toNat ∧ ¬ModValid (curve 223 0 7 22 0 0 0 0 0 0 0 0).operands.n.toNat) ∧
      ¬(curve 223 223 7 0 0 0 0 0 0 0 0 0).operands.a.toNat < (curve 223 223 7 0 0 0 0 0 0 0 0 0).operands.p.toNat ∧
      (.aff 223 0 ∈ pointOperands (.padd 2 0 1) (points 0 200 119 223 0 0).operands ∧ ¬(223 < (points 0 200 119 223 0 0).operands.p.toNat)) ∧
      pointOperands (.padd 2 0 1) (points 0 200 119 47 71 0).operands = [.aff 200 119, .aff 47 71] := by decide +kernel

theorem witness_PointCommandsCheckInOrder_notonc : ¬ValidPoint (points 0 200 119 47 71 0).operands (.aff 200 119) := by
  unfold ValidPoint
  decide +kernel

theorem points_validCurve (pinf : BitVec 8) (x0 x1 x2 x3 x8 : Val) : ValidCurve (points pinf x0 x1 x2 x3 x8).operands := by
  have hp : (points pinf x0 x1 x2 x3 x8).operands.p = 223 := rfl
  have ha : (points pinf x0 x1 x2 x3 x8).operands.a = 0 := rfl
  have hb : (points pinf x0 x1 x2 x3 x8).operands.b = 7 := rfl
  unfold ValidCurve
  rw [hp, ha, hb]
  decide

theorem points_prime (pinf : BitVec 8) (x0 x1 x2 x3 x8 : Val) : (points pinf x0 x1 x2 x3 x8).operands.p.toNat.Prime ∧
    3 < (points pinf x0 x1 x2 x3 x8).operands.p.toNat := by
  have hp : (points pinf x0 x1 x2 x3 x8).operands.p.toNat = 223 := rfl
  rw [hp]
  exact ⟨by norm_num, by norm_num⟩

/-- Operands for PADD, PDBL, PNEG and PSUB: (47, 71) and INF on F_223, and (6, 0). -/
theorem witness_PointOperands :
    ValidPoint (points 2 47 71 0 0 0).operands ((points 2 47 71 0 0 0).operands.view 0) ∧
      ValidPoint (points 2 47 71 0 0 0).operands ((points 2 47 71 0 0 0).operands.view 1) ∧
      ValidPoint (points 0 6 0 0 0 0).operands ((points 0 6 0 0 0 0).operands.view 0) ∧
      (points 2 47 71 0 0 0).operands.view 0 = .aff 47 71 ∧ (points 2 47 71 0 0 0).operands.view 1 = .inf ∧
      (points 0 6 0 0 0 0).operands.view 0 = .aff 6 0 := by
  have h0 : (points 2 47 71 0 0 0).operands.view 0 = .aff 47 71 := by decide +kernel
  have h1 : (points 2 47 71 0 0 0).operands.view 1 = .inf := by decide +kernel
  have h2 : (points 0 6 0 0 0 0).operands.view 0 = .aff 6 0 := by decide +kernel
  rw [h0, h1, h2]
  unfold ValidPoint
  decide +kernel

/-- PaddResult, PsubResult, PdblResult: a sum that is defined, and one over the composite modulus 15 that is not, on valid
operands: (0, 1) and (3, 2) on y² = x³ + 12x + 1, and the double of (1, 3) on y² = x³ + 8. -/
theorem witness_SumDefined :
    SumDefined 223 (.aff 170 142) (.aff 60 139) ∧ SumDefined 223 (.aff 47 71) (.aff 47 71) ∧
      ¬SumDefined 15 (.aff 0 1) (.aff 3 2) ∧ ¬SumDefined 15 (.aff 1 3) (.aff 1 3) := by
  unfold SumDefined
  decide

theorem witness_SumUndefined_operands :
    let r := (curve 15 12 1 0 0 0 0 0 1 3 2 0).operands
    let q := (curve 15 0 8 0 0 0 0 1 3 0 0 0).operands
    ValidCurve r ∧ r.view 0 = .aff 0 1 ∧ r.view 1 = .aff 3 2 ∧ ValidPoint r (.aff 0 1) ∧ ValidPoint r (.aff 3 2) ∧
      ValidCurve q ∧ q.view 0 = .aff 1 3 ∧ ValidPoint q (.aff 1 3) := by
  unfold ValidCurve ValidPoint
  decide +kernel

theorem witness_PsubResult :
    negPoint 223 (.aff 47 71) = .aff 47 152 ∧ SumDefined 223 (.aff 36 111) (negPoint 223 (.aff 47 71)) ∧
      ¬SumDefined 15 (.aff 0 1) (negPoint 15 (.aff 3 13)) := by
  rw [show negPoint 223 (.aff 47 71) = .aff 47 152 by decide, show negPoint 15 (.aff 3 13) = .aff 3 2 by decide]
  unfold SumDefined
  decide

theorem witness_PchkResult : ValidCurve (points 0 200 119 0 0 0).operands := points_validCurve _ _ _ _ _ _

theorem witness_SmulResult :
    ValidCurve (points 0 47 71 0 0 4).operands ∧
      ValidPoint (points 0 47 71 0 0 4).operands ((points 0 47 71 0 0 4).operands.view 0) ∧
      smul 223 0 (.aff 47 71) 4 = .ok (.aff 194 51) ∧ smul 15 0 (.aff 1 3) 2 = .error .noinv ∧
      (points 0 47 71 0 0 0).operands.xNat 8 = 0 ∧ (points 0 47 71 0 0 1).operands.xNat 8 = 1 := by
  refine ⟨points_validCurve _ _ _ _ _ _, ?_, by decide +kernel, by decide +kernel, by decide +kernel, by decide +kernel⟩
  rw [show (points 0 47 71 0 0 4).operands.view 0 = .aff 47 71 by decide +kernel]
  unfold ValidPoint
  decide +kernel

theorem witness_PubkResult :
    let r := (points 0 0 0 0 0 20).operands
    ValidCurve r ∧ ModValid r.n.toNat ∧ ValidPoint r (.aff r.gx.toNat r.gy.toNat) ∧ 0 < r.xNat 8 ∧ r.xNat 8 < r.n.toNat ∧
      (points 0 0 0 0 0 0).operands.xNat 8 = 0 ∧
      (points 0 0 0 0 0 21).operands.n.toNat ≤ (points 0 0 0 0 0 21).operands.xNat 8 := by
  refine ⟨points_validCurve _ _ _ _ _ _, ?_⟩
  unfold ValidPoint
  decide +kernel

theorem witness_PubkResult_noinv :
    let r := (curve 15 0 8 7 1 3 0 0 0 0 0 2).operands
    ValidCurve r ∧ ModValid r.n.toNat ∧ ValidPoint r (.aff r.gx.toNat r.gy.toNat) ∧ 0 < r.xNat 8 ∧ r.xNat 8 < r.n.toNat ∧
      smul r.p.toNat r.a.toNat (.aff 1 3) (r.xNat 8) = .error .noinv := by
  unfold ValidCurve ValidPoint
  decide +kernel

theorem witness_OperandRegisterFrame :
    (∃ t, exec (.pneg 2 0) (points 0 47 71 0 0 0) = .next t) ∧ fieldDest (.pneg 2 0) ≠ some 0 ∧
      (∀ k, pointDest (.pneg 2 0) = some k → (0 : XIdx).val ≠ 2 * k.val ∧ (0 : XIdx).val ≠ 2 * k.val + 1) ∧
      pointDest (.pneg 2 0) ≠ some 0 := ⟨⟨_, rfl⟩, by decide, by decide, by decide⟩

theorem witness_FlagFrame :
    (∃ t, exec .nop State.reset = .next t) ∧ fieldDest .nop = none ∧ pointDest .nop = none ∧
      (∀ ms rd ra, Instr.nop ≠ .fsqrt ms rd ra) ∧ (∀ ra rb, Instr.nop ≠ .peq ra rb) ∧ (∀ ra, Instr.nop ≠ .pchk ra) ∧
      ∃ t, exec (.pchk 0) (poised 0x00000015 State.reset) = .next t ∧ t.errcmd ≠ State.reset.errcmd := ⟨⟨_, rfl⟩, rfl, rfl, by decide, by decide, by decide, _, rfl, by decide +kernel⟩

theorem witness_ControlRegisterFrame :
    ∃ t, exec (.fadd false 3 1 2) inFlight = .next t := ⟨_, rfl⟩

theorem witness_WindowFrame :
    (∃ t, exec (.fadd false 3 1 2) inFlight = .next t) ∧ 0x15C % 4 = 0 ∧ 0x15C < 0x1000 ∧
      0x15C ∉ [0x00C, 0x014, 0x018, 0x01C] ∧
      (∀ j, fieldDest (.fadd false 3 1 2) = some j → ¬(offX j ≤ 0x15C ∧ 0x15C < offX j + 0x20)) ∧
      ∀ k, pointDest (.fadd false 3 1 2) = some k → ¬(0x100 + 0x40 * k.val ≤ 0x15C ∧ 0x15C < 0x100 + 0x40 * k.val + 0x40) := ⟨⟨_, rfl⟩, by decide, by decide, by decide, by decide, by decide⟩

theorem witness_CommandReadsOnlyItsRegisters :
    SameReads (.smul 2 0 8) (points 0 47 71 0 0 4).regs (curve 223 0 7 99 1 2 0 47 71 5 6 4).regs := by
  unfold SameReads
  decide +kernel

theorem witness_BarrettAlgorithmReduces :
    (2 ^ 512 - 1 < 2 ^ 512 ∧ 3 ≤ 3 ∧ 3 < 2 ^ 256) ∧ 2 ^ 256 - 1 < 2 ^ 256 := by norm_num

theorem witness_RedcAlgorithmIsMontgomeryReduction :
    ModValid 3 ∧ 3 < 2 ^ 256 ∧ 3 * montR - 1 < 3 * montR := by unfold montR; decide

theorem witness_FmulAgreesWithBothEngines :
    ModValid 13 ∧ 13 < 2 ^ 256 ∧ 12 < 13 := by decide

theorem witness_GroupLawProperties :
    (points 0 47 71 17 56 0).operands.p.toNat.Prime ∧ 3 < (points 0 47 71 17 56 0).operands.p.toNat ∧
      ValidCurve (points 0 47 71 17 56 0).operands ∧ ValidPoint (points 0 47 71 17 56 0).operands (.aff 47 71) ∧
      ValidPoint (points 0 47 71 17 56 0).operands (.aff 17 56) ∧ ValidPoint (points 0 47 71 17 56 0).operands .inf := by
  refine ⟨(points_prime _ _ _ _ _ _).1, (points_prime _ _ _ _ _ _).2, points_validCurve _ _ _ _ _ _, ?_⟩
  unfold ValidPoint
  decide +kernel

/-- The singular point of a curve with zero discriminant is a valid operand too: (0, 0) on y² = x³. -/
theorem witness_ScalarMultiplicationIsAdditive :
    ValidPoint (points 0 47 71 0 0 0).operands (.aff 47 71) ∧
      ValidPoint (curve 223 0 0 0 0 0 0 0 0 0 0 0).operands (.aff 0 0) := by
  unfold ValidPoint
  decide +kernel

end Sys2Proof.Tests
end

section
/-! Sequencing (00_scope.md R8, R15): what a step does under each head of the schedule, and how long an accepted command
stays in flight. -/

namespace Sys2Proof.Machine

/-! ### One step under each head of the schedule -/

theorem step_of_turns_nil {s : State} (h : s.port.turns = []) : step s = complete s := by
  simp only [step, h]

theorem step_of_turns_cons {s : State} {t : Turn} {ts : List Turn} (h : s.port.turns = t :: ts) :
    step s = takeTurn t (withTurns ts s) := by
  simp only [step, h]

theorem complete_of_decode {s : State} {w : Word} {s0 : Regs} {i : Instr} (hp : s.pending = .pending w s0)
    (hd : decode w = .ok i) : complete s = exec i s := by
  simp only [complete, hp, completeWord, hd]

/-- Settles O6: both schedules give the sequencer its turn, and `complete` runs what the pending word decodes to. -/
theorem stepRunsTheDecodedCommand : Obligations.StepRunsTheDecodedCommand := by
  intro s w s0 i hp hd
  constructor
  · intro ts hts
    calc step s = complete (withTurns ts s) := step_of_turns_cons hts
      _ = exec i (withTurns ts s) := complete_of_decode hp hd
  · intro hnil
    rw [step_of_turns_nil hnil, complete_of_decode hp hd]

/-! ### A command in flight -/

/-- The command `w` is in flight: pending, under the invariant. -/
structure State.InFlight (s : State) (w : Word) : Prop where
  inv : s.Inv
  pending : ∃ s0, s.pending = .pending w s0

theorem State.InFlight.pending_ne_idle {s : State} {w : Word} (h : s.InFlight w) : s.pending ≠ .idle := by
  obtain ⟨s0, hp⟩ := h.pending
  simp [hp]

theorem State.InFlight.busy {s : State} {w : Word} (h : s.InFlight w) : s.status.busy = true :=
  h.inv.busy_iff.2 h.pending_ne_idle

theorem State.InFlight.cmd {s : State} {w : Word} (h : s.InFlight w) : s.cmd = w := by
  obtain ⟨s0, hp⟩ := h.pending
  exact (h.inv.snapshot w s0 hp).1

theorem State.InFlight.withTurns {s : State} {w : Word} (ts : List Turn) (h : s.InFlight w) :
    (withTurns ts s).InFlight w := ⟨Inv.withTurns ts h.inv, h.pending⟩

/-- R95: a host access that is no soft reset leaves the command in flight. -/
theorem State.InFlight.serve {s : State} {w : Word} {a : Access} (h : s.InFlight w) (ha : isSoftReset a = false) :
    (serve a s).InFlight w := by
  obtain ⟨hagree, -⟩ := serve_agree s a h.inv h.busy ha
  obtain ⟨s0, hp⟩ := h.pending
  exact ⟨Inv.serve a h.inv, s0, hagree.pending.trans hp⟩

/-- R301, R302: what every completion, faulting or not, leaves of the life cycle of the command `w`. -/
structure State.Completed (s : State) (w : Word) : Prop where
  pending : s.pending = .idle
  busy : s.status.busy = false
  done : s.status.done = true
  cmd : s.cmd = w

theorem State.InFlight.complete {s : State} {w : Word} (h : s.InFlight w) :
    ∃ t, complete s = .next t ∧ t.Completed w := by
  obtain ⟨hidle, -⟩ | ⟨-, ⟨c, hc⟩ | ⟨r, f, hc⟩⟩ := complete_cases s
  · exact absurd hidle h.pending_ne_idle
  · exact ⟨faultDone c s, hc, rfl, rfl, rfl, h.cmd⟩
  · exact ⟨okDone r f s, hc, rfl, rfl, rfl, h.cmd⟩

/-! ### LAT -/

/-- The command `w` is in flight for the first `n` states of the run from `s` and complete in the next one. -/
structure State.CompletesAt (s : State) (w : Word) (n : Nat) : Prop where
  before : ∀ k < n, ∃ t, Host.Core.run Sys2Proof.core k s = .next t ∧ t.InFlight w
  last : ∃ t, Host.Core.run Sys2Proof.core n s = .next t ∧ t.Completed w

theorem State.CompletesAt.zero {s : State} {w : Word} (h : s.Completed w) : s.CompletesAt w 0 :=
  ⟨fun _ hk => absurd hk (Nat.not_lt_zero _), s, rfl, h⟩

theorem State.CompletesAt.succ {s t : State} {w : Word} {n : Nat} (hs : s.InFlight w) (hstep : step s = .next t)
    (ht : t.CompletesAt w n) : s.CompletesAt w (n + 1) where
  before
    | 0, _ => ⟨s, rfl, hs⟩
    | k + 1, hk => by
      rw [run_succ hstep]
      exact ht.before k (Nat.lt_of_succ_lt_succ hk)
  last := by
    rw [run_succ hstep]
    exact ht.last

theorem State.InFlight.completesAt_one {s u : State} {w : Word} (hs : s.InFlight w) (hu : u.InFlight w)
    (hstep : step s = Machine.complete u) : s.CompletesAt w 1 := by
  obtain ⟨t, hc, ht⟩ := hu.complete
  exact .succ hs (hstep.trans hc) (.zero ht)

theorem lat_pos (ts : List Turn) : 0 < lat ts := by
  cases ts with
  | nil => decide
  | cons t ts => cases t <;> simp [lat]

/-- A turn before the sequencer's stands at the head of what the schedule plays before completion. -/
theorem take_lat_cons {t : Turn} {ts : List Turn} (h : lat (t :: ts) = lat ts + 1) :
    (t :: ts).take (lat (t :: ts) - 1) = t :: ts.take (lat ts - 1) := by
  rw [h, Nat.add_sub_cancel, List.take_cons (lat_pos ts)]

/-- R362, by induction on the schedule: the sequencer's turn completes the command, and a host turn before it leaves the
command in flight with LAT one less. -/
theorem State.InFlight.completesAt_lat {w : Word} (ts : List Turn) {s : State} (hs : s.InFlight w)
    (hts : s.port.turns = ts) (hreset : ∀ t ∈ ts.take (lat ts - 1), resets t = false) :
    s.CompletesAt w (lat ts) := by
  induction ts generalizing s with
  | nil => exact hs.completesAt_one hs (step_of_turns_nil hts)
  | cons t ts ih =>
    have hstep := step_of_turns_cons hts
    cases t with
    | sequencer => exact hs.completesAt_one (hs.withTurns ts) hstep
    | host a =>
      rw [take_lat_cons rfl, List.forall_mem_cons] at hreset
      obtain ⟨ha, hrest⟩ := hreset
      have hu := hs.withTurns ts
      have hturns := (serve_agree _ a hu.inv hu.busy ha).2
      exact .succ hs hstep (ih (hu.serve ha) hturns hrest)
    | rst =>
      rw [take_lat_cons rfl, List.forall_mem_cons] at hreset
      exact absurd hreset.1 (by decide)

/-- Settles O12: `completesAt_lat` for the schedule of the state itself. -/
theorem acceptedCommandCompletesAtLat : Obligations.AcceptedCommandCompletesAtLat := by
  intro s w s0 hinv hp hreset
  have h := State.InFlight.completesAt_lat s.port.turns ⟨hinv, s0, hp⟩ rfl hreset
  constructor
  · intro n hn
    obtain ⟨t, hrun, ht⟩ := h.before n hn
    exact ⟨t, hrun, ht.busy, ht.cmd⟩
  · obtain ⟨t, hrun, ht⟩ := h.last
    exact ⟨t, hrun, ht.pending, ht.busy, ht.done, ht.cmd⟩

end Sys2Proof.Machine
end

section
/-! The invariant (10_state.md R40, R41, R51, R52): it holds at reset, and every agent's turn keeps it. -/

namespace Sys2Proof.Machine

/-- Settles O9: after reset nothing is pending and no STATUS bit is set. -/
theorem invariantHoldsAtReset : Obligations.InvariantHoldsAtReset :=
  Inv.resetEccu State.reset

theorem Inv.complete {s t : State} (h : s.Inv) (hc : complete s = .next t) : t.Inv := by
  obtain ⟨-, hs⟩ | ⟨hp, ⟨c, hs⟩ | ⟨r, f, hs⟩⟩ := complete_cases s <;> cases hs.symm.trans hc
  · exact h
  · exact Inv.faultDone c h hp
  · exact Inv.okDone r f h

theorem Inv.takeTurn {turn : Turn} {s t : State} (h : s.Inv) (ht : takeTurn turn s = .next t) : t.Inv := by
  cases turn with
  | host a =>
    cases ht
    exact Inv.serve a h
  | sequencer => exact Inv.complete h ht
  | rst =>
    cases ht
    exact Inv.resetEccu s

/-- Settles O10: the agent at the head of the schedule, or the sequencer where there is none, keeps the invariant. -/
theorem stepKeepsInvariant : Obligations.StepKeepsInvariant := by
  intro s t h ht
  cases hts : s.port.turns with
  | nil =>
    rw [step_of_turns_nil hts] at ht
    exact Inv.complete h ht
  | cons turn ts =>
    rw [step_of_turns_cons hts] at ht
    exact Inv.takeTurn (Inv.withTurns ts h) ht

end Sys2Proof.Machine
end

section
/-! The result of a command apart from its completion (60_exceptions.md R301, R302): what `exec` computes from the
snapshot, as data, and the writes that commit it; the codes it can raise (R303), the registers it depends on (R354), and
what it is over the reset registers (R52). -/

namespace Sys2Proof.Machine

/-! ### `exec` is `finish` of a result -/

/-- What a completing command writes: nothing, or a result of its kind. -/
inductive Write where
  | nothing
  | field (rd : XIdx) (r : Nat)
  | sqrt (rd : XIdx) (r : Nat × Bool)
  | point (rd : PIdx) (res : Point)
  | eq (b : Bool)
  | onc (b : Bool)

/-- R152, R160, R225, R230, R231, R280: the writes of each kind of result. -/
def Write.commit : Write → State → State
  | .nothing => commitNothing ()
  | .field rd r => commitField rd r
  | .sqrt rd r => commitSqrt rd r
  | .point rd res => commitPoint rd res
  | .eq b => commitEq b
  | .onc b => commitOnc b

/-- What a command computes from the snapshot `r`: a fault, or what it is to write. -/
def result (i : Instr) (r : Regs) : Except FaultCode Write :=
  match i with
  | .nop => .ok .nothing
  | .fadd ms rd ra rb => (evalFadd r ms ra rb).map (.field rd)
  | .fsub ms rd ra rb => (evalFsub r ms ra rb).map (.field rd)
  | .fmul ms rd ra rb => (evalFmul r ms ra rb).map (.field rd)
  | .fdiv ms rd ra rb => (evalFdiv r ms ra rb).map (.field rd)
  | .fpow ms se rd ra rb => (evalFpow r ms se ra rb).map (.field rd)
  | .fneg ms rd ra => (evalFneg r ms ra).map (.field rd)
  | .finv ms rd ra => (evalFinv r ms ra).map (.field rd)
  | .fsqrt ms rd ra => (evalFsqrt r ms ra).map (.sqrt rd)
  | .mmul ms rd ra rb => (evalMmul r ms ra rb).map (.field rd)
  | .bred ms rd rhi rlo => (evalBred r ms rhi rlo).map (.field rd)
  | .padd rd ra rb => (evalPadd r ra rb).map (.point rd)
  | .pdbl rd ra => (evalPdbl r ra).map (.point rd)
  | .pneg rd ra => (evalPneg r ra).map (.point rd)
  | .psub rd ra rb => (evalPsub r ra rb).map (.point rd)
  | .peq ra rb => (evalPeq r ra rb).map .eq
  | .pchk ra => (evalPchk r ra).map .onc
  | .smul rd ra rb => (evalSmul r ra rb).map (.point rd)
  | .pubk rd rb => (evalPubk r rb).map (.point rd)

theorem finish_map {α : Type} (x : Except FaultCode α) (f : α → Write) (s : State) :
    finish (x.map f) Write.commit s = finish x (fun v => (f v).commit) s := by
  cases x <;> rfl

theorem exec_eq_finish (i : Instr) (s : State) : exec i s = finish (result i s.operands) Write.commit s := by
  cases i with
  | nop => rfl
  | _ =>
    rw [result, finish_map]
    rfl

theorem exec_of_result_error {i : Instr} {s : State} {c : FaultCode} (h : result i s.operands = .error c) :
    exec i s = .next (faultDone c s) := by
  rw [exec_eq_finish, h]
  rfl

/-- R302: a commit writes registers and flags only, so what it leaves after the completion is an `okDone` state. -/
theorem Write.completeOk_commit (w : Write) (s : State) :
    completeOk (w.commit s) = okDone (w.commit s).regs (w.commit s).flags s := by
  cases w <;> rfl

/-! ### The codes a result can raise (R303) -/

/-- A fault that the computation `x` raises has one of the codes `cs`. -/
def Raises {α : Type} (cs : List FaultCode) (x : Except FaultCode α) : Prop := ∀ c, x = .error c → c ∈ cs

section
variable {α β : Type} {cs : List FaultCode} {k : Except FaultCode α}

theorem raises_ok (v : α) : Raises [] (.ok v : Except FaultCode α) := fun _ h => nomatch h

theorem raises_error (c : FaultCode) : Raises [c] (.error c : Except FaultCode α) := by
  rintro _ ⟨⟩
  exact List.mem_cons_self

theorem Raises.mono {ds : List FaultCode} (hk : Raises cs k) (h : cs ⊆ ds) : Raises ds k :=
  fun c hc => h (hk c hc)

theorem Raises.map (hk : Raises cs k) (f : α → β) : Raises cs (k.map f) := by
  intro c h
  cases k with
  | error e =>
    cases h
    exact hk c rfl
  | ok v => cases h

theorem raises_require {p : Prop} [Decidable p] (code : FaultCode) (hk : Raises cs k) :
    Raises (code :: cs) (require p code k) := by
  intro c h
  obtain rfl | h := require_error h
  · exact List.mem_cons_self
  · exact List.mem_cons_of_mem _ (hk c h)

theorem raises_guardField1 {m a : Nat} (hk : Raises cs k) : Raises (.badmod :: .range :: cs) (guardField1 m a k) :=
  raises_require _ (raises_require _ hk)

theorem raises_guardField2 {m a b : Nat} (hk : Raises cs k) :
    Raises (.badmod :: .range :: cs) (guardField2 m a b k) :=
  (raises_require _ (raises_require _ (raises_require _ hk))).mono (by simp)

theorem raises_guardCurve {r : Regs} (hk : Raises cs k) : Raises (.badmod :: .range :: cs) (guardCurve r k) :=
  (raises_require _ (raises_require _ (raises_require _ hk))).mono (by simp)

theorem raises_guardCurveN {r : Regs} (hk : Raises cs k) : Raises (.badmod :: .range :: cs) (guardCurveN r k) :=
  (raises_require _ (raises_require _ (raises_require _ (raises_require _ hk)))).mono (by simp)

theorem raises_guardPoint1 {r : Regs} {u : Point} (hk : Raises cs k) :
    Raises (.range :: .notonc :: cs) (guardPoint1 r u k) :=
  raises_require _ (raises_require _ hk)

theorem raises_guardPoint2 {r : Regs} {u v : Point} (hk : Raises cs k) :
    Raises (.range :: .notonc :: cs) (guardPoint2 r u v k) :=
  (raises_require _ (raises_require _ (raises_require _ (raises_require _ hk)))).mono (by simp)

end

theorem raises_sqrtMod (a m : Nat) : Raises [.nosqrt] (sqrtMod a m) := by
  unfold sqrtMod
  split
  · exact (raises_ok _).mono (List.nil_subset _)
  · split
    · exact raises_error _
    · exact (raises_ok _).mono (List.nil_subset _)

theorem raises_addPoints (p a : Nat) (u v : Point) : Raises [.noinv] (addPoints p a u v) :=
  fun _ h => List.mem_singleton.2 (addPoints_error h)

theorem raises_smul (p a : Nat) (u : Point) (n : Nat) : Raises [.noinv] (smul p a u n) :=
  fun _ h => List.mem_singleton.2 (smulLoop_error _ h)

theorem raises_result (i : Instr) (r : Regs) : Raises (raises i) (result i r) := by
  cases i with
  | nop => exact raises_ok _
  | peq => exact raises_ok _
  | fadd | fsub | fmul | mmul => exact (raises_guardField2 (raises_ok _)).map _
  | fdiv => exact (raises_guardField2 (raises_require _ (raises_ok _))).map _
  | fpow | fneg => exact (raises_guardField1 (raises_ok _)).map _
  | finv => exact (raises_guardField1 (raises_require _ (raises_ok _))).map _
  | fsqrt => exact (raises_guardField1 (raises_sqrtMod _ _)).map _
  | bred => exact (raises_require _ (raises_ok _)).map _
  | padd | psub =>
    exact ((raises_guardCurve (raises_guardPoint2 (raises_addPoints _ _ _ _))).mono (by simp [raises])).map _
  | pdbl =>
    exact ((raises_guardCurve (raises_guardPoint1 (raises_addPoints _ _ _ _))).mono (by simp [raises])).map _
  | pneg => exact ((raises_guardCurve (raises_guardPoint1 (raises_ok _))).mono (by simp [raises])).map _
  | pchk => exact (raises_guardCurve (raises_ok _)).map _
  | smul => exact ((raises_guardCurve (raises_guardPoint1 (raises_smul _ _ _ _))).mono (by simp [raises])).map _
  | pubk =>
    exact ((raises_guardCurveN (raises_guardPoint1 (raises_require _ (raises_smul _ _ _ _)))).mono
      (by simp [raises])).map _

/-- Settles O8: the result is a fault with a code of the command's row, or a write that `completeOk` follows. -/
theorem completionIsFaultOrCommit : Obligations.CompletionIsFaultOrCommit := by
  intro i s
  rw [exec_eq_finish]
  obtain ⟨c, hc, hs⟩ | ⟨w, -, hs⟩ := finish_cases (result i s.operands) Write.commit s
  · exact .inl ⟨c, raises_result i s.operands c hc, hs⟩
  · exact .inr ⟨_, _, hs.trans (congrArg _ (w.completeOk_commit s))⟩

/-! ### The registers a result depends on (R354) -/

theorem modulus_congr {r r' : Regs} {ms : Bool} (h : if ms then r.n = r'.n else r.p = r'.p) :
    r.modulus ms = r'.modulus ms := by
  cases ms <;> simp_all [Regs.modulus]

theorem xNat_congr {r r' : Regs} {j : XIdx} (h : r.x[j.val] = r'.x[j.val]) : r.xNat j = r'.xNat j :=
  congrArg BitVec.toNat h

section
variable {α : Type} {r r' : Regs} (hp : r.p = r'.p) (ha : r.a = r'.a) (hb : r.b = r'.b)
include hp ha hb

theorem guardCurve_congr (k : Except FaultCode α) : guardCurve r k = guardCurve r' k := by
  unfold guardCurve Regs.pNat Regs.aNat Regs.bNat
  rw [hp, ha, hb]

theorem guardCurveN_congr (hn : r.n = r'.n) (k : Except FaultCode α) : guardCurveN r k = guardCurveN r' k := by
  unfold guardCurveN Regs.pNat Regs.aNat Regs.bNat
  rw [hp, hn, ha, hb]

theorem onCurve_congr (u : Point) : r.onCurve u = r'.onCurve u := by
  unfold Regs.onCurve Regs.pNat Regs.aNat Regs.bNat
  rw [hp, ha, hb]

theorem guardPoint1_congr (u : Point) (k : Except FaultCode α) : guardPoint1 r u k = guardPoint1 r' u k := by
  unfold guardPoint1 Regs.pNat
  rw [hp, onCurve_congr hp ha hb]

theorem guardPoint2_congr (u v : Point) (k : Except FaultCode α) : guardPoint2 r u v k = guardPoint2 r' u v k := by
  unfold guardPoint2 Regs.pNat
  rw [hp, onCurve_congr hp ha hb, onCurve_congr hp ha hb]

end

theorem result_congr {i : Instr} {r r' : Regs} (h : SameReads i r r') : result i r = result i r' := by
  cases i with
  | nop => rfl
  | fadd | fsub | fmul | fdiv | mmul =>
    obtain ⟨hm, ha, hb⟩ := h
    simp only [result, evalFadd, evalFsub, evalFmul, evalFdiv, evalMmul, modulus_congr hm, xNat_congr ha,
      xNat_congr hb]
  | fpow =>
    obtain ⟨hm, ha, hb⟩ := h
    simp only [result, evalFpow, Regs.exponent, modulus_congr hm, xNat_congr ha, xNat_congr hb, hb]
  | fneg | finv | fsqrt =>
    obtain ⟨hm, ha⟩ := h
    simp only [result, evalFneg, evalFinv, evalFsqrt, modulus_congr hm, xNat_congr ha]
  | bred =>
    obtain ⟨hm, hhi, hlo⟩ := h
    simp only [result, evalBred, Regs.double, modulus_congr hm, xNat_congr hhi, xNat_congr hlo]
  | padd | psub =>
    obtain ⟨hp, ha, hb, hu, hv⟩ := h
    simp only [result, evalPadd, evalPsub, guardCurve_congr hp ha hb, guardPoint2_congr hp ha hb, Regs.pNat,
      Regs.aNat, hp, ha, hu, hv]
  | pdbl | pneg =>
    obtain ⟨hp, ha, hb, hu⟩ := h
    simp only [result, evalPdbl, evalPneg, guardCurve_congr hp ha hb, guardPoint1_congr hp ha hb, Regs.pNat,
      Regs.aNat, hp, ha, hu]
  | pchk =>
    obtain ⟨hp, ha, hb, hu⟩ := h
    simp only [result, evalPchk, guardCurve_congr hp ha hb, onCurve_congr hp ha hb, hu]
  | peq =>
    obtain ⟨hu, hv⟩ := h
    simp only [result, evalPeq, hu, hv]
  | smul =>
    obtain ⟨hp, ha, hb, hu, hk⟩ := h
    simp only [result, evalSmul, guardCurve_congr hp ha hb, guardPoint1_congr hp ha hb, Regs.pNat, Regs.aNat, hp, ha,
      hu, xNat_congr hk]
  | pubk =>
    obtain ⟨hp, ha, hb, hn, hx, hy, hk⟩ := h
    simp only [result, evalPubk, guardCurveN_congr hp ha hb hn, guardPoint1_congr hp ha hb, Regs.generator,
      Regs.pNat, Regs.aNat, hp, ha, hn, hx, hy, xNat_congr hk]

/-- A completion discards the snapshot, so the next state depends on it through the result only. -/
theorem finish_pending (x : Except FaultCode Write) (s : State) (w : Word) (r r' : Regs) :
    finish x Write.commit { s with pending := .pending w r } =
      finish x Write.commit { s with pending := .pending w r' } := by
  cases x with
  | error c => rfl
  | ok v => cases v <;> rfl

/-- Settles O55: equal reads give equal results, and equal results equal completions. -/
theorem commandReadsOnlyItsRegisters : Obligations.CommandReadsOnlyItsRegisters := by
  intro i s w r r' h
  calc exec i { s with pending := .pending w r }
      = finish (result i r) Write.commit { s with pending := .pending w r } := exec_eq_finish i _
    _ = finish (result i r') Write.commit { s with pending := .pending w r } := by rw [result_congr h]
    _ = finish (result i r') Write.commit { s with pending := .pending w r' } := finish_pending _ s w r r'
    _ = exec i { s with pending := .pending w r' } :=
      (exec_eq_finish i { s with pending := .pending w r' }).symm

end Sys2Proof.Machine
end

section
/-! What a command leaves unchanged (10_state.md R32, R35 to R37, R39, R40, R42, R43, R46), and how a point view is read
and written (R34, R35). -/

namespace Sys2Proof.Machine

/-! ### Frames -/

/-- Settles O51: of the three kinds of write of `exec_writes`, `setX` and `setView` leave other registers alone. -/
theorem operandRegisterFrame : Obligations.OperandRegisterFrame := by
  intro i s t ht
  obtain ⟨c, hs⟩ | ⟨r, f, hs, hr, -⟩ := exec_writes i s <;> cases hs.symm.trans ht
  · exact ⟨fun _ _ _ => rfl, fun _ _ => rfl, fun _ => rfl⟩
  · obtain ⟨rd, v, hrd, -, rfl⟩ | ⟨rd, u, hrd, -, rfl⟩ | ⟨-, -, rfl⟩ := hr
    · rw [hrd]
      exact ⟨fun j hj _ => setX_other _ v fun h => hj (congrArg some h), fun _ _ => rfl, setX_curve _ rd v⟩
    · rw [hrd]
      refine ⟨fun j _ hj => ?_, fun k hk => setView_pinf_other _ u fun h => hk (congrArg some h.symm),
        setView_curve _ rd u⟩
      obtain ⟨hx, hy⟩ := hj rd rfl
      exact setView_x_other _ u hx hy
    · exact ⟨fun _ _ _ => rfl, fun _ _ => rfl, fun _ => rfl⟩

/-- Settles O52: a fault writes no flag, and only a fault writes ERRCMD. -/
theorem flagFrame : Obligations.FlagFrame := by
  intro i s t ht
  obtain ⟨c, hs⟩ | ⟨r, f, hs, -, hzo, hqr, heq, honc⟩ := exec_writes i s <;> cases hs.symm.trans ht
  · exact ⟨fun _ _ => ⟨rfl, rfl⟩, fun _ => rfl, fun _ => rfl, fun _ => rfl, fun _ => rfl⟩
  · exact ⟨hzo, hqr, heq, honc, fun h => absurd rfl h⟩

/-- Settles O53: both completions leave the control registers as said; `faultDone` puts the word in ERRCMD. -/
theorem controlRegisterFrame : Obligations.ControlRegisterFrame := by
  intro i s t ht
  obtain ⟨c, hs⟩ | ⟨r, f, hs⟩ := exec_cases i s <;> cases hs.symm.trans ht
  · exact ⟨rfl, rfl, rfl, rfl, rfl, rfl, rfl, .inr ⟨rfl, rfl⟩⟩
  · exact ⟨rfl, rfl, rfl, rfl, rfl, rfl, rfl, .inl rfl⟩

/-! ### Point views -/

theorem view_of_tag_set {r : Regs} {k : PIdx} (h : r.pinf.getLsbD k.val = true) : r.view k = .inf := if_pos h

theorem view_of_tag_clear {r : Regs} {k : PIdx} (h : r.pinf.getLsbD k.val = false) :
    r.view k = .aff (r.x[2 * k.val]).toNat (r.x[2 * k.val + 1]).toNat := if_neg (ne_true_of_eq_false h)

theorem view_congr {r r' : Regs} {k : PIdx} (htag : r'.pinf.getLsbD k.val = r.pinf.getLsbD k.val)
    (hx : r'.x[2 * k.val] = r.x[2 * k.val]) (hy : r'.x[2 * k.val + 1] = r.x[2 * k.val + 1]) :
    r'.view k = r.view k := by
  cases h : r.pinf.getLsbD k.val with
  | true => rw [view_of_tag_set h, view_of_tag_set (htag.trans h)]
  | false => rw [view_of_tag_clear h, view_of_tag_clear (htag.trans h), hx, hy]

theorem setView_inf (r : Regs) (k : PIdx) :
    (r.setView k .inf).pinf.getLsbD k.val = true ∧ (r.setView k .inf).x[2 * k.val] = 0 ∧
      (r.setView k .inf).x[2 * k.val + 1] = 0 :=
  ⟨setTag_same _ _ _, by simp [Regs.setView, xOfView, yOfView], by simp [Regs.setView, xOfView, yOfView]⟩

theorem setView_aff (r : Regs) (k : PIdx) (x y : Val) :
    (r.setView k (.aff x.toNat y.toNat)).pinf.getLsbD k.val = false ∧
      (r.setView k (.aff x.toNat y.toNat)).x[2 * k.val] = x ∧
      (r.setView k (.aff x.toNat y.toNat)).x[2 * k.val + 1] = y :=
  ⟨setTag_same _ _ _, by simp [Regs.setView, xOfView, yOfView], by simp [Regs.setView, xOfView, yOfView]⟩

theorem setView_view_other (r : Regs) {k k' : PIdx} (u : Point) (h : k' ≠ k) :
    (r.setView k u).view k' = r.view k' := by
  have hne : k'.val ≠ k.val := fun e => h (Fin.ext e)
  exact view_congr (setView_pinf_other r u h)
    (setView_x_other r u (j := xOfView k') (by simp only [xOfView]; omega) (by simp only [xOfView]; omega))
    (setView_x_other r u (j := yOfView k') (by simp only [yOfView]; omega) (by simp only [yOfView]; omega))

/-- Settles O29: a point whose coordinates fit reads back because its tag and both coordinates do. -/
theorem pointViewWrite : Obligations.PointViewWrite := by
  intro r k u
  refine ⟨view_of_tag_set, view_of_tag_clear, ?_, ?_,
    fun k' hk => ⟨setView_pinf_other r u hk, setView_view_other r u hk⟩,
    fun j hx hy => setView_x_other r u hx hy, setView_curve r k u⟩
  · rintro rfl
    exact setView_inf r k
  · rintro x y rfl
    obtain ⟨htag, hx, hy⟩ := setView_aff r k x y
    exact ⟨htag, hx, hy, by rw [view_of_tag_clear htag, hx, hy]⟩

end Sys2Proof.Machine
end

section
/-! The control registers at the host port (10_state.md R33, R39 to R45): what the host reads of them and what its
writes do. -/

namespace Sys2Proof.Machine

/-! ### Reads -/

@[simp] theorem memRead_id (s : State) : memRead 0x000 s = idValue := by simp [memRead]

@[simp] theorem memRead_ctrl (s : State) : memRead 0x004 s = 0 := by simp [memRead]

@[simp] theorem memRead_status (s : State) : memRead 0x00C s = s.status.toWord := by simp [memRead]

@[simp] theorem memRead_ie (s : State) : memRead 0x010 s = s.ie.toWord := by simp [memRead]

@[simp] theorem memRead_flags (s : State) : memRead 0x014 s = s.flags.toWord := by simp [memRead]

@[simp] theorem memRead_pinf (s : State) : memRead 0x01C s = s.regs.pinf.setWidth 32 := by simp [memRead]

/-! ### Writes -/

@[simp] theorem memWrite_id (v : Word) (s : State) : memWrite 0x000 v s = s := by simp [memWrite]

theorem memWrite_ctrl (v : Word) (s : State) :
    memWrite 0x004 v s = if v.getLsbD 0 then resetEccu s else s := by simp only [memWrite, slotAt_ctrl]

@[simp] theorem memWrite_status (v : Word) (s : State) : memWrite 0x00C v s = acknowledge v s := by simp [memWrite]

@[simp] theorem memWrite_ie (v : Word) (s : State) : memWrite 0x010 v s = { s with ie := IntEnable.ofWord v } := by
  simp [memWrite]

@[simp] theorem memWrite_flags (v : Word) (s : State) : memWrite 0x014 v s = s := by simp [memWrite]

@[simp] theorem memWrite_errcmd (v : Word) (s : State) : memWrite 0x018 v s = s := by simp [memWrite]

theorem memWrite_pinf_idle (v : Word) {s : State} (h : s.status.busy = false) :
    memWrite 0x01C v s = { s with regs := { s.regs with pinf := v.setWidth 8 } } := by
  simp [memWrite, whileIdle, h]

/-- R84, R87: an aligned 32-bit write inside the window is taken. -/
theorem serve_write (v : Word) {off : Nat} (s : State) (h4 : off % 4 = 0) (hlt : off < 0x1000) :
    serve ⟨.write v, .bits32, off⟩ s = respond .written (memWrite off v s) := by
  have hin : ¬windowBytes ≤ off := Nat.not_le.2 hlt
  simp [serve, hin, h4]

theorem and_not_eq_ite (b c : Bool) : (b && !c) = if c = true then false else b := by cases c <;> simp

/-- Settles O26: the write is an acknowledgment, which clears STATUS bit by bit. -/
theorem statusIsWriteOneToClear : Obligations.StatusIsWriteOneToClear := by
  intro s v
  rw [serve_write v s rfl (by decide), memWrite_status]
  simp only [respond, acknowledge, Status.clear, and_not_eq_ite]

/-! ### Layouts -/

theorem status_layout (s : Status) : s.toWord &&& 0xFFFFF0F0 = 0 ∧ s.toWord.getLsbD 0 = s.busy ∧
    s.toWord.getLsbD 1 = s.done ∧ s.toWord.getLsbD 2 = s.err ∧ s.toWord.getLsbD 3 = s.werr ∧
    s.toWord.extractLsb' 8 4 = s.codeBits := by
  unfold Status.toWord
  generalize s.codeBits = code, s.busy = busy, s.done = done, s.err = err, s.werr = werr
  revert code busy done err werr
  decide

theorem ie_layout (e : IntEnable) : e.toWord &&& 0xFFFFFFF8 = 0 ∧ e.toWord.getLsbD 0 = e.doneIe ∧
    e.toWord.getLsbD 1 = e.errIe ∧ e.toWord.getLsbD 2 = e.werrIe := by
  obtain ⟨done, err, werr⟩ := e
  revert done err werr
  decide

theorem flags_layout (f : Flags) : f.toWord &&& 0xFFFFFFE0 = 0 ∧ f.toWord.getLsbD 0 = f.z ∧
    f.toWord.getLsbD 1 = f.odd ∧ f.toWord.getLsbD 2 = f.qr ∧ f.toWord.getLsbD 3 = f.eq ∧
    f.toWord.getLsbD 4 = f.onc := by
  obtain ⟨z, odd, qr, eq, onc⟩ := f
  revert z odd qr eq onc
  decide

theorem pinf_layout (b : BitVec 8) :
    b.setWidth 32 &&& 0xFFFFFF00 = 0 ∧ ∀ k : PIdx, (b.setWidth 32).getLsbD k.val = b.getLsbD k.val := by
  revert b
  decide

/-- Settles O27: the layout of each word, with the numbers of R303 case by case. -/
theorem statusWordsHaveTheirLayout : Obligations.StatusWordsHaveTheirLayout := by
  intro s
  obtain ⟨hres, hbusy, hdone, herr, hwerr, hcode⟩ := status_layout s.status
  obtain ⟨hie, hdoneIe, herrIe, hwerrIe⟩ := ie_layout s.ie
  obtain ⟨hflags, hz, hodd, hqr, heq, honc⟩ := flags_layout s.flags
  obtain ⟨hpinf, htag⟩ := pinf_layout s.regs.pinf
  simp only [memRead_status, memRead_ie, memRead_flags, memRead_pinf]
  refine ⟨hres, hbusy, hdone, herr, hwerr, hcode.trans ?_, hie, hdoneIe, herrIe, hwerrIe, hflags, hz, hodd, hqr, heq,
    honc, hpinf, htag⟩
  unfold Status.codeBits
  cases s.status.errcode with
  | none => rfl
  | some c => cases c <;> rfl

/-! ### What a register write keeps -/

theorem ieWord_bit (e : IntEnable) (n : Fin 32) : e.toWord.getLsbD n.val =
    if n = 0 then e.doneIe else if n = 1 then e.errIe else if n = 2 then e.werrIe else false := by
  obtain ⟨done, err, werr⟩ := e
  revert done err werr n
  decide

theorem ieWord_readback (v : Word) : (IntEnable.ofWord v).toWord = v &&& 7 := by
  apply BitVec.eq_of_getLsbD_eq
  intro n hn
  rw [ieWord_bit _ ⟨n, hn⟩]
  interval_cases n <;> simp [IntEnable.ofWord]

theorem setWidth_low_byte (v : Word) : (v.setWidth 8).setWidth 32 = v &&& 0xFF := by
  apply BitVec.eq_of_getLsbD_eq
  intro n hn
  interval_cases n <;> simp

/-- Settles O28: by the rule of each register's write. -/
theorem controlRegisterWrites : Obligations.ControlRegisterWrites := by
  intro s v
  refine ⟨memRead_id s, memRead_ctrl s, memWrite_id v s, memWrite_flags v s, memWrite_errcmd v s, ?_,
    ⟨?_, ?_⟩, ?_⟩
  · intro hv
    rw [memWrite_ctrl, hv]
    rfl
  · rw [memWrite_ie, memRead_ie, ieWord_readback]
  · rw [memWrite_ie]
  · intro hidle
    rw [memWrite_pinf_idle v hidle, memRead_pinf]
    exact ⟨setWidth_low_byte v, _, rfl⟩

end Sys2Proof.Machine
end

section
/-! Reset (10_state.md R52; 70_reset_and_hazards.md R351, R352): the state both resets lead to, what the host reads of
it, and what commands do in it. -/

namespace Sys2Proof.Machine

/-! ### The state after a reset -/

theorem resetEccu_eq (s : State) : resetEccu s = { State.reset with port := s.port } := rfl

/-- R281: a soft reset resets the ECCU as `rst` does. -/
theorem serve_softReset {v : Word} (s : State) (hv : v.getLsbD 0 = true) :
    serve ⟨.write v, .bits32, 0x004⟩ s = respond .written (resetEccu s) := by
  rw [serve_write v s rfl (by decide), memWrite_ctrl, if_pos hv]

theorem reset_cases {s t : State} {v : Word} (hv : v.getLsbD 0 = true)
    (h : takeTurn .rst s = .next t ∨ serve ⟨.write v, .bits32, 0x004⟩ s = t) :
    ∃ p, t = { State.reset with port := p } := by
  obtain h | h := h
  · cases h
    exact ⟨s.port, resetEccu_eq s⟩
  · rw [serve_softReset s hv] at h
    exact ⟨_, h.symm⟩

/-! ### What the host reads -/

theorem offset_of_id {off : Nat} (h4 : off % 4 = 0) (hlt : off < 0x1000) (h : slotAt off = .id) : off = 0x000 := by
  obtain e | e := slotAt_cases h4 hlt
  · cases h.symm.trans e
  · rw [e, h]
    rfl

theorem memRead_reset {off : Nat} (h0 : off ≠ 0x000) (h4 : off % 4 = 0) (hlt : off < 0x1000) :
    memRead off State.reset = 0 := by
  have zeroWord : ∀ j, getWord 0 j = 0 := fun j => by simp [getWord]
  unfold memRead
  cases h : slotAt off with
  | id => exact absurd (offset_of_id h4 hlt h) h0
  | x i j =>
    have hx : State.reset.regs.x[i.val] = 0 := by simp [State.reset, Regs.reset]
    simp only [hx, zeroWord]
  | curve c j => cases c <;> exact zeroWord j
  | _ => rfl

theorem view_reset (k : PIdx) : Regs.reset.view k = .aff 0 0 := by
  simp [Regs.view, Regs.reset, Regs.xNat]

/-! ### What commands do -/

theorem not_modValid_reset (ms : Bool) : ¬ModValid (Regs.reset.modulus ms) := by cases ms <;> decide

theorem guardCurveN_badmod {α : Type} {r : Regs} {k : Except FaultCode α} (h : ¬ModValid r.p.toNat) :
    guardCurveN r k = .error .badmod := require_neg h

theorem result_reset {i : Instr} (hnop : i ≠ .nop) (hpeq : ∀ ra rb, i ≠ .peq ra rb) :
    result i Regs.reset = .error .badmod := by
  cases i with
  | nop => exact absurd rfl hnop
  | peq ra rb => exact absurd rfl (hpeq ra rb)
  | fadd ms | fsub ms | fmul ms | fdiv ms | mmul ms =>
    simp only [result, evalFadd, evalFsub, evalFmul, evalFdiv, evalMmul, guardField2_badmod (not_modValid_reset ms),
      Except.map]
  | fpow ms | fneg ms | finv ms | fsqrt ms =>
    simp only [result, evalFpow, evalFneg, evalFinv, evalFsqrt, guardField1_badmod (not_modValid_reset ms),
      Except.map]
  | bred ms => simp only [result, evalBred, require_neg (not_modValid_reset ms), Except.map]
  | padd | pdbl | pneg | psub | pchk | smul =>
    have hp : ¬ModValid Regs.reset.p.toNat := not_modValid_reset false
    simp only [result, evalPadd, evalPdbl, evalPneg, evalPsub, evalPchk, evalSmul, guardCurve_badmod hp, Except.map]
  | pubk =>
    have hp : ¬ModValid Regs.reset.p.toNat := not_modValid_reset false
    simp only [result, evalPubk, guardCurveN_badmod hp, Except.map]

/-- R352: P and N are 0, so no modulus is valid. -/
theorem exec_of_operands_reset {i : Instr} {s : State} (h : s.operands = Regs.reset) (hnop : i ≠ .nop)
    (hpeq : ∀ ra rb, i ≠ .peq ra rb) : exec i s = .next (faultDone .badmod s) :=
  exec_of_result_error (h ▸ result_reset hnop hpeq)

/-- Settles O13: both resets lead to the reset state with some port, and the port is in none of the answers. -/
theorem resetValues : Obligations.ResetValues := by
  intro s t v hv h
  obtain ⟨p, rfl⟩ := reset_cases hv h
  refine ⟨memRead_id _, fun off h0 h4 hlt => ?_, view_reset, rfl, rfl, fun i hnop hpeq => ?_⟩
  · rw [memRead_withPort, memRead_reset h0 h4 hlt]
  · exact exec_of_operands_reset rfl hnop hpeq

end Sys2Proof.Machine
end

section
/-! The register window (20_memory.md R81 to R89): what a read and a write do at each offset that names a word of an X
or curve register or nothing, what one access does at the host port, and the words and bytes of a 256-bit register. -/

namespace Sys2Proof.Machine

/-! ### The map -/

/-- Settles O19: the law of each range of the map. -/
theorem registerMap : Obligations.RegisterMap :=
  ⟨slotAt_x, slotAt_curve, fun _ => slotAt_reserved, slotAt_id, slotAt_ctrl, slotAt_cmd, slotAt_status, slotAt_ie,
    slotAt_flags, slotAt_errcmd, slotAt_pinf⟩

/-- R81: only one aligned offset names a given register or word. -/
theorem eq_offset_of_slotAt {off : Nat} {sl : Slot} (h4 : off % 4 = 0) (hlt : off < 0x1000) (h : slotAt off = sl)
    (hne : sl ≠ .reserved) : off = sl.offset := by
  obtain e | e := slotAt_cases h4 hlt
  · exact absurd (h.symm.trans e) hne
  · rw [e, h]

/-! ### Reads and writes by what the offset names -/

@[simp] theorem memRead_x (i : XIdx) (j : Fin 8) (s : State) :
    memRead (0x100 + 0x20 * i.val + 4 * j.val) s = getWord (s.regs.x[i.val]) j := by simp [memRead]

@[simp] theorem memRead_curve (c : CurveReg) (j : Fin 8) (s : State) :
    memRead (offCurve c + 4 * j.val) s = getWord (s.regs.curve c) j := by simp [memRead]

theorem memWrite_x_idle (i : XIdx) (j : Fin 8) (v : Word) {s : State} (h : s.status.busy = false) :
    memWrite (0x100 + 0x20 * i.val + 4 * j.val) v s =
      { s with regs := s.regs.setX i (putWord (s.regs.x[i.val]) j v) } := by simp [memWrite, whileIdle, h]

theorem memWrite_curve_idle (c : CurveReg) (j : Fin 8) (v : Word) {s : State} (h : s.status.busy = false) :
    memWrite (offCurve c + 4 * j.val) v s =
      { s with regs := s.regs.setCurve c (putWord (s.regs.curve c) j v) } := by simp [memWrite, whileIdle, h]

theorem memRead_reserved {off : Nat} (s : State) (h : slotAt off = .reserved) : memRead off s = 0 := by
  simp [memRead, h]

theorem memWrite_reserved {off : Nat} (v : Word) (s : State) (h : slotAt off = .reserved) : memWrite off v s = s := by
  simp [memWrite, h]

/-- A word of the window is a view of one register: two states that agree there read the same. -/
theorem memRead_congr {off : Nat} {s t : State} (hcmd : slotAt off = .cmd → t.cmd = s.cmd)
    (hstatus : slotAt off = .status → t.status = s.status) (hie : slotAt off = .ie → t.ie = s.ie)
    (hflags : slotAt off = .flags → t.flags = s.flags) (herrcmd : slotAt off = .errcmd → t.errcmd = s.errcmd)
    (hpinf : slotAt off = .pinf → t.regs.pinf = s.regs.pinf)
    (hx : ∀ i j, slotAt off = .x i j → getWord (t.regs.x[i.val]) j = getWord (s.regs.x[i.val]) j)
    (hcurve : ∀ c j, slotAt off = .curve c j → getWord (t.regs.curve c) j = getWord (s.regs.curve c) j) :
    memRead off t = memRead off s := by
  unfold memRead
  cases h : slotAt off with
  | id | ctrl | reserved => rfl
  | cmd => exact hcmd h
  | status => exact congrArg Status.toWord (hstatus h)
  | ie => exact congrArg IntEnable.toWord (hie h)
  | flags => exact congrArg Flags.toWord (hflags h)
  | errcmd => exact herrcmd h
  | pinf => exact congrArg (BitVec.setWidth 32) (hpinf h)
  | x i j => exact hx i j h
  | curve c j => exact hcurve c j h

/-! ### One access at the host port -/

/-- R84, R86: an aligned 32-bit read inside the window answers the word. -/
theorem serve_read {off : Nat} (s : State) (h4 : off % 4 = 0) (hlt : off < 0x1000) :
    serve ⟨.read, .bits32, off⟩ s = respond (.data (memRead off s)) s := by
  have hin : ¬windowBytes ≤ off := Nat.not_le.2 hlt
  simp [serve, hin, h4]

/-- R84, R88: whatever a read gets, it gets no more than an answer. -/
theorem serve_read_eq_respond (width : Width) (off : Nat) (s : State) :
    ∃ r, serve ⟨.read, width, off⟩ s = respond r s := by
  unfold serve
  split
  · exact ⟨_, rfl⟩
  · split <;> exact ⟨_, rfl⟩

/-- Settles O20: a read only answers, and the answer is in the port. -/
theorem readsChangeNothing : Obligations.ReadsChangeNothing := by
  intro s width off
  constructor
  · obtain ⟨r, hr⟩ := serve_read_eq_respond width off s
    rw [hr]
    rfl
  · rintro ⟨hwidth, h4, hlt⟩
    obtain rfl : width = .bits32 := hwidth
    rw [serve_read s h4 hlt]
    rfl

/-- Settles O22: the offset is inside the window and names nothing. -/
theorem reservedOffsetsReadZeroAndIgnoreWrites : Obligations.ReservedOffsetsReadZeroAndIgnoreWrites := by
  intro s v off h4 hoff
  have hlt : off < 0x1000 := by omega
  have hslot := slotAt_reserved hoff
  constructor
  · rw [serve_read s h4 hlt, memRead_reserved s hslot]
    rfl
  · rw [serve_write v s h4 hlt, memWrite_reserved v s hslot]
    rfl

/-! ### A word written to an X or curve register -/

theorem getWord_setX_ne (r : Regs) {i i' : XIdx} {j j' : Fin 8} (v : Word) (h : i' = i → j' ≠ j) :
    getWord ((r.setX i (putWord (r.x[i.val]) j v)).x[i'.val]) j' = getWord (r.x[i'.val]) j' := by
  by_cases hi : i' = i
  · subst hi
    simp [getWord_putWord_ne _ v (h rfl)]
  · rw [setX_other r _ (Ne.symm hi)]

theorem getWord_setCurve_ne (r : Regs) {c c' : CurveReg} {j j' : Fin 8} (v : Word) (h : c' = c → j' ≠ j) :
    getWord ((r.setCurve c (putWord (r.curve c) j v)).curve c') j' = getWord (r.curve c') j' := by
  by_cases hc : c' = c
  · subst hc
    rw [setCurve_curve, getWord_putWord_ne _ v (h rfl)]
  · rw [setCurve_curve_other r _ hc]

theorem memRead_setX_ne {off : Nat} {i : XIdx} {j : Fin 8} (v : Word) (s : State) (h : slotAt off ≠ .x i j) :
    memRead off { s with regs := s.regs.setX i (putWord (s.regs.x[i.val]) j v) } = memRead off s := by
  refine memRead_congr (fun _ => rfl) (fun _ => rfl) (fun _ => rfl) (fun _ => rfl) (fun _ => rfl) (fun _ => rfl)
    (fun i' j' h' => getWord_setX_ne s.regs v ?_) (fun c _ _ => congrArg (getWord · _) (setX_curve s.regs i _ c))
  rintro rfl rfl
  exact h h'

theorem memRead_setCurve_ne {off : Nat} {c : CurveReg} {j : Fin 8} (v : Word) (s : State)
    (h : slotAt off ≠ .curve c j) :
    memRead off { s with regs := s.regs.setCurve c (putWord (s.regs.curve c) j v) } = memRead off s := by
  refine memRead_congr (fun _ => rfl) (fun _ => rfl) (fun _ => rfl) (fun _ => rfl) (fun _ => rfl)
    (fun _ => setCurve_pinf s.regs c _) (fun i _ _ => by rw [setCurve_x])
    (fun c' j' h' => getWord_setCurve_ne s.regs v ?_)
  rintro rfl rfl
  exact h h'

/-- Settles O23: the offset names one word of one register, and no other aligned offset names that word. -/
theorem registerWordReadsBack : Obligations.RegisterWordReadsBack := by
  intro s v off hidle h4 hlo hhi
  by_cases hx : off < 0x300
  · obtain ⟨i, j, -, rfl⟩ := exists_slotAt_x h4 hlo hx
    rw [memWrite_x_idle i j v hidle]
    constructor
    · simp
    · intro off' hne h4' hlt'
      exact memRead_setX_ne v s fun h => hne (eq_offset_of_slotAt h4' hlt' h Slot.noConfusion)
  · obtain ⟨c, j, -, rfl⟩ := exists_slotAt_curve h4 (Nat.le_of_not_lt hx) hhi
    rw [memWrite_curve_idle c j v hidle]
    constructor
    · simp
    · intro off' hne h4' hlt'
      exact memRead_setCurve_ne v s fun h => hne (eq_offset_of_slotAt h4' hlt' h Slot.noConfusion)

/-! ### The words of a 256-bit register -/

/-- The digits of a number in base 2^32, summed up to the `n`-th. -/
theorem sum_digits32 (v n : Nat) :
    ∑ j ∈ Finset.range n, v / 2 ^ (32 * j) % 2 ^ 32 * 2 ^ (32 * j) = v % 2 ^ (32 * n) := by
  induction n with
  | zero => simp [Nat.mod_one]
  | succ n ih => rw [Finset.sum_range_succ, ih, Nat.mul_succ, pow_add, Nat.mod_mul, Nat.mul_comm (2 ^ (32 * n))]

/-- R82: a 256-bit value is the sum of its eight words. -/
theorem toNat_eq_sum_getWord (v : Val) : v.toNat = ∑ j : Fin 8, (getWord v j).toNat * 2 ^ (32 * j.val) := by
  simp only [getWord_toNat]
  rw [Fin.sum_univ_eq_sum_range fun j => v.toNat / 2 ^ (32 * j) % 2 ^ 32 * 2 ^ (32 * j), sum_digits32]
  exact (Nat.mod_eq_of_lt v.isLt).symm

/-- Settles O24: each word reads as `getWord`, and `putWord` is the write of one. -/
theorem registerIsTheSumOfItsWords : Obligations.RegisterIsTheSumOfItsWords := by
  intro s
  refine ⟨fun i => ?_, fun c => ?_, fun hidle v j n => ⟨fun i => ?_, fun c => ?_⟩⟩
  · simp only [memRead_x, toNat_eq_sum_getWord (s.regs.x[i.val])]
  · simp only [memRead_curve, toNat_eq_sum_getWord (s.regs.curve c)]
  · rw [memWrite_x_idle i j v hidle, setX_x, Vector.getElem_set_self, putWord_bit]
  · rw [memWrite_curve_idle c j v hidle, setCurve_curve, putWord_bit]

/-! ### Bytes -/

theorem lane_bit (w : Word) (l : Fin 4) (b : Fin 8) : (lane w l).getLsbD b.val = w.getLsbD (8 * l.val + b.val) := by
  simp [lane]

/-- R83: byte lane l of word j is byte 4 j + l of the value. -/
theorem lane_getWord (v : Val) (j : Fin 8) (l : Fin 4) :
    lane (getWord v j) l = v.extractLsb' (8 * (4 * j.val + l.val)) 8 := by
  apply BitVec.eq_of_getLsbD_eq
  intro b hb
  have hin : 8 * l.val + b < 32 := by omega
  have hpos : 32 * j.val + (8 * l.val + b) = 8 * (4 * j.val + l.val) + b := by omega
  simp [lane, getWord, hb, hin, hpos]

/-- Settles O25: each word reads as `getWord`, whose byte lanes are the bytes of the value. -/
theorem registerBytesAreLittleEndian : Obligations.RegisterBytesAreLittleEndian := by
  intro s j l
  refine ⟨fun w => lane_bit w l, fun i => ?_, fun c => ?_⟩
  · rw [memRead_x, lane_getWord]
  · rw [memRead_curve, lane_getWord]

/-! ### What a command leaves of the window -/

/-- Settles O54: a word that reads otherwise is a destination's, or is at one of the four offsets left out. -/
theorem windowFrame : Obligations.WindowFrame := by
  intro i s t off ht h4 hlt hout hfield hpoint
  obtain ⟨hxs, -, hcurves⟩ := operandRegisterFrame i s t ht
  obtain ⟨hcmd, hie, -⟩ := controlRegisterFrame i s t ht
  have offsetOf {sl : Slot} := eq_offset_of_slotAt (sl := sl) h4 hlt
  have out {sl : Slot} (h : slotAt off = sl) (hne : sl ≠ .reserved) (hin : sl.offset ∈ [0x00C, 0x014, 0x018, 0x01C]) :
      False := hout (offsetOf h hne ▸ hin)
  refine memRead_congr (fun _ => hcmd) (fun h => (out h nofun (by decide)).elim) (fun _ => hie)
    (fun h => (out h nofun (by decide)).elim) (fun h => (out h nofun (by decide)).elim)
    (fun h => (out h nofun (by decide)).elim) (fun j k h => ?_) (fun c _ _ => congrArg (getWord · _) (hcurves c))
  have hoff : off = 0x100 + 0x20 * j.val + 4 * k.val := offsetOf h nofun
  rw [hxs j]
  · intro hj
    have := hfield j hj
    simp only [offX] at this
    omega
  · intro rd hrd
    have := hpoint rd hrd
    omega

end Sys2Proof.Machine
end

section
/-! A command in flight against the host (20_memory.md R95; 60_exceptions.md R306): any run of accesses without a soft
reset, and then the sequencer's turn, against an immediate completion. -/

namespace Sys2Proof.Machine

theorem State.Agree.withTurns (ts : List Turn) (s : State) : s.Agree (withTurns ts s) := by
  constructor <;> rfl

theorem State.Agree.symm {s t : State} (h : s.Agree t) : t.Agree s := by
  obtain ⟨_, _, _, rfl⟩ := State.Agree.iff.1 h
  constructor <;> rfl

/-- R95, by induction on the accesses: each leaves the command in flight and the state in agreement with `r`, so the
sequencer completes it as it would have in `r`. -/
theorem State.InFlight.run_hosts {w : Word} {ts : List Turn} {r : State} (as : List Access) {s : State}
    (hs : s.InFlight w) (hagree : r.Agree s) (has : ∀ a ∈ as, isSoftReset a = false)
    (hts : s.port.turns = as.map .host ++ .sequencer :: ts) :
    ∃ t u, Host.Core.run Sys2Proof.core (as.length + 1) s = .next t ∧ Machine.complete r = .next u ∧ u.Agree t := by
  induction as generalizing s with
  | nil =>
    obtain ⟨u, t, hu, ht, hut⟩ := complete_agree r (Machine.withTurns ts s) (hagree.trans (.withTurns ts s))
    exact ⟨t, u, run_succ ((step_of_turns_cons hts).trans ht), hu, hut⟩
  | cons a as ih =>
    obtain ⟨ha, has⟩ := List.forall_mem_cons.1 has
    have hs' := hs.withTurns (as.map .host ++ .sequencer :: ts)
    obtain ⟨hserve, hturns⟩ := serve_agree _ a hs'.inv hs'.busy ha
    rw [List.length_cons, run_succ (step_of_turns_cons hts)]
    exact ih (hs'.serve ha) ((hagree.trans (.withTurns _ s)).trans hserve) has hturns

/-- Settles O11: `run_hosts` against the same state with the accesses taken out of its schedule. -/
theorem hostCannotDisturbCommandInFlight : Obligations.HostCannotDisturbCommandInFlight := by
  intro s w s0 as ts hinv hp has hts
  obtain ⟨t, u, hrun, hu, hut⟩ := State.InFlight.run_hosts as ⟨hinv, s0, hp⟩ (.symm (.withTurns ts s)) has hts
  exact ⟨t, u, hrun, hu, hut.regs, hut.flags, hut.errcmd, hut.cmd, hut.pending, hut.busy, hut.done, hut.err,
    hut.errcode⟩

end Sys2Proof.Machine
end

section
/-! The opcode table as tests of fields (30_encoding.md R127, R128), and the decoder and encoder over it (R129). -/

namespace Sys2Proof

/-! ### The fields an opcode admits -/

@[simp] theorem FieldUse.admits_unused_iff (v : BitVec 4) : FieldUse.unused.Admits v ↔ v = 0 := by simp [FieldUse.Admits]

@[simp] theorem FieldUse.admits_x (v : BitVec 4) : FieldUse.x.Admits v := by simp [FieldUse.Admits]

@[simp] theorem FieldUse.admits_pField (i : PIdx) : FieldUse.p.Admits (pField i) := ⟨nofun, fun _ => pField_bit3 i⟩

theorem FieldUse.Admits.pField_pIndex {v : BitVec 4} (h : FieldUse.p.Admits v) : pField (pIndex v) = v :=
  Sys2Proof.pField_pIndex (h.2 rfl)

/-- R127, R128: none of the causes (a) to (d) holds of the fields `f` when OP names the opcode `o`. -/
structure Op.Admits (o : Op) (f : Fields) : Prop where
  rsv : f.rsv = 0
  op : f.op = o.code
  ms : o.usage.ms = false → f.ms = false
  se : o.usage.se = false → f.se = false
  rd : o.usage.rd.Admits f.rd
  ra : o.usage.ra.Admits f.ra
  rb : o.usage.rb.Admits f.rb

theorem Op.matches_iff_admits (o : Op) (w : Word) : o.Matches w ↔ o.Admits (Fields.ofWord w) :=
  (o.matches_usage_iff w).trans
    ⟨fun ⟨hrsv, hop, hms, hse, hrd, hra, hrb⟩ => ⟨hrsv, hop, hms, hse, hrd, hra, hrb⟩,
      fun ⟨hrsv, hop, hms, hse, hrd, hra, hrb⟩ => ⟨hrsv, hop, hms, hse, hrd, hra, hrb⟩⟩

theorem Op.Admits.ofCode {o : Op} {f : Fields} (h : o.Admits f) : Op.ofCode f.op = some o :=
  (Op.ofCode_eq_some_iff f.op o).2 h.op

/-- The fields of a command are admitted by its own opcode. -/
theorem Instr.op_admits_fields (i : Instr) : i.op.Admits i.fields := by
  cases i <;> constructor <;> simp [Instr.op, Instr.fields, mkFields, Op.usage]

theorem Instr.build_fields (i : Instr) : i.op.build i.fields = i := by
  cases i <;> simp [Instr.op, Instr.fields, mkFields, Op.build]

/-- Building a command loses no admitted field: an unused one is 0, and bit 3 of a point index is 0. -/
theorem Op.fields_build {o : Op} {f : Fields} (h : o.Admits f) : (o.build f).fields = f := by
  obtain ⟨op, ms, se, rd, ra, rb, rsv⟩ := f
  obtain ⟨hrsv, hop, hms, hse, hrd, hra, hrb⟩ := h
  cases o <;> simp_all [Op.build, Instr.fields, mkFields, Op.usage, FieldUse.Admits.pField_pIndex]

/-! ### The row of a word -/

/-- Settles O3: a matching word's OP field is the opcode's code, and codes are distinct. -/
theorem wordMatchesAtMostOneRow : Obligations.WordMatchesAtMostOneRow := by
  intro w o o' h h'
  have hop : (Fields.ofWord w).op = o.code := ((o.matches_iff_admits w).1 h).op
  have hop' : (Fields.ofWord w).op = o'.code := ((o'.matches_iff_admits w).1 h').op
  exact Op.code_injective (hop.symm.trans hop')

theorem findOp_of_matches {w : Word} {o : Op} (h : o.Matches w) : findOp w = some o := by
  cases hf : findOp w with
  | none => exact absurd h (findOp_eq_none hf o)
  | some o' => rw [wordMatchesAtMostOneRow w o' o (findOp_matches hf) h]

/-! ### Decode and encode -/

theorem decode_of_matches {w : Word} {o : Op} (h : o.Matches w) : decode w = .ok (o.build (Fields.ofWord w)) := by
  simp only [decode, findOp_of_matches h]

theorem decode_eq_ok_iff {w : Word} {i : Instr} :
    decode w = .ok i ↔ ∃ o : Op, o.Matches w ∧ o.build (Fields.ofWord w) = i := by
  constructor
  · intro h
    cases hf : findOp w with
    | none => simp [decode, hf] at h
    | some o => exact ⟨o, findOp_matches hf, by simpa [decode, hf] using h⟩
  · rintro ⟨o, hm, rfl⟩
    exact decode_of_matches hm

theorem exists_decode_error_iff {w : Word} : (∃ e, decode w = .error e) ↔ ∀ o : Op, ¬o.Matches w := by
  constructor
  · rintro ⟨e, he⟩ o hm
    cases he.symm.trans (decode_of_matches hm)
  · intro h
    cases hd : decode w with
    | error e => exact ⟨e, rfl⟩
    | ok i =>
      obtain ⟨o, hm, -⟩ := decode_eq_ok_iff.1 hd
      exact absurd hm (h o)

/-- Settles O1: the word of a command matches the row of its opcode, and building from its fields gives it back. -/
theorem encodedCommandDecodesBack : Obligations.EncodedCommandDecodesBack := by
  intro i
  have hf : Fields.ofWord (encode i) = i.fields := i.fields.ofWord_toWord
  have hm : i.op.Matches (encode i) := by
    rw [Op.matches_iff_admits, hf]
    exact i.op_admits_fields
  rw [decode_of_matches hm, hf, i.build_fields]

/-- Settles O2: the fields of the built command are the fields of the word, and a word is its fields. -/
theorem decodedWordEncodesBack : Obligations.DecodedWordEncodesBack := by
  intro w i h
  obtain ⟨o, hm, rfl⟩ := decode_eq_ok_iff.1 h
  have hf : (o.build (Fields.ofWord w)).fields = Fields.ofWord w := Op.fields_build ((o.matches_iff_admits w).1 hm)
  rw [encode, hf, Fields.toWord_ofWord]

/-- Settles O5: nineteen rows are tried on each closed word. -/
theorem specWordsDecode : Obligations.SpecWordsDecode := by
  unfold Obligations.SpecWordsDecode
  decide

/-! ### The four causes of ILLEGAL (R128) -/

theorem FieldUse.not_admits_iff (u : FieldUse) (v : BitVec 4) :
    ¬u.Admits v ↔ (u = .unused ∧ v ≠ 0) ∨ (u = .p ∧ v.getLsbD 3 = true) := by
  cases u <;> simp [FieldUse.Admits]

/-- With RSV = 0 and OP naming the opcode, what is left to fail are the causes (c), then (d), of R128. -/
theorem Op.not_admits_iff {o : Op} {f : Fields} (hrsv : f.rsv = 0) (hop : f.op = o.code) :
    ¬o.Admits f ↔
      (o.usage.ms = false ∧ f.ms = true) ∨ (o.usage.se = false ∧ f.se = true) ∨ (o.usage.rd = .unused ∧ f.rd ≠ 0) ∨
        (o.usage.ra = .unused ∧ f.ra ≠ 0) ∨ (o.usage.rb = .unused ∧ f.rb ≠ 0) ∨
        (o.usage.rd = .p ∧ f.rd.getLsbD 3 = true) ∨ (o.usage.ra = .p ∧ f.ra.getLsbD 3 = true) ∨
        (o.usage.rb = .p ∧ f.rb.getLsbD 3 = true) := by
  have h : o.Admits f ↔ (o.usage.ms = false → f.ms = false) ∧ (o.usage.se = false → f.se = false) ∧
      o.usage.rd.Admits f.rd ∧ o.usage.ra.Admits f.ra ∧ o.usage.rb.Admits f.rb :=
    ⟨fun h => ⟨h.ms, h.se, h.rd, h.ra, h.rb⟩, fun ⟨hms, hse, hrd, hra, hrb⟩ => ⟨hrsv, hop, hms, hse, hrd, hra, hrb⟩⟩
  simp only [h, not_and_or, Classical.not_imp, Bool.not_eq_false, FieldUse.not_admits_iff]
  exact Iff.of_eq (by ac_rfl)

theorem exists_decode_error_of_ofCode_none {w : Word} (h : Op.ofCode (Fields.ofWord w).op = none) :
    ∃ e, decode w = .error e := by
  rw [exists_decode_error_iff]
  intro o hm
  cases h.symm.trans ((o.matches_iff_admits w).1 hm).ofCode

theorem exists_decode_error_iff_of_ofCode_some {w : Word} {o : Op} (h : Op.ofCode (Fields.ofWord w).op = some o) :
    (∃ e, decode w = .error e) ↔ ¬o.Admits (Fields.ofWord w) := by
  simp only [exists_decode_error_iff, Op.matches_iff_admits]
  refine ⟨fun hall => hall o, fun hnot o' ha => hnot ?_⟩
  cases h.symm.trans ha.ofCode
  exact ha

/-- Settles O4: a word is refused when its OP names no opcode, or names one that does not admit its fields. -/
theorem illegalWordsAreThoseOfTheFourCauses : Obligations.IllegalWordsAreThoseOfTheFourCauses := by
  intro w
  cases hc : Op.ofCode (w.extractLsb' 0 6) with
  | none => exact iff_of_true (exists_decode_error_of_ofCode_none hc) (.inr trivial)
  | some o =>
    rw [exists_decode_error_iff_of_ofCode_some hc]
    by_cases hrsv : w.extractLsb' 20 12 = 0
    · rw [Op.not_admits_iff hrsv ((Op.ofCode_eq_some_iff _ o).1 hc)]
      simp only [Fields.ofWord, BitVec.getLsbD_extractLsb', Nat.reduceAdd, Nat.reduceLT, decide_true, Bool.true_and,
        hrsv, ne_eq, not_true_eq_false, false_or]
    · exact iff_of_true (fun h => hrsv h.rsv) (.inl hrsv)

end Sys2Proof
end

section
/-! The completion of an ILLEGAL word (30_encoding.md R128; 60_exceptions.md R301, R304). -/

namespace Sys2Proof.Machine

theorem complete_of_decode_error {s : State} {w : Word} {s0 : Regs} {e : Illegal} (hp : s.pending = .pending w s0)
    (hd : decode w = .error e) : complete s = .next (faultDone .illegal s) := by
  simp only [complete, hp, completeWord, hd, completeFault_eq]

/-- Settles O7: the sequencer's turn is the faulting completion; its state has the word in ERRCMD and code 1. -/
theorem illegalWordFaultsAtCompletion : Obligations.IllegalWordFaultsAtCompletion := by
  intro s w s0 e ts hp hd hts
  have hstep : step s = .next (faultDone .illegal (withTurns ts s)) := by
    rw [step_of_turns_cons hts]
    exact complete_of_decode_error hp hd
  have hword : s.word = w := by simp only [State.word, hp]
  refine ⟨_, hstep, rfl, hword, ?_⟩
  obtain ⟨-, -, -, -, -, hcode⟩ := status_layout (faultDone .illegal (withTurns ts s)).status
  rw [memRead_status, hcode]
  rfl

end Sys2Proof.Machine
end

section
/-! FPOW (30_encoding.md R124; 40_field.md R157). -/

namespace Sys2Proof.Machine

/-- R124: the exponent as a number, minus 2^256 where SE = 1 and its top bit is 1. -/
theorem exponent_eq (r : Regs) (se : Bool) (rb : XIdx) :
    r.exponent se rb = if se = true ∧ 2 ^ 255 ≤ r.xNat rb then (r.xNat rb : Int) - 2 ^ 256 else (r.xNat rb : Int) := by
  cases se with
  | false => simp [Regs.exponent]
  | true =>
    have hsign : 2 * r.xNat rb < 2 ^ 256 ↔ ¬2 ^ 255 ≤ r.xNat rb := by omega
    calc r.exponent true rb
        = if 2 * r.xNat rb < 2 ^ 256 then (r.xNat rb : Int) else (r.xNat rb : Int) - (2 ^ 256 : Nat) :=
          BitVec.toInt_eq_toNat_cond _
      _ = _ := by simp only [hsign, ite_not, true_and, Nat.cast_pow, Nat.cast_ofNat]

theorem exec_fpow (ms se : Bool) (rd ra rb : XIdx) (s : State) :
    exec (.fpow ms se rd ra rb) s = finish (evalFpow s.operands ms se ra rb) (commitField rd) s := rfl

/-- Settles O33: the base alone is checked, and `powMod` is the power to the exponent's residue modulo m - 1. -/
theorem fpowResult : Obligations.FpowResult := by
  intro ms se rd ra rb s m a v e
  refine ⟨fun hm => ?_, fun hm ha => ?_, fun hm ha => ?_⟩
  · rw [exec_fpow, evalFpow, guardField1_badmod hm, finish_error]
  · rw [exec_fpow, evalFpow, guardField1_range hm ha, finish_error]
  · have hcast : ((m - 1 : Nat) : Int) = (m : Int) - 1 := by omega
    have hpow : powMod a (emod (s.operands.exponent se rb) (m - 1)) m = a ^ (e % ((m : Int) - 1)).toNat % m := by
      rw [powMod_eq _ _ (by omega), emod, exponent_eq, hcast]
    rw [exec_fpow, evalFpow, guardField1_pass hm ha, hpow, finish_field]

end Sys2Proof.Machine
end

section
/-! The field commands but FPOW and FSQRT (40_field.md R150 to R156, R158, R159): the checks as completions, and the
residue each command completes with. -/

namespace Sys2Proof.Machine

/-! ### The checks of field operands (R150, R151) -/

section
variable {α : Type} {m a b : Nat} {k : Except FaultCode α} {commit : α → State → State} {s : State}

theorem finish_guardField1_badmod (hm : ¬ModValid m) :
    finish (guardField1 m a k) commit s = .next (faultDone .badmod s) := by
  rw [guardField1_badmod hm, finish_error]

theorem finish_guardField1_range (hm : ModValid m) (ha : ¬a < m) :
    finish (guardField1 m a k) commit s = .next (faultDone .range s) := by
  rw [guardField1_range hm ha, finish_error]

theorem finish_guardField2_badmod (hm : ¬ModValid m) :
    finish (guardField2 m a b k) commit s = .next (faultDone .badmod s) := by
  rw [guardField2_badmod hm, finish_error]

theorem finish_guardField2_range (hm : ModValid m) (hab : ¬(a < m ∧ b < m)) :
    finish (guardField2 m a b k) commit s = .next (faultDone .range s) := by
  rw [guardField2_range hm hab, finish_error]

end

/-! ### The commands as checks and a residue -/

section
variable (ms : Bool) (rd ra rb : XIdx) (s : State)

theorem exec_fadd : exec (.fadd ms rd ra rb) s =
    finish (guardField2 (s.operands.modulus ms) (s.operands.xNat ra) (s.operands.xNat rb) <|
      .ok ((s.operands.xNat ra + s.operands.xNat rb) % s.operands.modulus ms)) (commitField rd) s := rfl

theorem exec_fsub : exec (.fsub ms rd ra rb) s =
    finish (guardField2 (s.operands.modulus ms) (s.operands.xNat ra) (s.operands.xNat rb) <|
      .ok (emod ((s.operands.xNat ra : Int) - (s.operands.xNat rb : Int)) (s.operands.modulus ms)))
      (commitField rd) s := rfl

theorem exec_fmul : exec (.fmul ms rd ra rb) s =
    finish (guardField2 (s.operands.modulus ms) (s.operands.xNat ra) (s.operands.xNat rb) <|
      .ok (s.operands.xNat ra * s.operands.xNat rb % s.operands.modulus ms)) (commitField rd) s := rfl

theorem exec_fdiv : exec (.fdiv ms rd ra rb) s =
    finish (guardField2 (s.operands.modulus ms) (s.operands.xNat ra) (s.operands.xNat rb) <|
      require (Nat.gcd (s.operands.xNat rb) (s.operands.modulus ms) = 1) .noinv <|
      .ok (s.operands.xNat ra * invMod (s.operands.xNat rb) (s.operands.modulus ms) % s.operands.modulus ms))
      (commitField rd) s := rfl

theorem exec_fneg : exec (.fneg ms rd ra) s =
    finish (guardField1 (s.operands.modulus ms) (s.operands.xNat ra) <|
      .ok ((s.operands.modulus ms - s.operands.xNat ra) % s.operands.modulus ms)) (commitField rd) s := rfl

theorem exec_finv : exec (.finv ms rd ra) s =
    finish (guardField1 (s.operands.modulus ms) (s.operands.xNat ra) <|
      require (Nat.gcd (s.operands.xNat ra) (s.operands.modulus ms) = 1) .noinv <|
      .ok (invMod (s.operands.xNat ra) (s.operands.modulus ms))) (commitField rd) s := rfl

end

/-! ### The residues -/

/-- R154: the Euclidean difference of two residues as a natural number. -/
theorem emod_sub {a b m : Nat} (hb : b < m) : emod ((a : Int) - b) m = (a + m - b) % m := by
  have hcast : ((a + m - b : Nat) : Int) = (a : Int) - b + m := by omega
  rw [← emod_natCast, hcast, emod, emod, Int.add_emod_right]

/-- R156: multiplying the quotient by the divisor gives the dividend back. -/
theorem mul_invMod_mul {a b m : Nat} (hm : 1 < m) (ha : a < m) (hb : b < m) (hg : Nat.gcd b m = 1) :
    a * invMod b m % m * b % m = a := by
  calc a * invMod b m % m * b % m
      = a * (b * invMod b m % m) % m := by rw [Nat.mod_mul_mod, Nat.mul_mod_mod, mul_assoc, mul_comm b]
    _ = a := by rw [invMod_mul hm hb hg, mul_one, Nat.mod_eq_of_lt ha]

/-- R158: only the negation of 0 needs the reduction. -/
theorem sub_mod_self_eq_ite {a m : Nat} (ha : a < m) : (m - a) % m = if a = 0 then 0 else m - a := by
  split
  next h => rw [h, Nat.sub_zero, Nat.mod_self]
  next h => exact Nat.mod_eq_of_lt (by omega)

/-! ### Results -/

/-- Settles O31: the three commands share the checks of two operands; FSUB's Euclidean remainder is a natural one. -/
theorem addSubMulResults : Obligations.AddSubMulResults := by
  intro ms rd ra rb s m a b
  constructor
  · simp only [List.forall_mem_cons, List.not_mem_nil, false_implies, implies_true, and_true, exec_fadd, exec_fsub,
      exec_fmul]
    exact ⟨⟨finish_guardField2_badmod, finish_guardField2_range⟩,
      ⟨finish_guardField2_badmod, finish_guardField2_range⟩, finish_guardField2_badmod, finish_guardField2_range⟩
  · intro hm ha hb
    refine ⟨?_, ?_, ?_⟩
    · rw [exec_fadd, guardField2_pass hm ha hb, finish_field]
    · rw [exec_fsub, guardField2_pass hm ha hb, emod_sub hb, finish_field]
    · rw [exec_fmul, guardField2_pass hm ha hb, finish_field]

/-- Settles O32: after the checks the quotient is the product with `invMod`, which the divisor undoes. -/
theorem fdivResult : Obligations.FdivResult := by
  intro ms rd ra rb s m a b
  rw [exec_fdiv]
  refine ⟨finish_guardField2_badmod, finish_guardField2_range, fun hm ha hb hg => ?_, fun hm ha hb hg => ?_⟩
  · rw [guardField2_pass hm ha hb, require_neg hg, finish_error]
  · have h1 : 1 < m := by omega
    refine ⟨a * invMod b m % m, Nat.mod_lt _ (by omega), mul_invMod_mul h1 ha hb hg, ?_⟩
    rw [guardField2_pass hm ha hb, require_pos hg, finish_field]

/-- Settles O34: the checks of one operand, and the reduction of m - a, which matters for a = 0 alone. -/
theorem fnegResult : Obligations.FnegResult := by
  intro ms rd ra s m a
  rw [exec_fneg]
  refine ⟨finish_guardField1_badmod, finish_guardField1_range, fun hm ha => ?_⟩
  rw [guardField1_pass hm ha, finish_field, sub_mod_self_eq_ite ha]

/-- Settles O35: `invMod` is an inverse, lies in [1, m-1], and is the only inverse there. -/
theorem finvResult : Obligations.FinvResult := by
  intro ms rd ra s m a
  rw [exec_finv]
  refine ⟨finish_guardField1_badmod, finish_guardField1_range, fun hm ha hg => ?_, fun hm ha hg => ?_⟩
  · rw [guardField1_pass hm ha, require_neg hg, finish_error]
  · have h1 : 1 < m := by omega
    refine ⟨invMod a m, invMod_pos h1 ha hg, invMod_lt a (by omega), invMod_mul h1 ha hg,
      fun y hy hay => (invMod_unique h1 ha hy hay).symm, ?_⟩
    rw [guardField1_pass hm ha, require_pos hg, finish_field]

end Sys2Proof.Machine
end

section
/-! FSQRT (40_field.md R160, R161): the formula for m = 3 mod 4, and Tonelli–Shanks for m = 1 mod 4, with what both
decide over a prime modulus. -/

namespace Sys2Proof.Machine

theorem exec_fsqrt (ms : Bool) (rd ra : XIdx) (s : State) : exec (.fsqrt ms rd ra) s =
    finish (guardField1 (s.operands.modulus ms) (s.operands.xNat ra) <|
      sqrtMod (s.operands.xNat ra) (s.operands.modulus ms)) (commitSqrt rd) s := rfl

/-! ### The formula for m = 3 mod 4 -/

theorem modValid_of_mod_four_eq_three {m : Nat} (hm : m % 4 = 3) : ModValid m := by
  constructor <;> omega

/-- R160: the result of FSQRT for m = 3 mod 4, a root of `a` where it has one. -/
def sqrtFormula (a m : Nat) : Nat := a ^ ((m + 1) / 4) % m

theorem sqrtFormula_lt (a : Nat) {m : Nat} (hm : 0 < m) : sqrtFormula a m < m := Nat.mod_lt _ hm

/-- R160: no residue test, and no fault. -/
theorem sqrtMod_of_mod_four_eq_three {m : Nat} (a : Nat) (hm : m % 4 = 3) :
    sqrtMod a m = .ok (sqrtFormula a m, decide (sqrtFormula a m * sqrtFormula a m % m = a)) := by
  rw [sqrtMod, if_pos hm, powMod_eq a _ (by omega)]
  rfl

/-- Settles O36: the checks of one operand, and then `sqrtMod` by its formula. -/
theorem fsqrtResultFor3Mod4 : Obligations.FsqrtResultFor3Mod4 := by
  intro ms rd ra s m a r
  rw [exec_fsqrt]
  refine ⟨finish_guardField1_badmod, finish_guardField1_range, fun hm ha => ?_⟩
  rw [guardField1_pass (modValid_of_mod_four_eq_three hm) ha, sqrtMod_of_mod_four_eq_three _ hm]
  exact finish_sqrt

/-- The formula's result squares to `a` times Euler's symbol `a ^ (m / 2)`. -/
theorem sqrtFormula_mul_self {m : Nat} (a : Nat) (hm : m % 4 = 3) :
    ((sqrtFormula a m * sqrtFormula a m % m : Nat) : ZMod m) = (a : ZMod m) * (a : ZMod m) ^ (m / 2) := by
  have hexp : (m + 1) / 4 + (m + 1) / 4 = m / 2 + 1 := by omega
  rw [zmod_mul_mod, sqrtFormula, ZMod.natCast_mod, Nat.cast_pow, ← pow_add, hexp, pow_succ']

/-- Euler's criterion: the symbol leaves a square as it is and negates every other element. -/
theorem mul_pow_div_two_of_isSquare {m : Nat} [Fact m.Prime] {x : ZMod m} (h : IsSquare x) : x * x ^ (m / 2) = x := by
  by_cases hx : x = 0
  · rw [hx, zero_mul]
  · rw [(ZMod.euler_criterion m hx).1 h, mul_one]

theorem pow_div_two_of_not_isSquare {m : Nat} [Fact m.Prime] {x : ZMod m} (h : ¬IsSquare x) : x ^ (m / 2) = -1 := by
  have hx : x ≠ 0 := by
    rintro rfl
    exact h IsSquare.zero
  exact (ZMod.pow_div_two_eq_neg_one_or_one m hx).resolve_left fun h1 => h ((ZMod.euler_criterion m hx).2 h1)

/-- R160: over a prime m = 3 mod 4 the formula gives a root of every square. -/
theorem sqrtFormula_of_square {a m : Nat} (hp : m.Prime) (hm : m % 4 = 3) (ha : a < m) (h : ∃ y, y * y % m = a) :
    sqrtFormula a m * sqrtFormula a m % m = a := by
  have : Fact m.Prime := ⟨hp⟩
  apply eq_of_zmod_eq (Nat.mod_lt _ hp.pos) ha
  rw [sqrtFormula_mul_self a hm, mul_pow_div_two_of_isSquare ((square_iff hp.one_lt ha).1 h)]

/-- R160: over a prime m = 3 mod 4 the formula gives a root of m - a where a is no square. -/
theorem sqrtFormula_of_not_square {a m : Nat} (hp : m.Prime) (hm : m % 4 = 3) (ha : a < m)
    (h : ¬∃ y, y * y % m = a) : sqrtFormula a m * sqrtFormula a m % m = m - a := by
  have : Fact m.Prime := ⟨hp⟩
  have ha0 : a ≠ 0 := by
    rintro rfl
    exact h ⟨0, Nat.zero_mod m⟩
  apply eq_of_zmod_eq (Nat.mod_lt _ hp.pos) (by omega)
  rw [sqrtFormula_mul_self a hm, pow_div_two_of_not_isSquare (mt (square_iff hp.one_lt ha).2 h),
    Nat.cast_sub ha.le, ZMod.natCast_self, mul_neg_one, zero_sub]

/-- Settles O39: QR says whether the formula's result squares back, and Euler's criterion says when it does. -/
theorem fsqrtQrFlagMarksSquares : Obligations.FsqrtQrFlagMarksSquares := by
  intro ms rd ra s m a hp hm ha
  obtain ⟨-, -, hexec⟩ := fsqrtResultFor3Mod4 ms rd ra s
  have root_of_square := sqrtFormula_of_square hp hm ha
  refine ⟨sqrtFormula a m, decide (sqrtFormula a m * sqrtFormula a m % m = a), sqrtFormula_lt a hp.pos, hexec hm ha,
    ?_, fun hqr => ?_⟩
  · rw [decide_eq_true_iff]
    exact ⟨fun hr => ⟨_, hr⟩, root_of_square⟩
  · exact sqrtFormula_of_not_square hp hm ha fun hsq => of_decide_eq_false hqr (root_of_square hsq)

/-! ### Tonelli–Shanks for m = 1 mod 4 -/

section
variable {ms : Bool} {rd ra : XIdx} {s : State} (hm : s.operands.modulus ms % 4 = 1)
  (hv : ModValid (s.operands.modulus ms)) (ha : s.operands.xNat ra < s.operands.modulus ms)
include hm hv ha

/-- R160: where R161's procedure answers a root, FSQRT completes with it and QR = 1. -/
theorem exec_fsqrt_of_root {r : Nat} (h : tonelliShanks (s.operands.xNat ra) (s.operands.modulus ms) = some r) :
    exec (.fsqrt ms rd ra) s = .next (sqrtDone rd r true s) := by
  rw [exec_fsqrt, guardField1_pass hv ha, sqrtMod_of_root hm h, finish_sqrt]

/-- R164: where R161's procedure answers none, FSQRT faults with NOSQRT. -/
theorem exec_fsqrt_of_no_root (h : tonelliShanks (s.operands.xNat ra) (s.operands.modulus ms) = none) :
    exec (.fsqrt ms rd ra) s = .next (faultDone .nosqrt s) := by
  rw [exec_fsqrt, guardField1_pass hv ha, sqrtMod_of_no_root hm h, finish_error]

end

theorem tonelliShanks_zero (m : Nat) : tonelliShanks 0 m = some 0 := if_pos rfl

theorem tonelliShanks_of_euler_ne_one {a m : Nat} (ha : a ≠ 0) (h : powMod a ((m - 1) / 2) m ≠ 1) :
    tonelliShanks a m = none := by
  rw [tonelliShanks, if_neg ha, if_pos h]

theorem tonelliShanks_of_leastNonResidue_none {a m : Nat} (ha : a ≠ 0) (h : leastNonResidue m = none) :
    tonelliShanks a m = none := by
  simp only [tonelliShanks, ha, h, if_false, ite_self]

/-- R161: past both tests the procedure is its loop, over the split m - 1 = Q 2^S. -/
theorem tonelliShanks_eq_tsLoop {a m z Q S : Nat} (ha : a ≠ 0) (he : powMod a ((m - 1) / 2) m = 1)
    (hz : leastNonResidue m = some z) (hQS : splitTwos (bitlen (m - 1)) (m - 1) 0 = (Q, S)) :
    tonelliShanks a m = tsLoop m (S + 1) S (powMod z Q m) (powMod a Q m) (powMod a ((Q + 1) / 2) m) := by
  simp only [tonelliShanks, ha, he, hz, hQS, if_false, ne_eq, not_true_eq_false]

theorem leastNonResidue_eq_none {m : Nat} (hm : 0 < m)
    (h : ∀ z, 2 ≤ z → z < m → z ^ ((m - 1) / 2) % m ≠ m - 1) : leastNonResidue m = none := by
  cases hz : leastNonResidue m with
  | none => rfl
  | some z =>
    obtain ⟨htest, hlo, hhi, -⟩ := leastFrom_some hz
    rw [beq_iff_eq, powMod_eq z _ hm] at htest
    exact absurd htest (h z hlo (by omega))

/-- Settles O37: every clause reads off what `tonelliShanks` answers; a root it answers squares back. -/
theorem fsqrtResultFor1Mod4SquaresBack : Obligations.FsqrtResultFor1Mod4SquaresBack := by
  intro ms rd ra s m a hm hv ha
  have hpos : 0 < m := by omega
  have root (r : Nat) (h : tonelliShanks a m = some r) := exec_fsqrt_of_root (rd := rd) hm hv ha h
  have noRoot (h : tonelliShanks a m = none) := exec_fsqrt_of_no_root (rd := rd) hm hv ha h
  have root_of_zero (h : a = 0) : tonelliShanks a m = some 0 := by rw [h, tonelliShanks_zero]
  refine ⟨?_, fun h => root 0 (root_of_zero h), fun ha0 he => noRoot ?_, fun ha0 hz => noRoot ?_, root, noRoot⟩
  · cases h : tonelliShanks a m with
    | none => exact .inl ⟨noRoot h, fun h0 => Option.some_ne_none 0 ((root_of_zero h0).symm.trans h)⟩
    | some r =>
      obtain ⟨hr, hrr⟩ := tonelliShanks_sound (by omega) ha hv.2 h
      exact .inr ⟨r, hr, hrr, root r h⟩
  · exact tonelliShanks_of_euler_ne_one ha0 (by rwa [powMod_eq a _ hpos])
  · exact tonelliShanks_of_leastNonResidue_none ha0 (leastNonResidue_eq_none hpos hz)

/-! ### Tonelli–Shanks over a prime m = 1 mod 4 -/

/-- R161: for an odd m the split m - 1 = Q 2^S has S ≥ 1, so Q 2^(S-1) is the exponent of Euler's criterion. -/
theorem splitTwos_half {m Q S : Nat} (h1 : 1 < m) (hodd : m % 2 = 1)
    (hQS : splitTwos (bitlen (m - 1)) (m - 1) 0 = (Q, S)) : 1 ≤ S ∧ Q * 2 ^ (S - 1) = m / 2 := by
  obtain ⟨hprod, hQ, -⟩ := splitTwos_spec (bitlen (m - 1)) (m - 1) 0 (by omega) (lt_two_pow_bitlen _)
  simp only [hQS, pow_zero, mul_one] at hprod hQ
  cases S with
  | zero => omega
  | succ k =>
    rw [pow_succ, ← mul_assoc] at hprod
    exact ⟨Nat.succ_pos k, by rw [Nat.add_sub_cancel]; omega⟩

/-- R161: over a prime m = 1 mod 4 the procedure answers for every square: z^Q has order 2^S, and a^Q a lower one. -/
theorem exists_tonelliShanks_of_isSquare {a m : Nat} (hp : m.Prime) (hm : m % 4 = 1) (ha : a < m)
    (h : IsSquare (a : ZMod m)) : ∃ r, tonelliShanks a m = some r := by
  have : Fact m.Prime := ⟨hp⟩
  by_cases ha0 : a = 0
  · exact ⟨0, by rw [ha0, tonelliShanks_zero]⟩
  have hne : (a : ZMod m) ≠ 0 := fun h0 => ha0 (eq_of_zmod_eq ha hp.pos (by rw [h0, Nat.cast_zero]))
  have heuler : (a : ZMod m) ^ (m / 2) = 1 := (ZMod.euler_criterion m hne).1 h
  have hhalf : (m - 1) / 2 = m / 2 := by omega
  have htest : powMod a ((m - 1) / 2) m = 1 := by
    apply eq_of_zmod_eq (powMod_lt _ _ hp.pos) hp.one_lt
    rw [powMod_zmod _ _ hp.pos, hhalf, heuler, Nat.cast_one]
  obtain ⟨z, hz, hznon⟩ := leastNonResidue_prime hp hm
  obtain ⟨Q, S, hsplit⟩ : ∃ Q S, splitTwos (bitlen (m - 1)) (m - 1) 0 = (Q, S) := ⟨_, _, rfl⟩
  obtain ⟨hS, hQS⟩ := splitTwos_half hp.one_lt (by omega) hsplit
  rw [tonelliShanks_eq_tsLoop ha0 htest hz hsplit]
  refine tsLoop_complete _ _ _ _ _ (Nat.le_succ _) hS (powMod_lt _ _ hp.pos) ?_ ?_
  · rw [powMod_zmod _ _ hp.pos, ← pow_mul, hQS, ← hhalf, hznon]
  · rw [powMod_zmod _ _ hp.pos, ← pow_mul, hQS, heuler]

/-- Settles O38: the procedure answers for every square, and an answer for a non-residue would be a root of it. -/
theorem fsqrtDecidesSquaresOfPrimeFields : Obligations.FsqrtDecidesSquaresOfPrimeFields := by
  intro ms rd ra s m a hp hm ha
  have hodd : m % 2 = 1 := by omega
  have hv : ModValid m := ⟨by have := hp.two_le; omega, hodd⟩
  constructor
  · intro hsq
    obtain ⟨r, h⟩ := exists_tonelliShanks_of_isSquare hp hm ha ((square_iff hp.one_lt ha).1 hsq)
    obtain ⟨hr, hrr⟩ := tonelliShanks_sound hp.one_lt ha hodd h
    exact ⟨r, hr, hrr, exec_fsqrt_of_root hm hv ha h⟩
  · intro hnsq
    cases h : tonelliShanks a m with
    | none => exact exec_fsqrt_of_no_root hm hv ha h
    | some r => exact absurd ⟨r, (tonelliShanks_sound hp.one_lt ha hodd h).2⟩ hnsq

end Sys2Proof.Machine
end

section
/-! MMUL, BRED and the engines' algorithms (41_reduction.md R200 to R205). -/

namespace Sys2Proof.Machine

/-! ### The commands as checks and a residue -/

section
variable (ms : Bool) (rd ra rb : XIdx) (s : State)

theorem exec_mmul : exec (.mmul ms rd ra rb) s =
    finish (guardField2 (s.operands.modulus ms) (s.operands.xNat ra) (s.operands.xNat rb) <|
      .ok (s.operands.xNat ra * s.operands.xNat rb * montRinv (s.operands.modulus ms) % s.operands.modulus ms))
      (commitField rd) s := rfl

theorem exec_bred : exec (.bred ms rd ra rb) s =
    finish (require (ModValid (s.operands.modulus ms)) .badmod <|
      .ok (s.operands.double ra rb % s.operands.modulus ms)) (commitField rd) s := rfl

end

/-! ### Results -/

/-- R200: the factor Rinv of the Montgomery product is undone by R. -/
theorem mul_montRinv_mul_montR {m : Nat} (hm : ModValid m) (c : Nat) : c * montRinv m % m * montR % m = c % m := by
  rw [← ZMod.natCast_eq_natCast_iff', Nat.cast_mul, zmod_mul_mod, mul_assoc, mul_comm (montRinv m : ZMod m),
    montRinv_zmod hm, mul_one]

/-- Settles O40: after the checks of two operands the result is the product with Rinv, which R undoes. -/
theorem mmulResult : Obligations.MmulResult := by
  intro ms rd ra rb s m a b
  rw [exec_mmul]
  refine ⟨finish_guardField2_badmod, finish_guardField2_range, fun hm ha hb => ?_⟩
  refine ⟨a * b * montRinv m % m, Nat.mod_lt _ (by omega), mul_montRinv_mul_montR hm (a * b), ?_⟩
  rw [guardField2_pass hm ha hb, finish_field]

/-- R202: the 512-bit value is the concatenation of its halves. -/
theorem double_eq_toNat_append (r : Regs) (hi lo : XIdx) : r.double hi lo = (r.x[hi.val] ++ r.x[lo.val]).toNat := by
  rw [BitVec.toNat_append, ← Nat.shiftLeft_add_eq_or_of_lt (BitVec.isLt _), Nat.shiftLeft_eq]
  rfl

/-- Settles O41: the modulus alone is checked, and the value reduced is the concatenation. -/
theorem bredResult : Obligations.BredResult := by
  intro ms rd rhi rlo s m
  rw [exec_bred, double_eq_toNat_append]
  refine ⟨fun hm => ?_, fun hm => ?_⟩
  · rw [require_neg hm, finish_error]
  · rw [require_pos hm, finish_field]

/-! ### Barrett reduction (R204) -/

/-- R204: one corrective subtraction reduces a value below twice the modulus. -/
theorem ite_sub_eq_mod {r m : Nat} (h : r < 2 * m) : (if m ≤ r then r - m else r) = r % m := by
  split
  next hle => rw [Nat.mod_eq_sub_mod hle, Nat.mod_eq_of_lt (by omega)]
  next hlt => exact (Nat.mod_eq_of_lt (Nat.lt_of_not_le hlt)).symm

/-- R204: "q ≤ floor(v/m)", for any `B` in place of 2^512. -/
theorem barrett_quotient_mul_le (v m B : Nat) : v * (B / m) / B * m ≤ v := by
  rcases B.eq_zero_or_pos with rfl | hB
  · simp
  refine Nat.le_of_mul_le_mul_right ?_ hB
  calc v * (B / m) / B * m * B
      = v * (B / m) / B * B * m := Nat.mul_right_comm ..
    _ ≤ v * (B / m) * m := Nat.mul_le_mul_right m (Nat.div_mul_le_self ..)
    _ = v * (B / m * m) := Nat.mul_assoc ..
    _ ≤ v * B := Nat.mul_le_mul_left v (Nat.div_mul_le_self ..)

/-- R204: the estimate q is at most one below floor(v/m): mu and q each lose less than 1 to rounding. -/
theorem lt_barrett_quotient_add_two_mul {v m B : Nat} (hm : 0 < m) (hv : v < B) :
    v < (v * (B / m) / B + 2) * m := by
  set mu := B / m
  set q := v * mu / B
  have hB : 0 < B := by omega
  have hmuB : B < (mu + 1) * m := (Nat.div_lt_iff_lt_mul hm).1 (Nat.lt_succ_self mu)
  have hqB : v * mu < (q + 1) * B := (Nat.div_lt_iff_lt_mul hB).1 (Nat.lt_succ_self q)
  refine Nat.lt_of_mul_lt_mul_right (a := B) ?_
  calc v * B
      ≤ v * ((mu + 1) * m) := Nat.mul_le_mul_left v hmuB.le
    _ = (v * mu + v) * m := by ring
    _ < ((q + 1) * B + B) * m := Nat.mul_lt_mul_of_pos_right (Nat.add_lt_add hqB hv) hm
    _ = (q + 2) * m * B := by ring

/-- Settles O56: the remainder left by q is below 2m and congruent to v, so the correction gives v mod m. -/
theorem barrettAlgorithmReduces : Obligations.BarrettAlgorithmReduces := by
  intro v m hv hm _
  have hle := barrett_quotient_mul_le v m (2 ^ 512)
  have hlt := lt_barrett_quotient_add_two_mul (by omega : 0 < m) hv
  rw [Nat.add_mul] at hlt
  rw [barrettReduce, ite_sub_eq_mod (Nat.sub_lt_left_of_lt_add hle hlt), Nat.mul_comm _ m]
  exact Nat.sub_mul_mod (by rwa [Nat.mul_comm])

/-! ### Montgomery reduction (R205) -/

/-- R205: "return t -- = T * Rinv(m) mod m". -/
theorem montRedc_zmod_eq_mul_montRinv {m : Nat} (hm : ModValid m) (hmR : m < montR) (t : Nat) :
    ((montRedc t m : Nat) : ZMod m) = t * montRinv m := by
  calc ((montRedc t m : Nat) : ZMod m)
      = montRedc t m * montR * montRinv m := by rw [mul_assoc, montRinv_zmod hm, mul_one]
    _ = t * montRinv m := by rw [montRedc_zmod hm hmR]

/-- Settles O57: REDC lies below m and is the product with Rinv in `ZMod m`. -/
theorem redcAlgorithmIsMontgomeryReduction : Obligations.RedcAlgorithmIsMontgomeryReduction := by
  intro t m hm hmR ht
  have hpos : 0 < m := by omega
  apply eq_of_zmod_eq (montRedc_lt hpos ht) (Nat.mod_lt _ hpos)
  rw [zmod_mul_mod, montRedc_zmod_eq_mul_montRinv hm hmR]

/-! ### FMUL by either engine (R203) -/

/-- R203 (b): the factor R² of the second product undoes the Rinv of both. -/
theorem montRedc_montRedc_mul_zmod {m : Nat} (hm : ModValid m) (hmR : m < montR) (t : Nat) :
    ((montRedc (montRedc t m * (montR * montR % m)) m : Nat) : ZMod m) = t := by
  rw [montRedc_zmod_eq_mul_montRinv hm hmR, Nat.cast_mul, montRedc_zmod_eq_mul_montRinv hm hmR, zmod_mul_mod]
  calc (t : ZMod m) * montRinv m * (montR * montR) * montRinv m
      = t * (montR * montRinv m) * (montR * montRinv m) := by ring
    _ = t := by rw [montRinv_zmod hm, mul_one, mul_one]

/-- Settles O58: the product is below 2^512 for the Barrett reducer, and both inputs of REDC are below m R. -/
theorem fmulAgreesWithBothEngines : Obligations.FmulAgreesWithBothEngines := by
  intro a b m hm hmR ha hb
  have hpos : 0 < m := by omega
  have below {x y : Nat} (hx : x < m) (hy : y < m) : x * y < m * montR := Nat.mul_lt_mul'' hx (hy.trans hmR)
  constructor
  · have hv : a * b < 2 ^ 512 :=
      calc a * b < 2 ^ 256 * 2 ^ 256 := Nat.mul_lt_mul'' (ha.trans hmR) (hb.trans hmR)
        _ = 2 ^ 512 := by rw [← pow_add]
    exact barrettAlgorithmReduces (a * b) m hv hm.1 hmR
  · have hfirst : montRedc (a * b) m < m := montRedc_lt hpos (below ha hb)
    apply eq_of_zmod_eq (montRedc_lt hpos (below hfirst (Nat.mod_lt _ hpos))) (Nat.mod_lt _ hpos)
    rw [montRedc_montRedc_mul_zmod hm hmR, ZMod.natCast_mod]

end Sys2Proof.Machine
end

section
/-! The checks of the point and scalar commands (42_point.md R220, R221; 60_exceptions.md R304): each command is the checks
of the curve registers, then those of its list of point operands, then a computation. -/

namespace Sys2Proof.Machine

/-! ### The checks of a list of point operands -/

/-- R221 for any number of point operands: all range checks come before all curve checks. -/
def guardPoints {α : Type} (r : Regs) (us : List Point) (k : Except FaultCode α) : Except FaultCode α :=
  require (∀ u ∈ us, inRange r.pNat u = true) .range <| require (∀ u ∈ us, r.onCurve u = true) .notonc k

section
variable {α : Type} {r : Regs} {k : Except FaultCode α}

/-- Two checks in a row that report the same code are one check. -/
theorem require_require {c d : Prop} [Decidable c] [Decidable d] (code : FaultCode) :
    require c code (require d code k) = require (c ∧ d) code k := by
  by_cases hc : c
  · rw [require_pos hc]
    simp only [hc, true_and]
  · rw [require_neg hc, require_neg fun h => hc h.1]

theorem guardPoints_nil : guardPoints r [] k = k := by
  rw [guardPoints, require_pos (List.forall_mem_nil _), require_pos (List.forall_mem_nil _)]

theorem guardPoint1_eq_guardPoints (u : Point) : guardPoint1 r u k = guardPoints r [u] k := by
  simp only [guardPoint1, guardPoints, List.forall_mem_singleton]

theorem guardPoint2_eq_guardPoints (u v : Point) : guardPoint2 r u v k = guardPoints r [u, v] k := by
  simp only [guardPoint2, guardPoints, List.forall_mem_cons, List.not_mem_nil, false_implies, implies_true, and_true,
    require_require]

theorem forall_inRange_iff {p : Nat} {us : List Point} :
    (∀ u ∈ us, inRange p u = true) ↔ ∀ x y, .aff x y ∈ us → x < p ∧ y < p := by
  simp only [inRange_iff]
  exact ⟨fun h x y hm => h _ hm x y rfl, fun h u hu x y hxy => h x y (hxy ▸ hu)⟩

theorem guardPoints_range {us : List Point} (h : ∃ x y, .aff x y ∈ us ∧ ¬(x < r.p.toNat ∧ y < r.p.toNat)) :
    guardPoints r us k = .error .range := by
  obtain ⟨x, y, hm, hxy⟩ := h
  exact require_neg fun hin => hxy (forall_inRange_iff.1 hin x y hm)

theorem guardPoints_notonc {us : List Point} (hp : 0 < r.p.toNat)
    (hin : ∀ x y, .aff x y ∈ us → x < r.p.toNat ∧ y < r.p.toNat) (h : ∃ u ∈ us, ¬ValidPoint r u) :
    guardPoints r us k = .error .notonc := by
  obtain ⟨u, hu, hv⟩ := h
  rw [guardPoints, require_pos (forall_inRange_iff.2 hin),
    require_neg fun hon => hv ((onCurve_iff_validPoint r u hp).1 (hon u hu))]

/-- R220: PUBK's check of N may as well come first, because the check of P reports the same code. -/
theorem guardCurveN_eq_require_guardCurve : guardCurveN r k = require (ModValid r.n.toNat) .badmod (guardCurve r k) := by
  simp only [guardCurveN, guardCurve, require_require, and_comm]

end

/-! ### The commands as checks and a computation -/

section
variable (rd ra rb : PIdx) (s : State)

theorem exec_padd : exec (.padd rd ra rb) s =
    finish (guardCurve s.operands <| guardPoint2 s.operands (s.operands.view ra) (s.operands.view rb) <|
      addPoints s.operands.pNat s.operands.aNat (s.operands.view ra) (s.operands.view rb)) (commitPoint rd) s := rfl

theorem exec_pdbl : exec (.pdbl rd ra) s =
    finish (guardCurve s.operands <| guardPoint1 s.operands (s.operands.view ra) <|
      addPoints s.operands.pNat s.operands.aNat (s.operands.view ra) (s.operands.view ra)) (commitPoint rd) s := rfl

theorem exec_pneg : exec (.pneg rd ra) s =
    finish (guardCurve s.operands <| guardPoint1 s.operands (s.operands.view ra) <|
      .ok (negPoint s.operands.pNat (s.operands.view ra))) (commitPoint rd) s := rfl

theorem exec_psub : exec (.psub rd ra rb) s =
    finish (guardCurve s.operands <| guardPoint2 s.operands (s.operands.view ra) (s.operands.view rb) <|
      addPoints s.operands.pNat s.operands.aNat (s.operands.view ra)
        (negPoint s.operands.pNat (s.operands.view rb))) (commitPoint rd) s := rfl

theorem exec_peq : exec (.peq ra rb) s =
    finish (.ok (decide (s.operands.view ra = s.operands.view rb))) commitEq s := rfl

theorem exec_pchk : exec (.pchk ra) s =
    finish (guardCurve s.operands <| .ok (s.operands.onCurve (s.operands.view ra))) commitOnc s := rfl

theorem exec_smul (k : XIdx) : exec (.smul rd ra k) s =
    finish (guardCurve s.operands <| guardPoint1 s.operands (s.operands.view ra) <|
      smul s.operands.pNat s.operands.aNat (s.operands.view ra) (s.operands.xNat k)) (commitPoint rd) s := rfl

theorem exec_pubk (k : XIdx) : exec (.pubk rd k) s =
    finish (guardCurveN s.operands <| guardPoint1 s.operands s.operands.generator <|
      require (0 < s.operands.xNat k ∧ s.operands.xNat k < s.operands.n.toNat) .scalar <|
      smul s.operands.pNat s.operands.aNat s.operands.generator (s.operands.xNat k)) (commitPoint rd) s := rfl

end

/-- R220, R221: a command that uses the curve makes the checks of the curve registers, then those of its point operands,
before anything else; PUBK does once its check of N has passed. -/
theorem exec_eq_finish_guards {i : Instr} {s : State} (hi : usesCurve i = true)
    (hn : (∃ rd rb, i = .pubk rd rb) → ModValid s.operands.n.toNat) :
    ∃ (α : Type) (k : Except FaultCode α) (commit : α → State → State), exec i s =
      finish (guardCurve s.operands (guardPoints s.operands (pointOperands i s.operands) k)) commit s := by
  cases i with
  | padd => exact ⟨_, _, _, by rw [exec_padd, guardPoint2_eq_guardPoints]; rfl⟩
  | psub => exact ⟨_, _, _, by rw [exec_psub, guardPoint2_eq_guardPoints]; rfl⟩
  | pdbl => exact ⟨_, _, _, by rw [exec_pdbl, guardPoint1_eq_guardPoints]; rfl⟩
  | pneg => exact ⟨_, _, _, by rw [exec_pneg, guardPoint1_eq_guardPoints]; rfl⟩
  | smul => exact ⟨_, _, _, by rw [exec_smul, guardPoint1_eq_guardPoints]; rfl⟩
  | pchk => exact ⟨_, _, _, by rw [pointOperands, guardPoints_nil, exec_pchk]⟩
  | pubk rd k =>
    have hn := hn ⟨rd, k, rfl⟩
    exact ⟨_, _, _, by
      rw [exec_pubk, guardCurveN_eq_require_guardCurve, require_pos hn, guardPoint1_eq_guardPoints]
      rfl⟩
  | _ => cases hi

theorem exec_badmod {i : Instr} {s : State} (hi : usesCurve i = true)
    (h : ¬ModValid s.operands.p.toNat ∨ ((∃ rd rb, i = .pubk rd rb) ∧ ¬ModValid s.operands.n.toNat)) :
    exec i s = .next (faultDone .badmod s) := by
  by_cases hpubk : (∃ rd rb, i = .pubk rd rb) ∧ ¬ModValid s.operands.n.toNat
  · obtain ⟨⟨rd, k, rfl⟩, hn⟩ := hpubk
    rw [exec_pubk, guardCurveN_eq_require_guardCurve, require_neg hn, finish_error]
  · obtain ⟨α, k, commit, hexec⟩ := exec_eq_finish_guards hi fun hi' => not_not.1 fun hn => hpubk ⟨hi', hn⟩
    rw [hexec, guardCurve_badmod (h.resolve_right hpubk), finish_error]

/-- Settles O42: the checks are those of `exec_eq_finish_guards`, each of which reports its own code. -/
theorem pointCommandsCheckInOrder : Obligations.PointCommandsCheckInOrder := by
  intro i s hi r
  refine ⟨fun hp => exec_badmod hi (.inl hp), fun _ hpubk hn => exec_badmod hi (.inr ⟨hpubk, hn⟩), fun hp hn => ?_⟩
  obtain ⟨α, k, commit, hexec⟩ := exec_eq_finish_guards hi hn
  rw [hexec]
  refine ⟨fun hab => ?_, fun ha hb => ⟨fun hout => ?_, fun hin hoff => ?_⟩⟩
  · rw [guardCurve_range hp hab, finish_error]
  · rw [guardCurve_pass ⟨hp, ha, hb⟩, guardPoints_range hout, finish_error]
  · rw [guardCurve_pass ⟨hp, ha, hb⟩, guardPoints_notonc (by omega) hin hoff, finish_error]

end Sys2Proof.Machine
end

section
/-! The results of the point commands on operands that pass their checks (42_point.md R225 to R231). -/

namespace Sys2Proof.Machine

/-! ### Sums: PADD, PDBL and PSUB -/

/-- R223, R225: the completion of a command that adds `u` and `v`. -/
theorem finish_addPoints {p : Nat} (hp : 1 < p) (a : Nat) (u v : Point) (rd : PIdx) (s : State) :
    (SumDefined p u v → ∃ w, IsSum p a u v w ∧
      finish (addPoints p a u v) (commitPoint rd) s = .next (pointDone rd w s)) ∧
    (¬SumDefined p u v → finish (addPoints p a u v) (commitPoint rd) s = .next (faultDone .noinv s)) := by
  obtain ⟨hsum, hnoinv⟩ := addPoints_spec p a u v hp
  constructor
  · intro hd
    obtain ⟨w, hw, hadd⟩ := hsum hd
    exact ⟨w, hw, by rw [hadd, finish_point]⟩
  · intro hd
    rw [hnoinv hd, finish_error]

theorem ValidCurve.one_lt {r : Regs} (h : ValidCurve r) : 1 < r.p.toNat := by
  obtain ⟨⟨h3, -⟩, -⟩ := h
  omega

theorem guardCurve_guardPoint1_pass {α : Type} {r : Regs} {u : Point} {k : Except FaultCode α} (hc : ValidCurve r)
    (hu : ValidPoint r u) : guardCurve r (guardPoint1 r u k) = k := by
  rw [guardCurve_pass hc, guardPoint1_pass (Nat.zero_lt_of_lt hc.one_lt) hu]

theorem guardCurve_guardPoint2_pass {α : Type} {r : Regs} {u v : Point} {k : Except FaultCode α} (hc : ValidCurve r)
    (hu : ValidPoint r u) (hv : ValidPoint r v) : guardCurve r (guardPoint2 r u v k) = k := by
  rw [guardCurve_pass hc, guardPoint2_pass (Nat.zero_lt_of_lt hc.one_lt) hu hv]

/-- Settles O43: after the checks PADD completes with what `addPoints` answers. -/
theorem paddResult : Obligations.PaddResult := by
  intro rd ra rb s r hc hu hv
  rw [exec_padd, guardCurve_guardPoint2_pass hc hu hv]
  exact finish_addPoints hc.one_lt _ _ _ rd s

/-- Settles O44: after the checks PDBL completes with what `addPoints` answers for the view and itself. -/
theorem pdblResult : Obligations.PdblResult := by
  intro rd ra s r hc hu
  rw [exec_pdbl, guardCurve_guardPoint1_pass hc hu]
  exact finish_addPoints hc.one_lt _ _ _ rd s

/-- Settles O46: PSUB checks pB itself, and adds its negation. -/
theorem psubResult : Obligations.PsubResult := by
  intro rd ra rb s r v hc hu hv
  refine ⟨⟨fun hinf => ?_, fun x y haff => ?_⟩, ?_⟩
  · simp only [v, hinf, negPoint]
  · rw [haff] at hv
    simp only [v, haff, negPoint_aff hv.2.1]
  · rw [exec_psub, guardCurve_guardPoint2_pass hc hu hv]
    exact finish_addPoints hc.one_lt _ _ _ rd s

/-! ### PNEG -/

/-- R228: for an odd p the residues y and p - y have opposite parity. -/
theorem decide_odd_sub {p y : Nat} (hp : p % 2 = 1) (hy : y < p) :
    decide ((p - y) % 2 = 1) = !decide (y % 2 = 1) := by
  rw [← decide_not, decide_eq_decide]
  omega

/-- Settles O45: the three forms of `negPoint`, and the parity of P - y for the odd P of a valid curve. -/
theorem pnegResult : Obligations.PnegResult := by
  intro rd ra s r hc hu
  rw [exec_pneg, guardCurve_guardPoint1_pass hc hu, finish_point]
  refine ⟨fun hinf => ?_, fun x haff => ?_, fun x y haff hy => ?_⟩
  · rw [hinf]
    rfl
  · rw [haff] at hu ⊢
    rw [negPoint_aff hu.2.1, if_pos rfl]
    rfl
  · rw [haff] at hu ⊢
    obtain ⟨-, hlt, -⟩ := hu
    obtain ⟨⟨-, hodd⟩, -⟩ := hc
    rw [negPoint_aff hlt, if_neg hy]
    exact ⟨rfl, decide_odd_sub hodd hlt⟩

/-! ### PEQ and PCHK -/

/-- R12, R34, R230: two views are equal exactly where both are INF, or neither is and the coordinates agree. -/
theorem view_eq_view_iff (r : Regs) (j k : PIdx) : r.view j = r.view k ↔
    (r.pinf.getLsbD j.val = true ∧ r.pinf.getLsbD k.val = true) ∨
    (r.pinf.getLsbD j.val = false ∧ r.pinf.getLsbD k.val = false ∧
      r.x[2 * j.val] = r.x[2 * k.val] ∧ r.x[2 * j.val + 1] = r.x[2 * k.val + 1]) := by
  cases hj : r.pinf.getLsbD j.val <;> cases hk : r.pinf.getLsbD k.val
  · simp [view_of_tag_clear hj, view_of_tag_clear hk, BitVec.toNat_inj]
  · simp [view_of_tag_clear hj, view_of_tag_set hk]
  · simp [view_of_tag_set hj, view_of_tag_clear hk]
  · simp [view_of_tag_set hj, view_of_tag_set hk]

/-- Settles O47: PEQ decides the equality of the two views. -/
theorem peqResult : Obligations.PeqResult := by
  intro ra rb s r
  refine ⟨decide (r.view ra = r.view rb), exec_peq ra rb s, ?_⟩
  rw [decide_eq_true_iff, view_eq_view_iff]

/-- Settles O48: after the checks of the curve registers PCHK answers `onCurve` of the view. -/
theorem pchkResult : Obligations.PchkResult := by
  intro ra s r hc
  refine ⟨r.onCurve (r.view ra), ?_, onCurve_iff_validPoint r _ (Nat.zero_lt_of_lt hc.one_lt)⟩
  rw [exec_pchk, guardCurve_pass hc]
  rfl

end Sys2Proof.Machine
end

section
/-! The group law over a prime field (42_point.md R232), on every point of the curve, a singular one included. -/

namespace Sys2Proof.Machine

section
variable {p : Nat} [hpf : Fact p.Prime] {a b : Nat}

/-- R224: the y coordinate of `Neg` is the opposite in the field. -/
theorem cast_neg_mod {y : Nat} (hy : y < p) : (((p - y) % p : Nat) : ZMod p) = -(y : ZMod p) := by
  rw [ZMod.natCast_mod, Nat.cast_sub hy.le, ZMod.natCast_self, zero_sub]

/-- R232: `Neg` keeps the curve equation, in which y occurs as its square. -/
theorem onCurve_negPoint {u : Point} (hu : onCurve p a b u = true) : onCurve p a b (negPoint p u) = true := by
  cases u with
  | inf => rfl
  | aff x y =>
    obtain ⟨hx, hy, heq⟩ := (onCurve_aff_iff prime_pos).1 hu
    refine (onCurve_aff_iff prime_pos).2 ⟨hx, Nat.mod_lt _ prime_pos, ?_⟩
    rw [cast_neg_mod hy, neg_sq, heq]

/-- R232: a point and its negation are opposite, so their sum is INF. -/
theorem addPoints_negPoint (h2 : p ≠ 2) {u : Point} (hu : onCurve p a b u = true) :
    addPoints p a u (negPoint p u) = .ok .inf := by
  cases u with
  | inf => rfl
  | aff x y =>
    obtain ⟨-, hy, -⟩ := (onCurve_aff_iff prime_pos).1 hu
    exact addPoints_opposite h2 hy (Nat.mod_lt _ prime_pos) (by rw [cast_neg_mod hy, neg_neg])

/-- R232: the sum of two points of the curve does not fault and lies on the curve: INF for opposite points, and elsewhere
the third point of the chord or tangent, reflected. -/
theorem addPoints_onCurve (h2 : p ≠ 2) {u v : Point} (hu : onCurve p a b u = true) (hv : onCurve p a b v = true) :
    ∃ w, addPoints p a u v = .ok w ∧ onCurve p a b w = true := by
  cases u with
  | inf => exact ⟨v, rfl, hv⟩
  | aff ux uy =>
    cases v with
    | inf => exact ⟨.aff ux uy, rfl, hu⟩
    | aff vx vy =>
      obtain ⟨hux, huy, hu⟩ := (onCurve_aff_iff prime_pos).1 hu
      obtain ⟨hvx, hvy, hv⟩ := (onCurve_aff_iff prime_pos).1 hv
      by_cases hop : (ux : ZMod p) = vx ∧ (uy : ZMod p) = -(vy : ZMod p)
      · obtain rfl := (cast_inj hux hvx).1 hop.1
        exact ⟨.inf, addPoints_opposite h2 huy hvy hop.2, rfl⟩
      · obtain ⟨x3, y3, hadd, hx3, hy3, ex, ey⟩ := addPoints_chord h2 hux huy hvx hvy hu hv hop
        refine ⟨.aff x3 y3, hadd, (onCurve_aff_iff prime_pos).2 ⟨hx3, hy3, ?_⟩⟩
        rw [← curveOf_equation, ex, ey]
        exact WeierstrassCurve.Affine.equation_add (curveOf_equation.2 hu) (curveOf_equation.2 hv)
          (by rwa [curveOf_negY])

end

/-- Settles O59: valid points are those of the curve, over which `addPoints` and `negPoint` stay. -/
theorem groupLawProperties : Obligations.GroupLawProperties := by
  intro r u v hprime h3 _ hu hv
  have := Fact.mk hprime
  have h2 : r.p.toNat ≠ 2 := by omega
  have valid (w : Point) : onCurve r.p.toNat r.a.toNat r.b.toNat w = true ↔ ValidPoint r w :=
    onCurve_iff_validPoint r w hprime.pos
  simp only [← valid] at hu hv ⊢
  exact ⟨addPoints_onCurve h2 hu hv, addPoints_inf_right _ _ u, addPoints_inf_left _ _ u, onCurve_negPoint hu,
    addPoints_negPoint h2 hu⟩

end Sys2Proof.Machine
end

section
/-! The scalar commands (43_scalar.md R260 to R264): double-and-add over a prime field runs through the multiples of its
point, and SMUL and PUBK complete with what it answers. -/

namespace Sys2Proof.Machine

/-! ### Multiples of a point -/

/-- `f` lists the multiples of `u`: `Add` adds the factors, and double-and-add (R260) over enough bits answers f k. The
points need not be those of a group: R261 holds of the singular point of a curve as well. -/
structure IsMultiples (p a : Nat) (u : Point) (f : Nat → Point) : Prop where
  zero : f 0 = .inf
  one : f 1 = u
  add : ∀ j k, addPoints p a (f j) (f k) = .ok (f (j + k))
  loop : ∀ {n k}, k < 2 ^ n → smulLoop p a n k .inf u = .ok (f k)

theorem IsMultiples.smul {p a : Nat} {u : Point} {f : Nat → Point} (h : IsMultiples p a u f) (k : Nat) :
    smul p a u k = .ok (f k) := h.loop (lt_two_pow_bitlen k)

/-- R260: the multiples of a point that is its own opposite alternate between INF and the point. -/
theorem isMultiples_vertical (p a x : Nat) :
    IsMultiples p a (.aff x 0) fun k => if k % 2 = 1 then .aff x 0 else .inf where
  zero := rfl
  one := rfl
  add j k := by
    have hdouble : addPoints p a (.aff x 0) (.aff x 0) = .ok .inf := by simp [addPoints]
    obtain hj | hj := Nat.mod_two_eq_zero_or_one j <;> obtain hk | hk := Nat.mod_two_eq_zero_or_one k <;>
      simp [Nat.add_mod j k, hj, hk, hdouble]
  loop {n k} hk := by
    cases n with
    | zero =>
      obtain rfl : k = 0 := by omega
      rfl
    | succ n => exact smulLoop_vertical p a x k n

section
variable {p : Nat} [hpf : Fact p.Prime] {a b : Nat}

/-- R260: the multiples of a point of the group of nonsingular points are those of the group. -/
theorem Represents.exists_isMultiples (h2 : p ≠ 2) {u : Point} {q : (curveOf p a b).Point} (hu : Represents a b u q) :
    ∃ f, IsMultiples p a u f := by
  choose f _ hf using fun k => hu.smul h2 k
  refine ⟨f, ?_, ?_, fun j k => ?_, fun {n k} hk => ?_⟩
  · refine (hf 0).unique ?_
    rw [zero_nsmul]
    trivial
  · refine (hf 1).unique ?_
    rwa [one_nsmul]
  · obtain ⟨w, hadd, hw⟩ := (hf j).add h2 (hf k)
    rw [← add_nsmul] at hw
    rw [hadd, hw.unique (hf (j + k))]
  · obtain ⟨w, hloop, hw⟩ := Represents.smulLoop h2 n k .inf u 0 q hk trivial hu
    rw [zero_add] at hw
    rw [hloop, hw.unique (hf k)]

/-- R261: every point of the curve has its multiples, a singular one included. -/
theorem exists_isMultiples (h2 : p ≠ 2) {u : Point} (hu : onCurve p a b u = true) : ∃ f, IsMultiples p a u f := by
  obtain ⟨q, hq⟩ | ⟨x, rfl⟩ := represents_or_singular h2 hu
  · exact hq.exists_isMultiples h2
  · exact ⟨_, isMultiples_vertical p a x⟩

/-- R232: a multiple is a sum of points of the curve, so it lies on the curve. -/
theorem IsMultiples.onCurve (h2 : p ≠ 2) {u : Point} {f : Nat → Point} (hf : IsMultiples p a u f)
    (hu : onCurve p a b u = true) (k : Nat) : onCurve p a b (f k) = true := by
  induction k with
  | zero =>
    rw [hf.zero]
    rfl
  | succ k ih =>
    obtain ⟨w, hadd, hw⟩ := addPoints_onCurve h2 ih hu
    have hsucc := hf.add k 1
    rw [hf.one, hadd] at hsucc
    cases hsucc
    exact hw

end

/-- R261: over a prime P > 3 a valid point has its multiples, and they are valid. -/
theorem ValidPoint.exists_isMultiples {r : Regs} {u : Point} (hprime : r.p.toNat.Prime) (h3 : 3 < r.p.toNat)
    (hu : ValidPoint r u) : ∃ f, IsMultiples r.p.toNat r.a.toNat u f ∧ ∀ k, ValidPoint r (f k) := by
  have := Fact.mk hprime
  have h2 : r.p.toNat ≠ 2 := by omega
  have hon := (onCurve_iff_validPoint r u hprime.pos).2 hu
  obtain ⟨f, hf⟩ := Machine.exists_isMultiples h2 hon
  exact ⟨f, hf, fun k => (onCurve_iff_validPoint r _ hprime.pos).1 (hf.onCurve h2 hon k)⟩

/-! ### Results -/

/-- R260, R302: the completion of a command that multiplies `u` by `k`. -/
theorem finish_smul (p a : Nat) (u : Point) (k : Nat) (rd : PIdx) (s : State) :
    (∀ w, smul p a u k = .ok w → finish (smul p a u k) (commitPoint rd) s = .next (pointDone rd w s)) ∧
    (∀ c, smul p a u k = .error c →
      c = .noinv ∧ finish (smul p a u k) (commitPoint rd) s = .next (faultDone .noinv s)) := by
  constructor
  · intro w hw
    rw [hw, finish_point]
  · intro c hc
    obtain rfl := smulLoop_error _ hc
    exact ⟨rfl, by rw [hc, finish_error]⟩

/-- Settles O49: after the checks SMUL completes with what `smul` answers, over a prime the multiple of the view. -/
theorem smulResult : Obligations.SmulResult := by
  intro rd ra rb s r u k hc hu
  rw [exec_smul, guardCurve_guardPoint1_pass hc hu]
  obtain ⟨hok, herr⟩ := finish_smul r.p.toNat r.a.toNat u k rd s
  refine ⟨hok, herr, fun hprime h3 => ?_⟩
  obtain ⟨f, hf, hvalid⟩ := hu.exists_isMultiples hprime h3
  exact ⟨f k, hvalid k, hok _ (hf.smul k), fun hk => hk ▸ hf.zero, fun hk => hk ▸ hf.one⟩

/-- R263: PUBK with valid curve registers, N and generator is the check of the scalar, then the multiplication. -/
theorem exec_pubk_of_valid (rd : PIdx) (rb : XIdx) {s : State} (hc : ValidCurve s.operands)
    (hn : ModValid s.operands.n.toNat) (hg : ValidPoint s.operands s.operands.generator) :
    exec (.pubk rd rb) s =
      finish (require (0 < s.operands.xNat rb ∧ s.operands.xNat rb < s.operands.n.toNat) .scalar <|
        smul s.operands.pNat s.operands.aNat s.operands.generator (s.operands.xNat rb)) (commitPoint rd) s := by
  rw [exec_pubk, guardCurveN_eq_require_guardCurve, require_pos hn, guardCurve_guardPoint1_pass hc hg]

/-- Settles O50: PUBK checks the scalar, then completes with what `smul` answers for the generator. -/
theorem pubkResult : Obligations.PubkResult := by
  intro rd rb s r g k hc hn hg
  rw [exec_pubk_of_valid rd rb hc hn hg]
  refine ⟨fun hk => ?_, fun h0 hlt => ?_⟩
  · rw [require_neg fun h => ?_, finish_error]
    change 0 < k ∧ k < r.n.toNat at h
    omega
  · rw [require_pos ⟨h0, hlt⟩]
    obtain ⟨hok, herr⟩ := finish_smul r.p.toNat r.a.toNat g k rd s
    refine ⟨hok, herr, fun hprime h3 => ?_⟩
    obtain ⟨f, hf, hvalid⟩ := hg.exists_isMultiples hprime h3
    exact ⟨f k, hvalid k, hf.smul k, hok _ (hf.smul k)⟩

/-- Settles O60: double-and-add answers the multiples of U, which add up. -/
theorem scalarMultiplicationIsAdditive : Obligations.ScalarMultiplicationIsAdditive := by
  intro r u j k hprime h3 _ hu
  obtain ⟨f, hf, -⟩ := hu.exists_isMultiples hprime h3
  refine ⟨?_, ⟨f j, f k, f (j + k), hf.smul j, hf.smul k, hf.smul (j + k), hf.add j k⟩, fun hk => ?_⟩
  · calc smul r.p.toNat r.a.toNat u 2
        = .ok (f (1 + 1)) := hf.smul 2
      _ = addPoints r.p.toNat r.a.toNat u u := by rw [← hf.add, hf.one]
  · rw [hf.loop hk, hf.smul k]

end Sys2Proof.Machine
end

section
/-! Control (44_control.md R280, R281): both resets, and NOP. -/

namespace Sys2Proof.Machine

/-! ### Reset -/

theorem irq_respond (r : Reply) (s : State) : irq (respond r s) = irq s := rfl

/-- R351: no STATUS bit is set after a reset, so irq is deasserted. -/
theorem irq_resetEccu (s : State) : irq (resetEccu s) = false := by
  simp only [irq, resetEccu_status, Bool.false_and, Bool.or_false]

/-- Settles O14: a soft reset is `resetEccu` and an answer, which is in the port alone. -/
theorem bothResetsRestoreResetState : Obligations.BothResetsRestoreResetState := by
  intro s v hv
  rw [serve_softReset s hv]
  refine ⟨congrArg Host.Outcome.next (resetEccu_eq s), ?_, rfl, ?_⟩
  · rw [respond_pending, resetEccu_pending]
  · rw [irq_respond, irq_resetEccu]

/-! ### NOP -/

/-- R280, R302: NOP completes with the registers and flags as they were. -/
theorem exec_nop (s : State) : exec .nop s = .next (okDone s.regs s.flags s) := by
  rw [exec_eq_finish]
  exact congrArg Host.Outcome.next (Write.nothing.completeOk_commit s)

/-- R127: the encoding of NOP is 0, and no other word is. -/
theorem decode_eq_nop_iff {w : Word} : decode w = .ok .nop ↔ w = 0 := by
  have henc : encode .nop = 0 := by decide
  constructor
  · intro h
    rw [← decodedWordEncodesBack w .nop h, henc]
  · rintro rfl
    rw [← henc]
    exact encodedCommandDecodesBack .nop

/-- R126: a command whose word has OP = 0x00 is NOP. -/
theorem eq_nop_of_decode {w : Word} {i : Instr} (hop : w.extractLsb' 0 6 = 0) (h : decode w = .ok i) : i = .nop := by
  obtain ⟨o, hm, rfl⟩ := decode_eq_ok_iff.1 h
  have hcode : o.code = Op.nop.code := ((o.matches_iff_admits w).1 hm).op.symm.trans hop
  cases Op.code_injective hcode
  rfl

/-- Settles O30: a word with OP = 0 decodes to NOP or not at all, and NOP has one word. -/
theorem nopCompletes : Obligations.NopCompletes := by
  refine ⟨exec_nop, fun w hop => ⟨decode_eq_nop_iff, fun hw => ?_⟩⟩
  cases hd : decode w with
  | error e => exact ⟨e, rfl⟩
  | ok i =>
    obtain rfl := eq_nop_of_decode hop hd
    exact absurd (decode_eq_nop_iff.1 hd) hw

end Sys2Proof.Machine
end

section
/-! Exceptions (60_exceptions.md): acceptance (R300), dropped writes and WERR (R306), bus errors (R307) and the interrupt
output (R309, R310). -/

namespace Sys2Proof.Machine

/-! ### Bus errors -/

/-- R84, R307: a bad access inside the window gets a bus error and no more. -/
theorem serve_badAccess {a : Access} (s : State) (hlt : a.offset < 0x1000)
    (hbad : a.width ≠ .bits32 ∨ a.offset % 4 ≠ 0) : serve a s = respond .busError s := by
  have hin : ¬windowBytes ≤ a.offset := Nat.not_le.2 hlt
  rw [serve, if_neg hin, if_pos hbad]

/-- Settles O21: the bus error is an answer, which is in the port alone. -/
theorem badAccessGetsBusError : Obligations.BadAccessGetsBusError := by
  intro s a hlt hbad
  rw [serve_badAccess s hlt hbad]
  rfl

/-! ### Writes that BUSY accepts or drops -/

theorem whileIdle_idle (write : State → State) {s : State} (h : s.status.busy = false) :
    whileIdle write s = write s := by simp only [whileIdle, h, Bool.false_eq_true, if_false]

theorem whileIdle_busy (write : State → State) {s : State} (h : s.status.busy = true) :
    whileIdle write s = dropWrite s := by simp only [whileIdle, h, if_true]

theorem memWrite_cmd (v : Word) (s : State) : memWrite 0x008 v s = whileIdle (accept v) s := by
  simp only [memWrite, slotAt_cmd]

/-- R300: a command word written while BUSY = 0 is accepted. -/
theorem serve_cmd_idle (w : Word) {s : State} (h : s.status.busy = false) :
    serve ⟨.write w, .bits32, 0x008⟩ s = respond .written (accept w s) := by
  rw [serve_write w s rfl (by decide), memWrite_cmd, whileIdle_idle _ h]

/-- Settles O16: the write is `accept` and an answer. -/
theorem acceptedWriteToCmd : Obligations.AcceptedWriteToCmd := by
  intro s w hidle
  rw [serve_cmd_idle w hidle]
  rfl

/-- R306: BUSY drops a write to CMD, PINF, an X word or a curve word. -/
theorem memWrite_dropped {off : Nat} (v : Word) {s : State} (h : s.status.busy = true) (h4 : off % 4 = 0)
    (hoff : off = 0x008 ∨ off = 0x01C ∨ (0x100 ≤ off ∧ off < 0x3C0)) : memWrite off v s = dropWrite s := by
  obtain rfl | rfl | ⟨hlo, hhi⟩ := hoff
  · rw [memWrite_cmd, whileIdle_busy _ h]
  · simp only [memWrite, slotAt_pinf, whileIdle_busy _ h]
  · obtain hx | hcurve := Nat.lt_or_ge off 0x300
    · obtain ⟨i, j, hslot, -⟩ := exists_slotAt_x h4 hlo hx
      simp only [memWrite, hslot, whileIdle_busy _ h]
    · obtain ⟨c, j, hslot, -⟩ := exists_slotAt_curve h4 hcurve hhi
      simp only [memWrite, hslot, whileIdle_busy _ h]

theorem serve_dropped {off : Nat} (v : Word) {s : State} (h : s.status.busy = true) (h4 : off % 4 = 0)
    (hoff : off = 0x008 ∨ off = 0x01C ∨ (0x100 ≤ off ∧ off < 0x3C0)) :
    serve ⟨.write v, .bits32, off⟩ s = respond .written (dropWrite s) := by
  rw [serve_write v s h4 (by omega), memWrite_dropped v h h4 hoff]

/-! ### What clears WERR -/

theorem whileIdle_keeps_werr {write : State → State} {s : State} (hs : s.status.werr = true)
    (hw : (write s).status.werr = s.status.werr) : (whileIdle write s).status.werr = true := by
  unfold whileIdle
  split
  · rfl
  · exact hw.trans hs

/-- R41, R281, R306: a word write that clears WERR is a soft reset or a W1C write of bit 3. -/
theorem memWrite_clears_werr {off : Nat} {v : Word} {s : State} (h4 : off % 4 = 0) (hlt : off < 0x1000)
    (hs : s.status.werr = true) (ht : (memWrite off v s).status.werr = false) :
    (off = 0x004 ∧ v.getLsbD 0 = true) ∨ (off = 0x00C ∧ v.getLsbD 3 = true) := by
  unfold memWrite at ht
  cases hslot : slotAt off <;> simp only [hslot] at ht
  case ctrl =>
    refine .inl ⟨offset_of_ctrl h4 hlt hslot, ?_⟩
    by_contra hv
    rw [if_neg hv, hs] at ht
    cases ht
  case status =>
    refine .inr ⟨offset_of_status h4 hlt hslot, ?_⟩
    simpa only [acknowledge_status, Status.clear, hs, Bool.true_and, Bool.not_eq_false'] using ht
  case cmd | pinf | x | curve => exact absurd (whileIdle_keeps_werr hs rfl) (ne_true_of_eq_false ht)
  case id | ie | flags | errcmd | reserved => exact absurd hs (ne_true_of_eq_false ht)

/-- R84, R86, R87: an access is answered with the ECCU as it was, or is a word write inside the window. -/
theorem serve_cases (a : Access) (s : State) :
    (∃ r, serve a s = respond r s) ∨
      ∃ v, a = ⟨.write v, .bits32, a.offset⟩ ∧ a.offset % 4 = 0 ∧ a.offset < 0x1000 ∧
        serve a s = respond .written (memWrite a.offset v s) := by
  obtain ⟨_ | v, width, off⟩ := a
  · exact .inl (serve_read_eq_respond width off s)
  · by_cases hlt : off < 0x1000
    · by_cases hbad : width ≠ .bits32 ∨ off % 4 ≠ 0
      · exact .inl ⟨_, serve_badAccess s hlt hbad⟩
      · obtain ⟨rfl, h4⟩ : width = .bits32 ∧ off % 4 = 0 := by simpa only [not_or, not_not] using hbad
        exact .inr ⟨v, rfl, h4, hlt, serve_write v s h4 hlt⟩
    · have hout : windowBytes ≤ off := Nat.not_lt.1 hlt
      exact .inl ⟨_, if_pos hout⟩

theorem serve_clears_werr {a : Access} {s : State} (hs : s.status.werr = true) (ht : (serve a s).status.werr = false) :
    isSoftReset a = true ∨ ∃ v, v.getLsbD 3 = true ∧ a = ⟨.write v, .bits32, 0x00C⟩ := by
  obtain ⟨r, hr⟩ | ⟨v, ha, h4, hlt, hw⟩ := serve_cases a s
  · rw [hr] at ht
    exact absurd hs (ne_true_of_eq_false ht)
  · rw [hw] at ht
    obtain ⟨hoff, hv⟩ | ⟨hoff, hv⟩ := memWrite_clears_werr h4 hlt hs ht <;> rw [hoff] at ha <;> subst ha
    · exact .inl hv
    · exact .inr ⟨v, hv, rfl⟩

theorem complete_keeps_werr {s t : State} (h : complete s = .next t) : t.status.werr = s.status.werr := by
  obtain ⟨-, hs⟩ | ⟨-, ⟨c, hs⟩ | ⟨r, f, hs⟩⟩ := complete_cases s <;> cases hs.symm.trans h <;> rfl

/-- Settles O17: BUSY drops the write, a completion keeps WERR, and an access that clears it is one of the two. -/
theorem writeWhileBusyIsDropped : Obligations.WriteWhileBusyIsDropped := by
  refine fun s => ⟨fun v off hbusy h4 hoff => ?_, fun turn t hs hturn ht => ?_⟩
  · rw [serve_dropped v hbusy h4 hoff]
    rfl
  · cases turn with
    | host a =>
      cases hturn
      obtain hreset | ⟨v, hv, rfl⟩ := serve_clears_werr hs ht
      · exact .inl hreset
      · exact .inr ⟨v, hv, rfl⟩
    | sequencer => exact absurd ((complete_keeps_werr hturn).trans hs) (ne_true_of_eq_false ht)
    | rst => exact .inl rfl

/-! ### The interrupt output -/

theorem irq_of_done {s : State} (h : s.status.done = true) (hie : s.ie.doneIe = true) : irq s = true := by
  simp only [irq, h, hie, Bool.and_true, Bool.true_or]

theorem irq_of_err {s : State} (h : s.status.err = true) (hie : s.ie.errIe = true) : irq s = true := by
  simp only [irq, h, hie, Bool.and_true, Bool.true_or, Bool.or_true]

theorem irq_of_werr {s : State} (h : s.status.werr = true) (hie : s.ie.werrIe = true) : irq s = true := by
  simp only [irq, h, hie, Bool.and_true, Bool.or_true]

/-- R300, R310: an acceptance leaves WERR's source alone. -/
theorem irq_accept (w : Word) (s : State) : irq (accept w s) = (s.status.werr && s.ie.werrIe) := by
  simp only [irq, accept_status, accept_ie, Bool.false_and, Bool.false_or]

/-- R309: the formula over the bits of STATUS and IE as the host reads them. -/
theorem irq_eq_reads (s : State) : irq s = (((memRead 0x00C s).getLsbD 1 && (memRead 0x010 s).getLsbD 0) ||
    ((memRead 0x00C s).getLsbD 2 && (memRead 0x010 s).getLsbD 1) ||
    ((memRead 0x00C s).getLsbD 3 && (memRead 0x010 s).getLsbD 2)) := by
  obtain ⟨-, -, hdone, herr, hwerr, -⟩ := status_layout s.status
  obtain ⟨-, hdoneIe, herrIe, hwerrIe⟩ := ie_layout s.ie
  rw [memRead_status, memRead_ie, hdone, herr, hwerr, hdoneIe, herrIe, hwerrIe, irq]

/-- R302: every command's completion, faulting or not, sets DONE and keeps IE. -/
theorem exec_irq {i : Instr} {s t : State} (h : exec i s = .next t) (hie : s.ie.doneIe = true) : irq t = true := by
  obtain ⟨c, hs⟩ | ⟨r, f, hs⟩ := exec_cases i s <;> cases hs.symm.trans h <;> exact irq_of_done rfl hie

/-- R41, R310: a W1C write of bits 1 to 3 clears every source. -/
theorem irq_acknowledge {v : Word} (s : State) (h1 : v.getLsbD 1 = true) (h2 : v.getLsbD 2 = true)
    (h3 : v.getLsbD 3 = true) : irq (acknowledge v s) = false := by
  simp only [irq, acknowledge_status, Status.clear, h1, h2, h3, Bool.not_true, Bool.and_false, Bool.false_and,
    Bool.or_false]

/-- R42, R310: with IE = 0 every source is masked. -/
theorem irq_ie_zero (s : State) : irq { s with ie := IntEnable.ofWord 0 } = false := by
  have hie : IntEnable.ofWord 0 = ⟨false, false, false⟩ := by decide
  simp only [irq, hie, Bool.and_false, Bool.or_false]

/-- Settles O18: each event by the operation it is, whose effect on STATUS and IE decides irq. -/
theorem irqIsTheEnabledPendingSources : Obligations.IrqIsTheEnabledPendingSources := by
  intro s
  refine ⟨irq_eq_reads s, fun i t => exec_irq, fun c hie => irq_of_err rfl hie, fun hie v hbusy => ?_, fun v hidle => ?_, ?_, ?_⟩
  · rw [serve_dropped v hbusy rfl (.inl rfl)]
    exact irq_of_werr rfl hie
  · rw [serve_cmd_idle v hidle, irq_respond, irq_accept]
  · rw [serve_write _ s rfl (by decide), memWrite_status, irq_respond, irq_acknowledge s (by decide) (by decide) (by decide)]
  · rw [serve_write _ s rfl (by decide), memWrite_ie, irq_respond, irq_ie_zero]

end Sys2Proof.Machine
end

section
/-! Commands on the reset registers (70_reset_and_hazards.md R352). -/

namespace Sys2Proof.Machine

/-- R352: after a reset all views are affine at (0, 0), so any two are equal. -/
theorem exec_peq_of_operands_reset {s : State} (h : s.operands = Regs.reset) (ra rb : PIdx) :
    exec (.peq ra rb) s = .next (okDone s.regs { s.flags with eq := true } s) := by
  have hviews : s.operands.view ra = s.operands.view rb := by rw [h, view_reset, view_reset]
  rw [exec_peq, decide_eq_true hviews]
  rfl

/-- Settles O15: over the moduli 0 the result is BADMOD, and neither NOP nor PEQ checks a modulus. -/
theorem commandsAfterReset : Obligations.CommandsAfterReset := by
  intro s h
  exact ⟨fun i => exec_of_operands_reset h, exec_nop s, exec_peq_of_operands_reset h⟩

end Sys2Proof.Machine
end
